-- ==== Sys2Proof/Word.lean ====
section
/-! DEFINITION. The two word types of the machine (10_state.md R20, 20_memory.md R50): an 8-bit data byte and a
16-bit address. -/

namespace Sys2Proof

/-- A data byte: what one bus access moves (20_memory.md R53). -/
abbrev Byte := BitVec 8

/-- A 16-bit address or program counter (20_memory.md R50). -/
abbrev Word := BitVec 16

end Sys2Proof
end

