-- ==== Sys2Proof/Syntax.lean ====
section
/-! DEFINITION. The instructions (30_encoding.md R109, R111; spec/opcode_table.json): one constructor per mnemonic,
its operand form an argument. The table has one row per opcode, so one constructor stands for the rows that share its
mnemonic and rule and differ in the addressing mode; `NOP`, whose encodings fall under four rules, has four
constructors, and a mnemonic with several opcodes for one form (`JAM`, `NOP`, `ANC`) carries the opcode (log 35). -/

namespace Sys2Proof

/-- The addressing modes (30_encoding.md R95 to R106), under the table's names. -/
inductive Mode where
  | imp | acc | imm | zp | zpx | zpy | abs | absx | absy | ind | indx | indy | rel
  deriving DecidableEq, Repr

/-- A data operand: the addressing mode and the operand bytes of the instruction (30_encoding.md R95 to R104). -/
inductive Operand where
  /-- `A`, the accumulator (R95) -/
  | acc
  /-- `#$nn` (R102) -/
  | imm (b : Byte)
  /-- `$nn` (R96) -/
  | zp (b : Byte)
  /-- `$nn,X` (R97) -/
  | zpx (b : Byte)
  /-- `$nn,Y` (R98) -/
  | zpy (b : Byte)
  /-- `$nnnn` (R99) -/
  | abs (w : Word)
  /-- `$nnnn,X` (R100) -/
  | absx (w : Word)
  /-- `$nnnn,Y` (R101) -/
  | absy (w : Word)
  /-- `($nn,X)` (R103) -/
  | indx (b : Byte)
  /-- `($nn),Y` (R104) -/
  | indy (b : Byte)
  deriving DecidableEq, Repr

/-- The target of `JMP` (42_control_flag.md R211): absolute (30 R99) or absolute indirect (30 R105). -/
inductive JumpTarget where
  | abs (w : Word)
  | ind (w : Word)
  deriving DecidableEq, Repr

/-- The instruction set. -/
inductive Instr where
  -- 40_load_store_transfer.md
  | lda (o : Operand)
  | ldx (o : Operand)
  | ldy (o : Operand)
  | sta (o : Operand)
  | stx (o : Operand)
  | sty (o : Operand)
  | tax
  | tay
  | txa
  | tya
  | tsx
  | txs
  | pha
  | php
  | pla
  | plp
  -- 41_arith_logic.md
  | adc (o : Operand)
  | sbc (o : Operand)
  | and (o : Operand)
  | ora (o : Operand)
  | eor (o : Operand)
  | bit (o : Operand)
  | cmp (o : Operand)
  | cpx (o : Operand)
  | cpy (o : Operand)
  | inc (o : Operand)
  | dec (o : Operand)
  | inx
  | iny
  | dex
  | dey
  | asl (o : Operand)
  | lsr (o : Operand)
  | rol (o : Operand)
  | ror (o : Operand)
  -- 42_control_flag.md
  | jmp (t : JumpTarget)
  | jsr (w : Word)
  | rts
  | rti
  | brk
  | bpl (d : Byte)
  | bmi (d : Byte)
  | bvc (d : Byte)
  | bvs (d : Byte)
  | bcc (d : Byte)
  | bcs (d : Byte)
  | bne (d : Byte)
  | beq (d : Byte)
  | clc
  | sec
  | cli
  | sei
  | cld
  | sed
  | clv
  | nop
  -- 43_undocumented.md
  | jam (op : Byte)
  | nopImp (op : Byte)
  | nopImm (op : Byte) (b : Byte)
  | nopRead (op : Byte) (o : Operand)
  | slo (o : Operand)
  | rla (o : Operand)
  | sre (o : Operand)
  | rra (o : Operand)
  | sax (o : Operand)
  | lax (o : Operand)
  | dcp (o : Operand)
  | isc (o : Operand)
  | anc (op : Byte) (b : Byte)
  | alr (b : Byte)
  | arr (b : Byte)
  | axs (b : Byte)
  | usbc (b : Byte)
  | las (w : Word)
  | xaa (b : Byte)
  | lxa (b : Byte)
  | sha (o : Operand)
  | shx (w : Word)
  | shy (w : Word)
  | tas (w : Word)
  deriving DecidableEq, Repr

end Sys2Proof
end

