-- ==== Sys2Proof/WellFormed.lean ====
section
/-! DEFINITION. Which instructions exist: the operand forms each instruction rule lists (40 to 43), and the opcodes of
the mnemonics that have several for one form. -/

namespace Sys2Proof

def Operand.mode : Operand → Mode
  | .acc => .acc
  | .imm _ => .imm
  | .zp _ => .zp
  | .zpx _ => .zpx
  | .zpy _ => .zpy
  | .abs _ => .abs
  | .absx _ => .absx
  | .absy _ => .absy
  | .indx _ => .indx
  | .indy _ => .indy

/-- The operand's form is one of `ms`. -/
def Operand.is (ms : List Mode) (o : Operand) : Bool := decide (o.mode ∈ ms)

/-- The eight read forms of `LDA` and `ADC` (R131, R171). -/
def readModes : List Mode := [.imm, .zp, .zpx, .abs, .absx, .absy, .indx, .indy]

/-- The store forms of `STA` (R134). -/
def storeModes : List Mode := [.zp, .zpx, .abs, .absx, .absy, .indx, .indy]

/-- The seven read-modify-write forms of the undocumented group (R254). -/
def rmwModes : List Mode := [.zp, .zpx, .abs, .absx, .absy, .indx, .indy]

/-- The read-modify-write forms of `INC` and `DEC` (R180, R181). -/
def memoryModes : List Mode := [.zp, .zpx, .abs, .absx]

/-- The forms of the documented shifts (R186). -/
def shiftModes : List Mode := [.acc, .zp, .zpx, .abs, .absx]

/-- The twelve jam opcodes (R116, R250). -/
def jamOpcodes : List Byte :=
  [0x02, 0x12, 0x22, 0x32, 0x42, 0x52, 0x62, 0x72, 0x92, 0xB2, 0xD2, 0xF2]

/-- The undocumented implied `NOP` opcodes (R251). -/
def nopImpOpcodes : List Byte := [0x1A, 0x3A, 0x5A, 0x7A, 0xDA, 0xFA]

/-- The undocumented immediate `NOP` opcodes (R252). -/
def nopImmOpcodes : List Byte := [0x80, 0x82, 0x89, 0xC2, 0xE2]

/-- The opcodes of the `NOP` that reads memory, by addressing mode (R253). -/
def nopReadOpcodes : Operand → List Byte
  | .zp _ => [0x04, 0x44, 0x64]
  | .zpx _ => [0x14, 0x34, 0x54, 0x74, 0xD4, 0xF4]
  | .abs _ => [0x0C]
  | .absx _ => [0x1C, 0x3C, 0x5C, 0x7C, 0xDC, 0xFC]
  | .acc | .imm _ | .zpy _ | .absy _ | .indx _ | .indy _ => []

/-- The two `ANC` opcodes (R262). -/
def ancOpcodes : List Byte := [0x0B, 0x2B]

/-- The instruction is one the instruction table has: its operand form is a form its rule lists. -/
def Instr.wellFormed : Instr → Bool
  | .lda o | .adc o | .sbc o | .and o | .ora o | .eor o | .cmp o => o.is readModes
  | .ldx o => o.is [.imm, .zp, .zpy, .abs, .absy]
  | .ldy o => o.is [.imm, .zp, .zpx, .abs, .absx]
  | .sta o => o.is storeModes
  | .stx o => o.is [.zp, .zpy, .abs]
  | .sty o => o.is [.zp, .zpx, .abs]
  | .bit o => o.is [.zp, .abs]
  | .cpx o | .cpy o => o.is [.imm, .zp, .abs]
  | .inc o | .dec o => o.is memoryModes
  | .asl o | .lsr o | .rol o | .ror o => o.is shiftModes
  | .slo o | .rla o | .sre o | .rra o | .dcp o | .isc o => o.is rmwModes
  | .sax o => o.is [.zp, .zpy, .abs, .indx]
  | .lax o => o.is [.zp, .zpy, .abs, .absy, .indx, .indy]
  | .sha o => o.is [.absy, .indy]
  | .jam op => decide (op ∈ jamOpcodes)
  | .nopImp op => decide (op ∈ nopImpOpcodes)
  | .nopImm op _ => decide (op ∈ nopImmOpcodes)
  | .nopRead op o => decide (op ∈ nopReadOpcodes o)
  | .anc op _ => decide (op ∈ ancOpcodes)
  | .tax | .tay | .txa | .tya | .tsx | .txs | .pha | .php | .pla | .plp => true
  | .inx | .iny | .dex | .dey => true
  | .jmp _ | .jsr _ | .rts | .rti | .brk => true
  | .bpl _ | .bmi _ | .bvc _ | .bvs _ | .bcc _ | .bcs _ | .bne _ | .beq _ => true
  | .clc | .sec | .cli | .sei | .cld | .sed | .clv | .nop => true
  | .alr _ | .arr _ | .axs _ | .usbc _ | .xaa _ | .lxa _ => true
  | .las _ | .shx _ | .shy _ | .tas _ => true

end Sys2Proof
end

