-- ==== Sys2Proof/Decode.lean ====
section
/-! DEFINITION. The encoding (30_encoding.md). The decoder is the opcode map of R109, row by row; the encoder is the list
of opcodes by mnemonic of R111; the mark of an undocumented encoding stands beside both. Decoding is total on opcode
bytes (R115, R118): the only bytes it rejects are an instruction cut off before its last operand byte. -/

namespace Sys2Proof

/-- `hi : lo` of 00_scope.md R10. -/
def mkWord (hi lo : Byte) : Word := hi ++ lo

/-- Bits 15:8. -/
def hiByte (w : Word) : Byte := w.extractLsb' 8 8

/-- Bits 7:0. -/
def loByte (w : Word) : Byte := w.extractLsb' 0 8

/-- What an opcode byte selects (R90, R91): the instruction, once its zero, one or two operand bytes are known. -/
inductive OpcodeEntry where
  /-- format F1: no operand byte -/
  | imp (i : Instr)
  /-- format F2: one operand byte -/
  | byte (f : Byte → Instr)
  /-- format F3: two operand bytes, low byte first -/
  | word (f : Word → Instr)

/-- Opcodes `$00` to `$0F`. -/
def opcodeRow0 : List OpcodeEntry :=
  [ .imp .brk,
    .byte (fun b => .ora (.indx b)),
    .imp (.jam 0x02),
    .byte (fun b => .slo (.indx b)),
    .byte (fun v => .nopRead 0x04 (.zp v)),
    .byte (fun b => .ora (.zp b)),
    .byte (fun b => .asl (.zp b)),
    .byte (fun b => .slo (.zp b)),
    .imp .php,
    .byte (fun b => .ora (.imm b)),
    .imp (.asl .acc),
    .byte (.anc 0x0B),
    .word (fun v => .nopRead 0x0C (.abs v)),
    .word (fun w => .ora (.abs w)),
    .word (fun w => .asl (.abs w)),
    .word (fun w => .slo (.abs w)) ]

/-- Opcodes `$10` to `$1F`. -/
def opcodeRow1 : List OpcodeEntry :=
  [ .byte .bpl,
    .byte (fun b => .ora (.indy b)),
    .imp (.jam 0x12),
    .byte (fun b => .slo (.indy b)),
    .byte (fun v => .nopRead 0x14 (.zpx v)),
    .byte (fun b => .ora (.zpx b)),
    .byte (fun b => .asl (.zpx b)),
    .byte (fun b => .slo (.zpx b)),
    .imp .clc,
    .word (fun w => .ora (.absy w)),
    .imp (.nopImp 0x1A),
    .word (fun w => .slo (.absy w)),
    .word (fun v => .nopRead 0x1C (.absx v)),
    .word (fun w => .ora (.absx w)),
    .word (fun w => .asl (.absx w)),
    .word (fun w => .slo (.absx w)) ]

/-- Opcodes `$20` to `$2F`. -/
def opcodeRow2 : List OpcodeEntry :=
  [ .word .jsr,
    .byte (fun b => .and (.indx b)),
    .imp (.jam 0x22),
    .byte (fun b => .rla (.indx b)),
    .byte (fun b => .bit (.zp b)),
    .byte (fun b => .and (.zp b)),
    .byte (fun b => .rol (.zp b)),
    .byte (fun b => .rla (.zp b)),
    .imp .plp,
    .byte (fun b => .and (.imm b)),
    .imp (.rol .acc),
    .byte (.anc 0x2B),
    .word (fun w => .bit (.abs w)),
    .word (fun w => .and (.abs w)),
    .word (fun w => .rol (.abs w)),
    .word (fun w => .rla (.abs w)) ]

/-- Opcodes `$30` to `$3F`. -/
def opcodeRow3 : List OpcodeEntry :=
  [ .byte .bmi,
    .byte (fun b => .and (.indy b)),
    .imp (.jam 0x32),
    .byte (fun b => .rla (.indy b)),
    .byte (fun v => .nopRead 0x34 (.zpx v)),
    .byte (fun b => .and (.zpx b)),
    .byte (fun b => .rol (.zpx b)),
    .byte (fun b => .rla (.zpx b)),
    .imp .sec,
    .word (fun w => .and (.absy w)),
    .imp (.nopImp 0x3A),
    .word (fun w => .rla (.absy w)),
    .word (fun v => .nopRead 0x3C (.absx v)),
    .word (fun w => .and (.absx w)),
    .word (fun w => .rol (.absx w)),
    .word (fun w => .rla (.absx w)) ]

/-- Opcodes `$40` to `$4F`. -/
def opcodeRow4 : List OpcodeEntry :=
  [ .imp .rti,
    .byte (fun b => .eor (.indx b)),
    .imp (.jam 0x42),
    .byte (fun b => .sre (.indx b)),
    .byte (fun v => .nopRead 0x44 (.zp v)),
    .byte (fun b => .eor (.zp b)),
    .byte (fun b => .lsr (.zp b)),
    .byte (fun b => .sre (.zp b)),
    .imp .pha,
    .byte (fun b => .eor (.imm b)),
    .imp (.lsr .acc),
    .byte .alr,
    .word (fun w => .jmp (.abs w)),
    .word (fun w => .eor (.abs w)),
    .word (fun w => .lsr (.abs w)),
    .word (fun w => .sre (.abs w)) ]

/-- Opcodes `$50` to `$5F`. -/
def opcodeRow5 : List OpcodeEntry :=
  [ .byte .bvc,
    .byte (fun b => .eor (.indy b)),
    .imp (.jam 0x52),
    .byte (fun b => .sre (.indy b)),
    .byte (fun v => .nopRead 0x54 (.zpx v)),
    .byte (fun b => .eor (.zpx b)),
    .byte (fun b => .lsr (.zpx b)),
    .byte (fun b => .sre (.zpx b)),
    .imp .cli,
    .word (fun w => .eor (.absy w)),
    .imp (.nopImp 0x5A),
    .word (fun w => .sre (.absy w)),
    .word (fun v => .nopRead 0x5C (.absx v)),
    .word (fun w => .eor (.absx w)),
    .word (fun w => .lsr (.absx w)),
    .word (fun w => .sre (.absx w)) ]

/-- Opcodes `$60` to `$6F`. -/
def opcodeRow6 : List OpcodeEntry :=
  [ .imp .rts,
    .byte (fun b => .adc (.indx b)),
    .imp (.jam 0x62),
    .byte (fun b => .rra (.indx b)),
    .byte (fun v => .nopRead 0x64 (.zp v)),
    .byte (fun b => .adc (.zp b)),
    .byte (fun b => .ror (.zp b)),
    .byte (fun b => .rra (.zp b)),
    .imp .pla,
    .byte (fun b => .adc (.imm b)),
    .imp (.ror .acc),
    .byte .arr,
    .word (fun w => .jmp (.ind w)),
    .word (fun w => .adc (.abs w)),
    .word (fun w => .ror (.abs w)),
    .word (fun w => .rra (.abs w)) ]

/-- Opcodes `$70` to `$7F`. -/
def opcodeRow7 : List OpcodeEntry :=
  [ .byte .bvs,
    .byte (fun b => .adc (.indy b)),
    .imp (.jam 0x72),
    .byte (fun b => .rra (.indy b)),
    .byte (fun v => .nopRead 0x74 (.zpx v)),
    .byte (fun b => .adc (.zpx b)),
    .byte (fun b => .ror (.zpx b)),
    .byte (fun b => .rra (.zpx b)),
    .imp .sei,
    .word (fun w => .adc (.absy w)),
    .imp (.nopImp 0x7A),
    .word (fun w => .rra (.absy w)),
    .word (fun v => .nopRead 0x7C (.absx v)),
    .word (fun w => .adc (.absx w)),
    .word (fun w => .ror (.absx w)),
    .word (fun w => .rra (.absx w)) ]

/-- Opcodes `$80` to `$8F`. -/
def opcodeRow8 : List OpcodeEntry :=
  [ .byte (.nopImm 0x80),
    .byte (fun b => .sta (.indx b)),
    .byte (.nopImm 0x82),
    .byte (fun b => .sax (.indx b)),
    .byte (fun b => .sty (.zp b)),
    .byte (fun b => .sta (.zp b)),
    .byte (fun b => .stx (.zp b)),
    .byte (fun b => .sax (.zp b)),
    .imp .dey,
    .byte (.nopImm 0x89),
    .imp .txa,
    .byte .xaa,
    .word (fun w => .sty (.abs w)),
    .word (fun w => .sta (.abs w)),
    .word (fun w => .stx (.abs w)),
    .word (fun w => .sax (.abs w)) ]

/-- Opcodes `$90` to `$9F`. -/
def opcodeRow9 : List OpcodeEntry :=
  [ .byte .bcc,
    .byte (fun b => .sta (.indy b)),
    .imp (.jam 0x92),
    .byte (fun b => .sha (.indy b)),
    .byte (fun b => .sty (.zpx b)),
    .byte (fun b => .sta (.zpx b)),
    .byte (fun b => .stx (.zpy b)),
    .byte (fun b => .sax (.zpy b)),
    .imp .tya,
    .word (fun w => .sta (.absy w)),
    .imp .txs,
    .word .tas,
    .word .shy,
    .word (fun w => .sta (.absx w)),
    .word .shx,
    .word (fun w => .sha (.absy w)) ]

/-- Opcodes `$A0` to `$AF`. -/
def opcodeRowA : List OpcodeEntry :=
  [ .byte (fun b => .ldy (.imm b)),
    .byte (fun b => .lda (.indx b)),
    .byte (fun b => .ldx (.imm b)),
    .byte (fun b => .lax (.indx b)),
    .byte (fun b => .ldy (.zp b)),
    .byte (fun b => .lda (.zp b)),
    .byte (fun b => .ldx (.zp b)),
    .byte (fun b => .lax (.zp b)),
    .imp .tay,
    .byte (fun b => .lda (.imm b)),
    .imp .tax,
    .byte .lxa,
    .word (fun w => .ldy (.abs w)),
    .word (fun w => .lda (.abs w)),
    .word (fun w => .ldx (.abs w)),
    .word (fun w => .lax (.abs w)) ]

/-- Opcodes `$B0` to `$BF`. -/
def opcodeRowB : List OpcodeEntry :=
  [ .byte .bcs,
    .byte (fun b => .lda (.indy b)),
    .imp (.jam 0xB2),
    .byte (fun b => .lax (.indy b)),
    .byte (fun b => .ldy (.zpx b)),
    .byte (fun b => .lda (.zpx b)),
    .byte (fun b => .ldx (.zpy b)),
    .byte (fun b => .lax (.zpy b)),
    .imp .clv,
    .word (fun w => .lda (.absy w)),
    .imp .tsx,
    .word .las,
    .word (fun w => .ldy (.absx w)),
    .word (fun w => .lda (.absx w)),
    .word (fun w => .ldx (.absy w)),
    .word (fun w => .lax (.absy w)) ]

/-- Opcodes `$C0` to `$CF`. -/
def opcodeRowC : List OpcodeEntry :=
  [ .byte (fun b => .cpy (.imm b)),
    .byte (fun b => .cmp (.indx b)),
    .byte (.nopImm 0xC2),
    .byte (fun b => .dcp (.indx b)),
    .byte (fun b => .cpy (.zp b)),
    .byte (fun b => .cmp (.zp b)),
    .byte (fun b => .dec (.zp b)),
    .byte (fun b => .dcp (.zp b)),
    .imp .iny,
    .byte (fun b => .cmp (.imm b)),
    .imp .dex,
    .byte .axs,
    .word (fun w => .cpy (.abs w)),
    .word (fun w => .cmp (.abs w)),
    .word (fun w => .dec (.abs w)),
    .word (fun w => .dcp (.abs w)) ]

/-- Opcodes `$D0` to `$DF`. -/
def opcodeRowD : List OpcodeEntry :=
  [ .byte .bne,
    .byte (fun b => .cmp (.indy b)),
    .imp (.jam 0xD2),
    .byte (fun b => .dcp (.indy b)),
    .byte (fun v => .nopRead 0xD4 (.zpx v)),
    .byte (fun b => .cmp (.zpx b)),
    .byte (fun b => .dec (.zpx b)),
    .byte (fun b => .dcp (.zpx b)),
    .imp .cld,
    .word (fun w => .cmp (.absy w)),
    .imp (.nopImp 0xDA),
    .word (fun w => .dcp (.absy w)),
    .word (fun v => .nopRead 0xDC (.absx v)),
    .word (fun w => .cmp (.absx w)),
    .word (fun w => .dec (.absx w)),
    .word (fun w => .dcp (.absx w)) ]

/-- Opcodes `$E0` to `$EF`. -/
def opcodeRowE : List OpcodeEntry :=
  [ .byte (fun b => .cpx (.imm b)),
    .byte (fun b => .sbc (.indx b)),
    .byte (.nopImm 0xE2),
    .byte (fun b => .isc (.indx b)),
    .byte (fun b => .cpx (.zp b)),
    .byte (fun b => .sbc (.zp b)),
    .byte (fun b => .inc (.zp b)),
    .byte (fun b => .isc (.zp b)),
    .imp .inx,
    .byte (fun b => .sbc (.imm b)),
    .imp .nop,
    .byte .usbc,
    .word (fun w => .cpx (.abs w)),
    .word (fun w => .sbc (.abs w)),
    .word (fun w => .inc (.abs w)),
    .word (fun w => .isc (.abs w)) ]

/-- Opcodes `$F0` to `$FF`. -/
def opcodeRowF : List OpcodeEntry :=
  [ .byte .beq,
    .byte (fun b => .sbc (.indy b)),
    .imp (.jam 0xF2),
    .byte (fun b => .isc (.indy b)),
    .byte (fun v => .nopRead 0xF4 (.zpx v)),
    .byte (fun b => .sbc (.zpx b)),
    .byte (fun b => .inc (.zpx b)),
    .byte (fun b => .isc (.zpx b)),
    .imp .sed,
    .word (fun w => .sbc (.absy w)),
    .imp (.nopImp 0xFA),
    .word (fun w => .isc (.absy w)),
    .word (fun v => .nopRead 0xFC (.absx v)),
    .word (fun w => .sbc (.absx w)),
    .word (fun w => .inc (.absx w)),
    .word (fun w => .isc (.absx w)) ]

/-- The opcode map of R109: its rows by the high digit of the opcode. -/
def opcodeMap : List (List OpcodeEntry) :=
  [opcodeRow0, opcodeRow1, opcodeRow2, opcodeRow3, opcodeRow4, opcodeRow5, opcodeRow6, opcodeRow7] ++
  [opcodeRow8, opcodeRow9, opcodeRowA, opcodeRowB, opcodeRowC, opcodeRowD, opcodeRowE, opcodeRowF]

/-- The entry of an opcode. The map has an entry for each of the 256 opcodes (R115), so the default is never taken. -/
def opcodeEntry (op : Byte) : OpcodeEntry :=
  ((opcodeMap.getD (op.toNat / 16) []).getD (op.toNat % 16) (.imp .nop))

/-- The columns marked `*` in each row of the opcode map (R109). -/
def undocumentedColumns : List (List Nat) :=
  [[2, 3, 4, 7, 11, 12, 15], [2, 3, 4, 7, 10, 11, 12, 15], [2, 3, 7, 11, 15], [2, 3, 4, 7, 10, 11, 12, 15]] ++
  [[2, 3, 4, 7, 11, 15], [2, 3, 4, 7, 10, 11, 12, 15], [2, 3, 4, 7, 11, 15], [2, 3, 4, 7, 10, 11, 12, 15]] ++
  [[0, 2, 3, 7, 9, 11, 15], [2, 3, 7, 11, 12, 14, 15], [3, 7, 11, 15], [2, 3, 7, 11, 15]] ++
  [[2, 3, 7, 11, 15], [2, 3, 4, 7, 10, 11, 12, 15], [2, 3, 7, 11, 15], [2, 3, 4, 7, 10, 11, 12, 15]]

/-- The fourth field of an entry of the instruction table: the flag that tells a documented encoding from an undocumented
one (R90, R115). It has no effect on decoding. -/
def documented (op : Byte) : Bool :=
  !((undocumentedColumns.getD (op.toNat / 16) []).contains (op.toNat % 16))

/-- The mnemonics that are not among R111's undocumented ones; a `NOP` is documented as `EA` only. -/
def Instr.documented : Instr → Bool
  | .lda _ | .ldx _ | .ldy _ | .sta _ | .stx _ | .sty _ | .tax | .tay | .txa | .tya | .tsx | .txs | .pha | .php | .pla
  | .plp | .adc _ | .sbc _ | .and _ | .ora _ | .eor _ | .bit _ | .cmp _ | .cpx _ | .cpy _ | .inc _ | .dec _ | .inx
  | .iny | .dex | .dey | .asl _ | .lsr _ | .rol _ | .ror _ | .jmp _ | .jsr _ | .rts | .rti | .brk | .bpl _ | .bmi _
  | .bvc _ | .bvs _ | .bcc _ | .bcs _ | .bne _ | .beq _ | .clc | .sec | .cli | .sei | .cld | .sed | .clv | .nop => true
  | .jam _ | .nopImp _ | .nopImm _ _ | .nopRead _ _ | .slo _ | .rla _ | .sre _ | .rra _ | .sax _ | .lax _ | .dcp _
  | .isc _ | .anc _ _ | .alr _ | .arr _ | .axs _ | .usbc _ | .las _ | .xaa _ | .lxa _ | .sha _ | .shx _ | .shy _
  | .tas _ => false

/-- Why bytes are no instruction. No opcode is reserved (R117), so an instruction can only be cut off. -/
inductive DecodeError where
  /-- no byte at all -/
  | empty
  /-- the opcode needs an operand byte that is not there -/
  | missingOperand
  deriving DecidableEq, Repr

/-- The instruction at the head of a byte sequence, and the bytes after it (R91, R93). `BRK` takes its opcode byte only:
the signature byte is skipped by the instruction itself (format F2', R215). -/
def decode : List Byte → Except DecodeError (Instr × List Byte)
  | [] => .error .empty
  | op :: rest =>
    match opcodeEntry op, rest with
    | .imp i, rest => .ok (i, rest)
    | .byte f, b :: rest => .ok (f b, rest)
    | .word f, lo :: hi :: rest => .ok (f (mkWord hi lo), rest)
    | _, _ => .error .missingOperand

/-- A 16-bit operand field as stored: low byte first (R91, 20_memory.md R51). -/
def wordBytes (w : Word) : List Byte := [loByte w, hiByte w]

/-- The operand bytes of an operand form. -/
def Operand.bytes : Operand → List Byte
  | .acc => []
  | .imm b | .zp b | .zpx b | .zpy b | .indx b | .indy b => [b]
  | .abs w | .absx w | .absy w => wordBytes w

/-- The opcode a mnemonic has for the operand's form, then the operand bytes; nothing for a form it does not have. -/
def withOpcode (codes : List (Mode × Byte)) (o : Operand) : List Byte :=
  match codes.lookup o.mode with
  | some op => op :: o.bytes
  | none => []

/-- The bytes of a well-formed instruction, by the mnemonic's opcodes (R111). -/
def encode : Instr → List Byte
  | .lda o => withOpcode [(.indx, 0xA1), (.zp, 0xA5), (.imm, 0xA9), (.abs, 0xAD),
      (.indy, 0xB1), (.zpx, 0xB5), (.absy, 0xB9), (.absx, 0xBD)] o
  | .ldx o => withOpcode [(.imm, 0xA2), (.zp, 0xA6), (.abs, 0xAE), (.zpy, 0xB6), (.absy, 0xBE)] o
  | .ldy o => withOpcode [(.imm, 0xA0), (.zp, 0xA4), (.abs, 0xAC), (.zpx, 0xB4), (.absx, 0xBC)] o
  | .sta o => withOpcode [(.indx, 0x81), (.zp, 0x85), (.abs, 0x8D),
      (.indy, 0x91), (.zpx, 0x95), (.absy, 0x99), (.absx, 0x9D)] o
  | .stx o => withOpcode [(.zp, 0x86), (.abs, 0x8E), (.zpy, 0x96)] o
  | .sty o => withOpcode [(.zp, 0x84), (.abs, 0x8C), (.zpx, 0x94)] o
  | .tax => [0xAA]
  | .tay => [0xA8]
  | .txa => [0x8A]
  | .tya => [0x98]
  | .tsx => [0xBA]
  | .txs => [0x9A]
  | .pha => [0x48]
  | .php => [0x08]
  | .pla => [0x68]
  | .plp => [0x28]
  | .adc o => withOpcode [(.indx, 0x61), (.zp, 0x65), (.imm, 0x69), (.abs, 0x6D),
      (.indy, 0x71), (.zpx, 0x75), (.absy, 0x79), (.absx, 0x7D)] o
  | .sbc o => withOpcode [(.indx, 0xE1), (.zp, 0xE5), (.imm, 0xE9), (.abs, 0xED),
      (.indy, 0xF1), (.zpx, 0xF5), (.absy, 0xF9), (.absx, 0xFD)] o
  | .and o => withOpcode [(.indx, 0x21), (.zp, 0x25), (.imm, 0x29), (.abs, 0x2D),
      (.indy, 0x31), (.zpx, 0x35), (.absy, 0x39), (.absx, 0x3D)] o
  | .ora o => withOpcode [(.indx, 0x01), (.zp, 0x05), (.imm, 0x09), (.abs, 0x0D),
      (.indy, 0x11), (.zpx, 0x15), (.absy, 0x19), (.absx, 0x1D)] o
  | .eor o => withOpcode [(.indx, 0x41), (.zp, 0x45), (.imm, 0x49), (.abs, 0x4D),
      (.indy, 0x51), (.zpx, 0x55), (.absy, 0x59), (.absx, 0x5D)] o
  | .bit o => withOpcode [(.zp, 0x24), (.abs, 0x2C)] o
  | .cmp o => withOpcode [(.indx, 0xC1), (.zp, 0xC5), (.imm, 0xC9), (.abs, 0xCD),
      (.indy, 0xD1), (.zpx, 0xD5), (.absy, 0xD9), (.absx, 0xDD)] o
  | .cpx o => withOpcode [(.imm, 0xE0), (.zp, 0xE4), (.abs, 0xEC)] o
  | .cpy o => withOpcode [(.imm, 0xC0), (.zp, 0xC4), (.abs, 0xCC)] o
  | .inc o => withOpcode [(.zp, 0xE6), (.abs, 0xEE), (.zpx, 0xF6), (.absx, 0xFE)] o
  | .dec o => withOpcode [(.zp, 0xC6), (.abs, 0xCE), (.zpx, 0xD6), (.absx, 0xDE)] o
  | .inx => [0xE8]
  | .iny => [0xC8]
  | .dex => [0xCA]
  | .dey => [0x88]
  | .asl o => withOpcode [(.zp, 0x06), (.acc, 0x0A), (.abs, 0x0E), (.zpx, 0x16), (.absx, 0x1E)] o
  | .lsr o => withOpcode [(.zp, 0x46), (.acc, 0x4A), (.abs, 0x4E), (.zpx, 0x56), (.absx, 0x5E)] o
  | .rol o => withOpcode [(.zp, 0x26), (.acc, 0x2A), (.abs, 0x2E), (.zpx, 0x36), (.absx, 0x3E)] o
  | .ror o => withOpcode [(.zp, 0x66), (.acc, 0x6A), (.abs, 0x6E), (.zpx, 0x76), (.absx, 0x7E)] o
  | .jmp (.abs w) => 0x4C :: wordBytes w
  | .jmp (.ind w) => 0x6C :: wordBytes w
  | .jsr w => 0x20 :: wordBytes w
  | .rts => [0x60]
  | .rti => [0x40]
  | .brk => [0x00]
  | .bpl d => [0x10, d]
  | .bmi d => [0x30, d]
  | .bvc d => [0x50, d]
  | .bvs d => [0x70, d]
  | .bcc d => [0x90, d]
  | .bcs d => [0xB0, d]
  | .bne d => [0xD0, d]
  | .beq d => [0xF0, d]
  | .clc => [0x18]
  | .sec => [0x38]
  | .cli => [0x58]
  | .sei => [0x78]
  | .cld => [0xD8]
  | .sed => [0xF8]
  | .clv => [0xB8]
  | .nop => [0xEA]
  | .jam op => [op]
  | .nopImp op => [op]
  | .nopImm op b => [op, b]
  | .nopRead op o => op :: o.bytes
  | .slo o => withOpcode [(.indx, 0x03), (.zp, 0x07), (.abs, 0x0F),
      (.indy, 0x13), (.zpx, 0x17), (.absy, 0x1B), (.absx, 0x1F)] o
  | .rla o => withOpcode [(.indx, 0x23), (.zp, 0x27), (.abs, 0x2F),
      (.indy, 0x33), (.zpx, 0x37), (.absy, 0x3B), (.absx, 0x3F)] o
  | .sre o => withOpcode [(.indx, 0x43), (.zp, 0x47), (.abs, 0x4F),
      (.indy, 0x53), (.zpx, 0x57), (.absy, 0x5B), (.absx, 0x5F)] o
  | .rra o => withOpcode [(.indx, 0x63), (.zp, 0x67), (.abs, 0x6F),
      (.indy, 0x73), (.zpx, 0x77), (.absy, 0x7B), (.absx, 0x7F)] o
  | .sax o => withOpcode [(.indx, 0x83), (.zp, 0x87), (.abs, 0x8F), (.zpy, 0x97)] o
  | .lax o => withOpcode [(.indx, 0xA3), (.zp, 0xA7), (.abs, 0xAF), (.indy, 0xB3), (.zpy, 0xB7), (.absy, 0xBF)] o
  | .dcp o => withOpcode [(.indx, 0xC3), (.zp, 0xC7), (.abs, 0xCF),
      (.indy, 0xD3), (.zpx, 0xD7), (.absy, 0xDB), (.absx, 0xDF)] o
  | .isc o => withOpcode [(.indx, 0xE3), (.zp, 0xE7), (.abs, 0xEF),
      (.indy, 0xF3), (.zpx, 0xF7), (.absy, 0xFB), (.absx, 0xFF)] o
  | .anc op b => [op, b]
  | .alr b => [0x4B, b]
  | .arr b => [0x6B, b]
  | .axs b => [0xCB, b]
  | .usbc b => [0xEB, b]
  | .las w => 0xBB :: wordBytes w
  | .xaa b => [0x8B, b]
  | .lxa b => [0xAB, b]
  | .sha o => withOpcode [(.indy, 0x93), (.absy, 0x9F)] o
  | .shx w => 0x9E :: wordBytes w
  | .shy w => 0x9C :: wordBytes w
  | .tas w => 0x9B :: wordBytes w

/-- The three bytes of a word numbered as spec/opcode_table.json numbers it (`w = b0 | b1<<8 | b2<<16`, R91), every bit
from `nbits` up being 0. -/
def tableBytes (nbits w : Nat) : List Byte :=
  let v := w % 2 ^ nbits
  [BitVec.ofNat 8 v, BitVec.ofNat 8 (v / 0x100), BitVec.ofNat 8 (v / 0x10000)]

/-- The instruction the decoder reads from a table word. -/
def decodeTableWord (nbits w : Nat) : Option Instr :=
  match decode (tableBytes nbits w) with
  | .ok (i, _) => some i
  | .error _ => none

end Sys2Proof
end

