-- ==== Sys2Proof/Config.lean ====
section
/-! DEFINITION. The configuration: the parameters of 00_scope.md R9, and the free values, which the spec leaves open.
A free value is an opaque constant with no body: nothing can evaluate it, so a claim holds whatever it is. The free
values that are drawn anew at each use are functions of the draw counter `State.draws`. -/

namespace Sys2Proof

/-- `IRQ_POLL_I_SOURCE` (60_exceptions.md R307): which `I` the interrupt poll reads. -/
inductive IrqPollISource where
  | current
  | delayed
  deriving DecidableEq, Repr

/-- `SH_UNSTABLE` (43_undocumented.md R270): what `SHA`, `SHX`, `SHY`, `TAS` do when the page is crossed. -/
inductive ShUnstable where
  | formula
  | refuse
  deriving DecidableEq, Repr

/-- The parameters a model takes as arguments (00_scope.md R9). The spec's defaults are `Machine.params`.
`ACCESS_TIMING` is no field: `per_cycle` is named by the spec and not defined by it (70 R383, log 13). -/
structure Params where
  irqPollISource : IrqPollISource
  shUnstable : ShUnstable
  /-- `ENTRY_PC` (70 R376): `none` in normal operation. -/
  entryPc : Option Word
  /-- `DMC_STALL_CYCLES` (60 R343). -/
  dmcStallCycles : Nat
  deriving DecidableEq, Repr

/-- A cell of the picture unit's own space (20_memory.md R74): graphics space through the cartridge, nametable memory
or the palette table. Which one the `$2007` port addresses is not in the spec (log 19). -/
inductive PpuTarget where
  | graphics (offset : BitVec 13)
  | nametable (index : BitVec 12)
  | palette (index : BitVec 5)
  deriving DecidableEq, Repr, Inhabited

namespace Config

/-- `OPEN_BUS` (20_memory.md R62, D7): the byte an undriven address reads as at the n-th draw. Free. -/
opaque openBus : Nat → Byte

/-- `PORT2_READ` (60 R351, D34): what `$4017` reads as. Free. -/
opaque port2Read : Nat → Byte

/-- Bits 7:1 of a `$4016` read (60 R350, D34). Free; bit 0 is not used. -/
opaque padUpperBits : Nat → Byte

/-- `XAA_MAGIC` (43_undocumented.md R268, D20). Free constant. -/
opaque xaaMagic : Byte

/-- `LXA_MAGIC` (43_undocumented.md R269, D20). Free constant. -/
opaque lxaMagic : Byte

/-- The sprite-0 and sprite-overflow flags as the dots worked since they were last known have left them (60 R333): the
pixel pipeline that drives them is outside the block. Free (log 17). -/
opaque spriteFlags : Nat → Bool × Bool

/-- Which cell the data port `$2007` addresses at an access (60 R333, 20_memory.md R74). Free (log 19). -/
opaque ppuTarget : Nat → PpuTarget

/-- What a palette read leaves in the `$2007` read buffer. Free (log 19). -/
opaque paletteBuffer : Nat → Byte

/-- The activity of the audio channels in bits 3:0 of `$4015`, and bit 5 (60 R336). Free (log 22). -/
opaque audioActivity : Nat → Byte

/-- Whether the active sample channel asks for its next byte in a CPU cycle (60 R343). Free (log 25). -/
opaque dmcRequest : Nat → Bool

/-- Whether the sample channel loops its range, as a function of the byte in `$4010` (60 R337). Free (log 26). -/
opaque dmcLoops : Byte → Bool

/-- By how many ticks the n-th 4-step sequence exceeds the earliest length (60 R336, log 23). Free. -/
opaque frameJitter : Nat → Nat

/-- How far the frame sequencer is into its sequence after a write to `$4017` (60 R336, log 24). Free. -/
opaque framePhase : Nat → Nat

end Config

end Sys2Proof
end

