-- ==== Sys2Proof/Machine/State.lean ====
section
/-! DEFINITION. The state of the machine: everything the spec gives it (10_state.md, 20_memory.md, 60_exceptions.md),
as plain data, the two reasons a step can stop, and the state right after reset. -/

namespace Sys2Proof.Machine

/-- A memory: its cells by rising address, no cell listed that holds what an unlisted address reads as
(`Memory.unlisted`; log 1). -/
abbrev Memory := List Host.Cell

/-- The six stored flags of `P` (10_state.md R26). Break-marker and unused-1 are not storage (R30). -/
structure Flags where
  c : Bool
  z : Bool
  i : Bool
  d : Bool
  v : Bool
  n : Bool
  deriving DecidableEq, Repr

/-- The picture unit as far as the spec gives it (60_exceptions.md R333 to R335, 20_memory.md R74). -/
structure Ppu where
  /-- 0 to 261 (R334) -/
  scanline : Nat
  /-- 0 to 340 (R334) -/
  dot : Nat
  /-- frames begun since reset; odd frames are one dot shorter (R335) -/
  frame : Nat
  /-- `$2000`: bit 7 enables the NMI output (R333) -/
  ctrl : Byte
  /-- `$2001` -/
  mask : Byte
  /-- the video-blank flag, status bit 7 -/
  blank : Bool
  /-- the sprite-0 flag, status bit 6 -/
  sprite0 : Bool
  /-- the sprite-overflow flag, status bit 5 -/
  overflow : Bool
  /-- the model's own: no dot has been worked since the two sprite flags were reset or read, so they are what the fields
  hold; else they are free (log 17) -/
  spritesKnown : Bool
  /-- the write toggle of `$2005` and `$2006` -/
  toggle : Bool
  /-- first and second byte written to `$2005` -/
  scroll1 : Byte
  scroll2 : Byte
  /-- first and second byte written to `$2006` -/
  addr1 : Byte
  addr2 : Byte
  /-- the OAM address, `$2003` -/
  oamAddr : Byte
  /-- OAM, 256 bytes -/
  oam : Memory
  /-- the one-byte buffer of `$2007` reads -/
  readBuffer : Byte
  /-- nametable memory, up to 4 KB (R74) -/
  nametable : Memory
  /-- the 32-entry palette table (R74), a byte an entry (log 36) -/
  palette : Memory
  deriving DecidableEq, Repr

/-- The audio unit as far as the spec gives it (60_exceptions.md R336, R337). -/
structure Apu where
  /-- the bytes last written to `$4000` to `$4013`, by their low five address bits -/
  regs : Memory
  /-- the channel enables, `$4015` bits 4:0 as written -/
  enable : BitVec 5
  /-- `$4017` bit 7: the 5-step mode -/
  fiveStep : Bool
  /-- `$4017` bit 6: the interrupt inhibit -/
  inhibit : Bool
  /-- the frame interrupt flag -/
  frameIrq : Bool
  /-- the sample interrupt flag -/
  dmcIrq : Bool
  /-- audio ticks since the current 4-step sequence began -/
  frameTicks : Nat
  /-- 4-step sequences completed; it only selects a free value (log 23) -/
  frameCount : Nat
  /-- the address of the sample channel's next fetch -/
  dmcAddr : Word
  /-- sample bytes still to fetch; the channel is active while it is not 0 -/
  dmcRemaining : Nat
  /-- the byte last fetched -/
  dmcBuffer : Byte
  deriving DecidableEq, Repr

/-- Controller port 1 (60_exceptions.md R350). -/
structure Pad where
  /-- the live button state, an input of the host (R352) -/
  buttons : Byte
  strobe : Bool
  shift : Byte
  deriving DecidableEq, Repr

/-- The two supported mappers (60_exceptions.md R345, R346). -/
inductive MapperKind where
  | fixed
  | shiftRegister
  deriving DecidableEq, Repr

/-- The mirroring modes (60_exceptions.md R346, R349). -/
inductive Mirroring where
  | singleLower
  | singleUpper
  | vertical
  | horizontal
  | fourScreen
  deriving DecidableEq, Repr

/-- The cartridge: what the image fixes (60_exceptions.md R348), its memories, and the mapper's registers (R346). -/
structure Cart where
  mapper : MapperKind
  /-- 16 KB program banks, header byte 4 -/
  prgBanks : Nat
  /-- 8 KB graphics-ROM banks, header byte 5; 0 means 8 KB of graphics RAM -/
  chrBanks : Nat
  /-- header byte 6 bit 1 -/
  battery : Bool
  /-- the header's mirroring (R349) -/
  mirroring : Mirroring
  /-- program ROM, bank after bank -/
  prgRom : Memory
  /-- 8 KB of program RAM at `$6000` -/
  prgRam : Memory
  /-- graphics ROM bank after bank, or graphics RAM -/
  chr : Memory
  /-- the 5-bit serial accumulator and how many bits it holds -/
  shift : BitVec 5
  count : Nat
  control : BitVec 5
  chr0 : BitVec 5
  chr1 : BitVec 5
  prg : BitVec 5
  /-- `control` has been committed since reset, so that it gives the mirroring (R349) -/
  controlCommitted : Bool
  deriving DecidableEq, Repr

/-- The whole machine. -/
structure State where
  /-- accumulator (10_state.md R21) -/
  a : Byte
  /-- index register X (R22) -/
  x : Byte
  /-- index register Y (R23) -/
  y : Byte
  /-- stack pointer into page `$01` (R24) -/
  sp : Byte
  /-- program counter (R25) -/
  pc : Word
  /-- status register (R26) -/
  p : Flags
  /-- a non-maskable request is latched (R39) -/
  nmiPending : Bool
  /-- the previous sample of the NMI input (R39) -/
  nmiPrev : Bool
  /-- the maskable request level as last sampled (R42) -/
  irqLine : Bool
  /-- the `I` a delayed poll reads, kept under `IRQ_POLL_I_SOURCE = delayed` (60 R307) -/
  iPoll : Bool
  /-- a jam opcode has run (R40) -/
  halted : Bool
  /-- the model-only mark of a refused step (70 R381) -/
  refused : Bool
  /-- elapsed CPU cycles (R41) -/
  cyc : Nat
  /-- DMA stall cycles of the current step (R42) -/
  stall : Nat
  /-- `cycles` of the current step, entry and instruction without the stall (70 R380; log 9) -/
  stepCycles : Nat
  /-- the byte written to `$4014` in the current step (70 R380 item 4; log 9) -/
  oamDma : Option Byte
  /-- the 2,048 bytes of work RAM (20_memory.md R57) -/
  ram : Memory
  ppu : Ppu
  apu : Apu
  pad : Pad
  cart : Cart
  /-- the model's own field: how many free values have been drawn (log 8) -/
  draws : Nat
  deriving DecidableEq, Repr

/-- The reasons a step can stop with a fault: none. "The CPU has no synchronous exception. No instruction faults"
(60_exceptions.md R300), so the type is empty and no step can fault. Safe: nothing is left out by it. -/
inductive Fault where
  deriving DecidableEq, Repr

/-- The reasons a step is refused. -/
inductive Refusal where
  /-- Raised by `exec` for an instruction that has no meaning yet; no arm of `exec` raises it. Safe. -/
  | notModelled (mnemonic : String)
  /-- `DummyAccessSideEffect`, raised by the step when a dummy access of the silicon would have a side effect
  (20_memory.md R65, 70 R381). Safe: the spec gives such a step no other outcome. -/
  | dummyAccessSideEffect
  /-- `JsrOperandOverwritten`, raised by the step for a `JSR` whose pushes overwrite its own third byte
  (42_control_flag.md R212). Safe. -/
  | jsrOperandOverwritten
  /-- `UnstableOpcode`, raised by the step under `SH_UNSTABLE = refuse` (43_undocumented.md R270). Safe. -/
  | unstableOpcode
  /-- `Sticky`, raised by every step after a refused one until reset (70 R381). Safe. -/
  | sticky
  deriving DecidableEq, Repr

/-- The outcome of one instruction or one step. -/
abbrev Result := Host.Outcome State Fault Refusal

/-- The flags after reset: `I` set, every other flag clear (10_state.md R26). -/
def Flags.reset : Flags := ⟨false, false, true, false, false, false⟩

/-- The picture unit after reset (70 R374); registers the spec gives no value are 0 (log 4), its memories list nothing
(log 1). -/
def Ppu.reset : Ppu where
  scanline := 0
  dot := 0
  frame := 0
  ctrl := 0
  mask := 0
  blank := false
  sprite0 := false
  overflow := false
  spritesKnown := true
  toggle := false
  scroll1 := 0
  scroll2 := 0
  addr1 := 0
  addr2 := 0
  oamAddr := 0
  oam := []
  readBuffer := 0
  nametable := []
  palette := []

/-- The audio unit after reset (70 R374): every channel disabled, 4-step mode, inhibit 0, flags 0. -/
def Apu.reset : Apu where
  regs := []
  enable := 0
  fiveStep := false
  inhibit := false
  frameIrq := false
  dmcIrq := false
  frameTicks := 0
  frameCount := 0
  dmcAddr := 0
  dmcRemaining := 0
  dmcBuffer := 0

/-- The blank cartridge of `State.reset` (log 2), its mapper in the reset state of 60 R346: one bank of program ROM with
nothing listed, graphics RAM, horizontal mirroring. -/
def Cart.blank : Cart where
  mapper := .fixed
  prgBanks := 1
  chrBanks := 0
  battery := false
  mirroring := .horizontal
  prgRom := []
  prgRam := []
  chr := []
  shift := 0
  count := 0
  control := 0x0C
  chr0 := 0
  chr1 := 0
  prg := 0
  controlCommitted := false

/-- The machine right after reset (10_state.md R44, 70 R371), with the blank cartridge of log 2, whose vector word at
`$FFFC` is `$0000`. -/
def State.reset : State where
  a := 0
  x := 0
  y := 0
  sp := 0xFD
  pc := 0x0000
  p := Flags.reset
  nmiPending := false
  nmiPrev := false
  irqLine := false
  iPoll := true
  halted := false
  refused := false
  cyc := 7
  stall := 0
  stepCycles := 0
  oamDma := none
  ram := []
  ppu := Ppu.reset
  apu := Apu.reset
  pad := ⟨0, false, 0⟩
  cart := Cart.blank
  draws := 0

end Sys2Proof.Machine
end

