-- ==== Sys2Proof/Machine/Memory.lean ====
section
/-! DEFINITION. Memories as canonical lists of cells: reading, writing, and the canonical form. -/

namespace Sys2Proof.Machine

/-- What a cell that is not listed reads as (log 1). -/
def Memory.unlisted : Byte := 0

/-- The byte at an address. -/
def Memory.get : Memory → Nat → Byte
  | [], _ => Memory.unlisted
  | (b, w) :: m, a => if a = b then w else Memory.get m a

/-- A cell in front of a memory, listed only if it holds something else than an unlisted one. -/
def Memory.cons (a : Nat) (v : Byte) (m : Memory) : Memory :=
  if v = Memory.unlisted then m else (a, v) :: m

/-- Writing a byte; the form stays canonical. -/
def Memory.set : Memory → Nat → Byte → Memory
  | [], a, v => Memory.cons a v []
  | (b, w) :: m, a, v =>
    if a < b then Memory.cons a v ((b, w) :: m)
    else if a = b then Memory.cons a v m
    else (b, w) :: Memory.set m a v

/-- The canonical form above a lower bound and below a size: addresses strictly rising, no cell that reads as an
unlisted one. -/
def Memory.wfFrom (size : Nat) : Nat → Memory → Bool
  | _, [] => true
  | lo, (a, v) :: m => decide (lo ≤ a) && decide (a < size) && v != Memory.unlisted && Memory.wfFrom size (a + 1) m

/-- A memory of `size` cells in canonical form. -/
def Memory.wf (size : Nat) (m : Memory) : Bool := Memory.wfFrom size 0 m

/-- The memory whose cells from `a` on are the listed bytes. -/
def Memory.ofBytesFrom (a : Nat) : List Byte → Memory
  | [] => []
  | v :: vs => Memory.cons a v (Memory.ofBytesFrom (a + 1) vs)

end Sys2Proof.Machine
end

