-- ==== Sys2Proof/Machine/Cartridge.lean ====
section
/-! DEFINITION. The cartridge: program and graphics windows of the two mappers (60_exceptions.md R345 to R347), the
mapper's writes (R346), mirroring (R349), and the image a host loads (R348). -/

namespace Sys2Proof.Machine

/-- Bits 3:2 of `control`: the program mode (R346). -/
def Cart.prgMode (c : Cart) : Nat := (c.control.extractLsb' 2 2).toNat

/-- The 16 KB bank at `$8000` (`upper = false`) or `$C000` (`upper = true`), before reduction: banks 0 and 1 of the fixed
mapping (R345); the three program modes of the shift-register variant, which use `prg[3:0]` (R346, D22). -/
def Cart.prgBank (c : Cart) (upper : Bool) : Nat :=
  let prg := (c.prg.extractLsb' 0 4).toNat
  match c.mapper, c.prgMode, upper with
  | .fixed, _, false => 0
  | .fixed, _, true => 1
  | .shiftRegister, 3, false => prg
  | .shiftRegister, 3, true => c.prgBanks - 1
  | .shiftRegister, 2, false => 0
  | .shiftRegister, 2, true => prg
  | .shiftRegister, _, upper =>
    -- one 32 KB bank `prg >> 1`, reduced in units of 32 KB (R347, log 27)
    2 * ((prg / 2) % max 1 (c.prgBanks / 2)) + upper.toNat

/-- The offset in program ROM that an address of `$8000` to `$FFFF` reads; the bank index is reduced modulo the banks
present (R347). -/
def Cart.prgOffset (c : Cart) (a : Word) : Nat :=
  (c.prgBank (a.getLsbD 14) % c.prgBanks) * 0x4000 + a.toNat % 0x4000

/-- The offset in program RAM of an address of `$6000` to `$7FFF` (20_memory.md R60). -/
def prgRamOffset (a : Word) : Nat := a.toNat % 0x2000

/-- Bytes of graphics memory: 8 KB banks, or 8 KB of graphics RAM (R348, D39). -/
def Cart.chrSize (c : Cart) : Nat := 0x2000 * max 1 c.chrBanks

/-- The cell of graphics memory behind an offset in the 8 KB graphics window: bank 0 of the fixed mapping, however many
banks there are (R345; log 27); one 8 KB bank `chr0 >> 1` or two 4 KB banks `chr0`, `chr1` of the shift-register variant
(R346), reduced modulo the banks present (R347). -/
def Cart.chrOffset (c : Cart) (off : BitVec 13) : Nat :=
  match c.mapper, c.control.getLsbD 4 with
  | .fixed, _ => off.toNat
  | .shiftRegister, false => ((c.chr0.toNat / 2) % (c.chrSize / 0x2000)) * 0x2000 + off.toNat
  | .shiftRegister, true =>
    let bank := if off.getLsbD 12 then c.chr1 else c.chr0
    (bank.toNat % (c.chrSize / 0x1000)) * 0x1000 + off.toNat % 0x1000

/-- The picture unit's read of graphics space. -/
def Cart.chrRead (c : Cart) (off : BitVec 13) : Byte := c.chr.get (c.chrOffset off)

/-- The picture unit's write to graphics space: RAM takes it, ROM discards it (20_memory.md R63). -/
def Cart.chrWrite (c : Cart) (off : BitVec 13) (v : Byte) : Cart :=
  if c.chrBanks = 0 then { c with chr := c.chr.set (c.chrOffset off) v } else c

/-- The commit of the fifth bit: `a[14:13]` selects the register (R346). -/
def Cart.commit (c : Cart) (a : Word) (v : BitVec 5) : Cart :=
  let c := { c with shift := 0, count := 0 }
  match a.getLsbD 14, a.getLsbD 13 with
  | false, false => { c with control := v, controlCommitted := true }
  | false, true => { c with chr0 := v }
  | true, false => { c with chr1 := v }
  | true, true => { c with prg := v }

/-- A CPU write of `v` at `a` in `$8000` to `$FFFF`: discarded by the fixed mapping (R345), a serial write of the
shift-register variant (R346). -/
def Cart.mapperWrite (c : Cart) (a : Word) (v : Byte) : Cart :=
  match c.mapper with
  | .fixed => c
  | .shiftRegister =>
    if v.getLsbD 7 then { c with shift := 0, count := 0, control := c.control ||| 0x0C }
    else
      let shift := c.shift ||| ((v.extractLsb' 0 1).setWidth 5 <<< c.count)
      if c.count + 1 = 5 then c.commit a shift else { c with shift := shift, count := c.count + 1 }

/-- The mirroring in force (R349): the header's, or `control[1:0]` once the shift-register variant has committed
`control`. -/
def Cart.mirroringMode (c : Cart) : Mirroring :=
  match c.mapper, c.controlCommitted with
  | .shiftRegister, true =>
    match c.control.getLsbD 1, c.control.getLsbD 0 with
    | false, false => .singleLower
    | false, true => .singleUpper
    | true, false => .vertical
    | true, true => .horizontal
  | _, _ => c.mirroring

/-- The mapper's registers in their reset state (R346, D38). -/
def Cart.resetMapper (c : Cart) : Cart :=
  { c with shift := 0, count := 0, control := 0x0C, chr0 := 0, chr1 := 0, prg := 0, controlCommitted := false }

/-- Why an image is no cartridge (R348, D39). -/
inductive LoadError where
  | badMagic
  | truncatedBody
  | unsupportedMapper
  | noProgramBanks
  deriving DecidableEq, Repr

/-- The mapper of an id: 0 and 1 are supported (R348). -/
def mapperOfId (id : Byte) : Option MapperKind :=
  if id = 0 then some .fixed else if id = 1 then some .shiftRegister else none

/-- The header's mirroring: four-screen override, else vertical, else horizontal (R349). -/
def headerMirroring (flags6 : Byte) : Mirroring :=
  if flags6.getLsbD 3 then .fourScreen else if flags6.getLsbD 0 then .vertical else .horizontal

/-- The cartridge of a header and a body; a trainer of 512 bytes is skipped (R348, D39). Where several failures hold, the
one reported is the first of: unsupported mapper, no program bank, truncated body (log 39). -/
def Cart.ofParts (prgBanks chrBanks flags6 flags7 : Byte) (body : List Byte) : Except LoadError Cart :=
  let body := if flags6.getLsbD 2 then body.drop 512 else body
  let prgSize := 0x4000 * prgBanks.toNat
  let chrSize := 0x2000 * chrBanks.toNat
  match mapperOfId ((flags7 &&& 0xF0) ||| (flags6 >>> 4)) with
  | none => .error .unsupportedMapper
  | some mapper =>
    if prgBanks = 0 then .error .noProgramBanks
    else if body.length < prgSize + chrSize then .error .truncatedBody
    else .ok { Cart.blank with
      mapper := mapper
      prgBanks := prgBanks.toNat
      chrBanks := chrBanks.toNat
      battery := flags6.getLsbD 1
      mirroring := headerMirroring flags6
      prgRom := Memory.ofBytesFrom 0 (body.take prgSize)
      chr := Memory.ofBytesFrom 0 ((body.drop prgSize).take chrSize) }

/-- `load(image)` (R348, 70 R391): the 16-byte header and the body. An image shorter than its header is truncated, whatever
its bytes; then the magic is looked at, before the failures of `Cart.ofParts` (log 39). -/
def Cart.load (image : List Byte) : Except LoadError Cart :=
  match image with
  | m0 :: m1 :: m2 :: m3 :: prgBanks :: chrBanks :: flags6 :: flags7 ::
      _ :: _ :: _ :: _ :: _ :: _ :: _ :: _ :: body =>
    if m0 = 0x4E && m1 = 0x45 && m2 = 0x53 && m3 = 0x1A then Cart.ofParts prgBanks chrBanks flags6 flags7 body
    else .error .badMagic
  | _ => .error .truncatedBody

end Sys2Proof.Machine
end

