-- ==== Sys2Proof/Machine/Picture.lean ====
section
/-! DEFINITION. The picture unit at the CPU's interface: its eight registers (60_exceptions.md R333), its own memories
behind `$2004` and `$2007` (20_memory.md R74), and its dot counter (60 R334, R335, D40). -/

namespace Sys2Proof.Machine

/-- The NMI output: `blank_flag & nmi_enable` (R333). -/
def Ppu.nmiOut (u : Ppu) : Bool := u.blank && u.ctrl.getLsbD 7

/-- One dot of the counter: to dot 0 of the next scanline after dot 340, to the next frame after scanline 261, whose
dot 339 is the last of an odd frame (R334, R335). -/
def Ppu.advance (u : Ppu) : Ppu :=
  let last := if u.scanline = 261 ∧ u.frame % 2 = 1 then 339 else 340
  if u.dot < last then { u with dot := u.dot + 1 }
  else if u.scanline < 261 then { u with dot := 0, scanline := u.scanline + 1 }
  else { u with dot := 0, scanline := 0, frame := u.frame + 1 }

/-- The work of the dot the counter shows: the blank flag is set at (241, 1) and cleared at (261, 1) (R334); the pixel
pipeline may move the sprite flags (log 17). -/
def Ppu.work (u : Ppu) : Ppu :=
  { u with
    blank := if u.scanline = 241 ∧ u.dot = 1 then true
             else if u.scanline = 261 ∧ u.dot = 1 then false else u.blank
    spritesKnown := false }

/-- `ppu_tick`: the work of the shown dot, then the advance (D40). -/
def Ppu.tick (u : Ppu) : Ppu := u.work.advance

/-- A byte from flags and a remainder: the status register's bits 7, 6, 5 over five undriven bits. -/
def statusByte (blank sprite0 overflow : Bool) (low : Byte) : Byte :=
  BitVec.ofBool blank ++ BitVec.ofBool sprite0 ++ BitVec.ofBool overflow ++ low.extractLsb' 0 5

/-- An undriven read: the next draw of `OPEN_BUS` (20_memory.md R62). -/
def readOpenBus (s : State) : Byte × State :=
  (Config.openBus s.draws, { s with draws := s.draws + 1 })

/-- The sprite flags a status read finds: the ones held if no dot has been worked since they were reset or read, else what
the pixel pipeline has left, which the spec does not give (log 17). -/
def State.spriteFlags (s : State) : Bool × Bool :=
  if s.ppu.spritesKnown then (s.ppu.sprite0, s.ppu.overflow) else Config.spriteFlags s.draws

/-- A read of `$2002`: the three flags over five undriven bits; it clears the blank flag and resets the write toggle
(R333). -/
def readPpuStatus (s : State) : Byte × State :=
  let flags := s.spriteFlags
  (statusByte s.ppu.blank flags.1 flags.2 (Config.openBus s.draws),
    { s with
      ppu := { s.ppu with
        blank := false, toggle := false, sprite0 := flags.1, overflow := flags.2, spritesKnown := true }
      draws := s.draws + 1 })

/-- What a cell of the picture unit's own space holds. -/
def State.ppuCell (s : State) : PpuTarget → Byte
  | .graphics off => s.cart.chrRead off
  | .nametable i => s.ppu.nametable.get i.toNat
  | .palette i => s.ppu.palette.get i.toNat

/-- A write to a cell of the picture unit's own space. A palette entry keeps all eight bits of the byte: the spec gives
no width of an entry (log 36). -/
def State.setPpuCell (s : State) (t : PpuTarget) (v : Byte) : State :=
  match t with
  | .graphics off => { s with cart := s.cart.chrWrite off v }
  | .nametable i => { s with ppu := { s.ppu with nametable := s.ppu.nametable.set i.toNat v } }
  | .palette i => { s with ppu := { s.ppu with palette := s.ppu.palette.set i.toNat v } }

/-- A read of `$2007`: buffered by one byte below the palette range (R333). The cell is a free value (log 19); a palette
read gives the entry's eight bits (log 36). -/
def readPpuData (s : State) : Byte × State :=
  let t := Config.ppuTarget s.draws
  let v := s.ppuCell t
  let next : Byte × Byte := match t with
    | .palette _ => (v, Config.paletteBuffer s.draws)
    | .graphics _ | .nametable _ => (s.ppu.readBuffer, v)
  (next.1, { s with ppu := { s.ppu with readBuffer := next.2 }, draws := s.draws + 1 })

/-- A write of `$2007`: to the cell the port addresses, a free value (log 19). -/
def writePpuData (v : Byte) (s : State) : State :=
  let s' := s.setPpuCell (Config.ppuTarget s.draws) v
  { s' with draws := s.draws + 1 }

/-- A read of picture-unit register `a & 7` (20_memory.md R58, 60 R333): `$2002` status, `$2004` OAM data, `$2007`
data. The write-only ones read as open bus (20 R62); that these are the other five, `$2000`, `$2001`, `$2003`, `$2005` and
`$2006`, is PRESUMED, since the rules name no register (log 40). -/
def readPpu (a : Word) (s : State) : Byte × State :=
  match (a.extractLsb' 0 3).toNat with
  | 2 => readPpuStatus s
  | 4 => (s.ppu.oam.get s.ppu.oamAddr.toNat, s)
  | 7 => readPpuData s
  | _ => readOpenBus s

/-- A write to `$2005`: the first or second byte by the write toggle (R333). -/
def Ppu.writeScroll (u : Ppu) (v : Byte) : Ppu :=
  if u.toggle then { u with scroll2 := v, toggle := false } else { u with scroll1 := v, toggle := true }

/-- A write to `$2006`: the first or second byte by the write toggle (R333). -/
def Ppu.writeAddr (u : Ppu) (v : Byte) : Ppu :=
  if u.toggle then { u with addr2 := v, toggle := false } else { u with addr1 := v, toggle := true }

/-- A write to `$2004`: the OAM byte at the OAM address, which moves on by one (R342; log 18). -/
def Ppu.writeOam (u : Ppu) (v : Byte) : Ppu :=
  { u with oam := u.oam.set u.oamAddr.toNat v, oamAddr := u.oamAddr + 1 }

/-- A write to picture-unit register `a & 7` (20_memory.md R58, 60 R333). That `$2002` is read-only, so that
a write to it changes nothing, is DEDUCED: R333 gives it no written role (log 20). -/
def writePpu (a : Word) (v : Byte) (s : State) : State :=
  match (a.extractLsb' 0 3).toNat with
  | 0 => { s with ppu := { s.ppu with ctrl := v } }
  | 1 => { s with ppu := { s.ppu with mask := v } }
  | 2 => s
  | 3 => { s with ppu := { s.ppu with oamAddr := v } }
  | 4 => { s with ppu := s.ppu.writeOam v }
  | 5 => { s with ppu := s.ppu.writeScroll v }
  | 6 => { s with ppu := s.ppu.writeAddr v }
  | _ => writePpuData v s

end Sys2Proof.Machine
end

