-- ==== Sys2Proof/Machine/Audio.lean ====
section
/-! DEFINITION. The audio unit at the CPU's interface (60_exceptions.md R336, R337): its registers, the frame sequencer's
interrupt, and the sample channel's fetch address, length and interrupt. -/

namespace Sys2Proof.Machine

/-- The audio unit's interrupt request: `frame_irq | dmc_irq` (60 R302, D27). -/
def Apu.irqOut (u : Apu) : Bool := u.frameIrq || u.dmcIrq

/-- The least number of audio ticks after which a 4-step sequence can end (log 23). -/
def frameEarliest : Nat := 14500

/-- How many ends of a 4-step sequence are allowed, from the earliest on: "about every 29,830 CPU cycles" is read as 29,000
to 30,660 CPU cycles (R336; log 23). -/
def frameSlack : Nat := 831

/-- One audio tick of the frame sequencer: the 4-step cycle raises the frame interrupt at its last step unless
inhibited, the 5-step cycle never does (R336). When the last step falls is free within the window (log 23). -/
def Apu.tick (u : Apu) : Apu :=
  if u.fiveStep || u.inhibit then u
  else if u.frameTicks + 1 < frameEarliest then { u with frameTicks := u.frameTicks + 1 }
  else if frameEarliest + Config.frameJitter u.frameCount % frameSlack ≤ u.frameTicks + 1 then
    { u with frameTicks := 0, frameCount := u.frameCount + 1, frameIrq := true }
  else { u with frameTicks := u.frameTicks + 1 }

/-- `$C000 + 64 × $4012` (R337). -/
def Apu.sampleStart (u : Apu) : Word :=
  0xC000 + BitVec.ofNat 16 (64 * (Memory.get u.regs 0x12).toNat)

/-- `16 × $4013 + 1` bytes (R337). -/
def Apu.sampleLength (u : Apu) : Nat := 16 * (Memory.get u.regs 0x13).toNat + 1

/-- The sample begins anew. -/
def Apu.startSample (u : Apu) : Apu := { u with dmcAddr := u.sampleStart, dmcRemaining := u.sampleLength }

/-- The sample channel takes a fetched byte: the address moves on, from `$FFFF` to `$8000`; after the last byte the
sample loops (log 26) or the interrupt is raised if `$4010` bit 7 enables it (R337). The enable is looked at here only,
so clearing it later does not withdraw the interrupt (log 37); a loop takes its range from `$4012` and `$4013` as they
are at the restart (log 38). -/
def Apu.takeSample (u : Apu) (v : Byte) : Apu :=
  let u := { u with
    dmcBuffer := v
    dmcAddr := if u.dmcAddr = 0xFFFF then 0x8000 else u.dmcAddr + 1
    dmcRemaining := u.dmcRemaining - 1 }
  let mode := Memory.get u.regs 0x10
  if u.dmcRemaining ≠ 0 then u
  else if Config.dmcLoops mode then u.startSample
  else { u with dmcIrq := u.dmcIrq || mode.getLsbD 7 }

/-- A write to `$4000` to `$4013`: a channel register (20_memory.md R59). -/
def Apu.writeReg (u : Apu) (a : Word) (v : Byte) : Apu :=
  { u with regs := u.regs.set (a.toNat % 0x20) v }

/-- A write to `$4015`: the channel enables; it clears the sample interrupt flag (R337). The enables are in the order of
the activity bits, so bit 4 is the sample channel: clear stops it, set starts it when it is not playing (log 21). -/
def Apu.writeEnable (u : Apu) (v : Byte) : Apu :=
  let u := { u with enable := v.extractLsb' 0 5, dmcIrq := false }
  if v.getLsbD 4 then (if u.dmcRemaining = 0 then u.startSample else u)
  else { u with dmcRemaining := 0 }

/-- A read of `$4015`: sample and frame interrupt flags in bits 7 and 6, channel activity in bits 4:0; it clears the
frame interrupt flag (R336). A disabled channel is not active; the sample channel is active while bytes remain; the
rest is free (log 22). -/
def readApuStatus (s : State) : Byte × State :=
  let u := s.apu
  let draw := Config.audioActivity s.draws
  let sample : Bool := u.dmcRemaining ≠ 0
  (BitVec.ofBool u.dmcIrq ++ BitVec.ofBool u.frameIrq ++ draw.extractLsb' 5 1 ++ BitVec.ofBool sample ++
      (draw.extractLsb' 0 4 &&& u.enable.extractLsb' 0 4),
    { s with apu := { u with frameIrq := false }, draws := s.draws + 1 })

/-- A write to `$4017`: bit 7 the 5-step mode, bit 6 the inhibit, which clears the frame interrupt flag (R336). Where the
write leaves the sequencer in its sequence is free (log 24). -/
def writeFrameControl (v : Byte) (s : State) : State :=
  let u := s.apu
  if v.getLsbD 7 || v.getLsbD 6 then
    { s with apu := { u with
        fiveStep := v.getLsbD 7, inhibit := v.getLsbD 6, frameTicks := 0
        frameIrq := u.frameIrq && !v.getLsbD 6 } }
  else
    { s with
      apu := { u with
        fiveStep := false, inhibit := false
        frameTicks := Config.framePhase s.draws % (frameEarliest + frameSlack) }
      draws := s.draws + 1 }

end Sys2Proof.Machine
end

