-- ==== Sys2Proof/Machine/Controller.lean ====
section
/-! DEFINITION. Controller port 1 (60_exceptions.md R350 to R352). -/

namespace Sys2Proof.Machine

/-- A write to `$4016`: `strobe <- v[0]`; from 1 to 0 the button state is latched (R350). -/
def Pad.write (d : Pad) (v : Byte) : Pad :=
  { d with
    strobe := v.getLsbD 0
    shift := if d.strobe && !v.getLsbD 0 then d.buttons else d.shift }

/-- Bit 0 of a `$4016` read: the live first button while the strobe is 1, else bit 0 of the register (R350). -/
def Pad.bit (d : Pad) : Bool := if d.strobe then d.buttons.getLsbD 0 else d.shift.getLsbD 0

/-- The register after a `$4016` read: unless the strobe is 1, shifted right with a 1 shifted in (R350). -/
def Pad.afterRead (d : Pad) : Pad :=
  if d.strobe then d else { d with shift := (d.shift >>> 1) ||| 0x80 }

/-- A read of `$4016`; bits 7:1 are a draw (D34). -/
def readPad (s : State) : Byte × State :=
  ((Config.padUpperBits s.draws).extractLsb' 1 7 ++ BitVec.ofBool s.pad.bit,
    { s with pad := s.pad.afterRead, draws := s.draws + 1 })

/-- A read of `$4017`: `PORT2_READ`, a draw (R351). -/
def readPort2 (s : State) : Byte × State :=
  (Config.port2Read s.draws, { s with draws := s.draws + 1 })

/-- The host's `set_buttons` (70 R391): the live button state, between steps (R352). -/
def State.setButtons (s : State) (b : Byte) : State := { s with pad := { s.pad with buttons := b } }

end Sys2Proof.Machine
end

