-- ==== Sys2Proof/Machine/Bus.lean ====
section
/-! DEFINITION. The Bus: the address decode of 20_memory.md R56, and the one-byte read and write of 00_scope.md R11. -/

namespace Sys2Proof.Machine

/-- The work-RAM cell of an address below `$2000` (20_memory.md R57). -/
def ramCell (a : Word) : Nat := a.toNat % 0x800

/-- The byte a storage address holds: work RAM, program RAM, or program ROM through the mapper; `none` at a device
register or an address nothing drives. -/
def State.peek (s : State) (a : Word) : Option Byte :=
  if a.toNat < 0x2000 then some (s.ram.get (ramCell a))
  else if a.toNat < 0x6000 then none
  else if a.toNat < 0x8000 then some (s.cart.prgRam.get (prgRamOffset a))
  else some (s.cart.prgRom.get (s.cart.prgOffset a))

/-- A read in `$2000` to `$5FFF`: the picture unit, `$4015`, the controller ports, and open bus elsewhere (20 R56, R62). -/
def readDevice (a : Word) (s : State) : Byte × State :=
  if a.toNat < 0x4000 then readPpu a s
  else if a.toNat = 0x4015 then readApuStatus s
  else if a.toNat = 0x4016 then readPad s
  else if a.toNat = 0x4017 then readPort2 s
  else readOpenBus s

/-- `MemRead(a, 1)` (00_scope.md R11): storage has no side effect, a device has its own (20 R61). -/
def busRead (a : Word) (s : State) : Byte × State :=
  match s.peek a with
  | some v => (v, s)
  | none => readDevice a s

/-- A write in `$2000` to `$5FFF`: the picture unit, the audio registers, the sprite-DMA trigger (60 R340), the controller
strobe, the frame sequencer; nothing at `$4018` to `$5FFF` (D33). -/
def writeDevice (a : Word) (v : Byte) (s : State) : State :=
  if a.toNat < 0x4000 then writePpu a v s
  else if a.toNat < 0x4014 then { s with apu := s.apu.writeReg a v }
  else if a.toNat = 0x4014 then { s with oamDma := some v }
  else if a.toNat = 0x4015 then { s with apu := s.apu.writeEnable v }
  else if a.toNat = 0x4016 then { s with pad := s.pad.write v }
  else if a.toNat = 0x4017 then writeFrameControl v s
  else s

/-- `MemWrite(a, 1, v)` (00_scope.md R11). -/
def busWrite (a : Word) (v : Byte) (s : State) : State :=
  if a.toNat < 0x2000 then { s with ram := s.ram.set (ramCell a) v }
  else if a.toNat < 0x6000 then writeDevice a v s
  else if a.toNat < 0x8000 then { s with cart := { s.cart with prgRam := s.cart.prgRam.set (prgRamOffset a) v } }
  else { s with cart := s.cart.mapperWrite a v }

/-- The addresses whose read has a side effect, `SE_read` (20_memory.md R61). -/
def seRead (a : Word) : Bool :=
  (decide (0x2000 ≤ a.toNat) && decide (a.toNat < 0x4000) &&
    (a.extractLsb' 0 3 == 2 || a.extractLsb' 0 3 == 7)) ||
  decide (0x4015 ≤ a.toNat) && decide (a.toNat ≤ 0x4017)

/-- The addresses whose write has a side effect, `SE_write` (20_memory.md R61): `$2000` to `$4017`, and `MapperRegs`. -/
def seWrite (c : Cart) (a : Word) : Bool :=
  (decide (0x2000 ≤ a.toNat) && decide (a.toNat ≤ 0x4017)) ||
  (c.mapper == .shiftRegister && decide (0x8000 ≤ a.toNat))

end Sys2Proof.Machine
end

