-- ==== Sys2Proof/Machine/Ops.lean ====
section
/-! DEFINITION. The named operations over registers and memory (00_scope.md R11): register writes, 16-bit reads, the
stack, the image of `P`, taking an interrupt and returning from one, the cycle count, and the halt. -/

namespace Sys2Proof.Machine

/-- The parameters at the spec's defaults (00_scope.md R9; log 12): what `step` runs with. -/
def params : Params where
  irqPollISource := .current
  shUnstable := .formula
  entryPc := none
  dmcStallCycles := 4

/-- `RESET_SP` (00_scope.md R9). -/
def resetSp : Byte := 0xFD

/-- `RESET_CYCLES` (70 R372). -/
def resetCycles : Nat := 7

/-- `JAM_CYCLES` (43_undocumented.md R250). -/
def jamCycles : Nat := 2

/-- `VEC_NMI` (60 R301). -/
def vecNmi : Word := 0xFFFA

/-- `VEC_RESET` (60 R301). -/
def vecReset : Word := 0xFFFC

/-- `VEC_IRQ`, shared by IRQ and `BRK` (60 R301). -/
def vecIrq : Word := 0xFFFE

def State.setA (v : Byte) (s : State) : State := { s with a := v }
def State.setX (v : Byte) (s : State) : State := { s with x := v }
def State.setY (v : Byte) (s : State) : State := { s with y := v }
def State.setSp (v : Byte) (s : State) : State := { s with sp := v }
def State.setPc (v : Word) (s : State) : State := { s with pc := v }
def State.setP (v : Flags) (s : State) : State := { s with p := v }

/-- `cycles +:= k` (00_scope.md R11). -/
def State.addCycles (k : Nat) (s : State) : State := { s with stepCycles := s.stepCycles + k }

/-- `halt()` (60 R320). -/
def State.halt (s : State) : State := { s with halted := true }

/-- `zext_16` (00_scope.md R11). -/
def zext (b : Byte) : Word := b.setWidth 16

/-- `sext_16` (00_scope.md R11). -/
def sext (b : Byte) : Word := b.signExtend 16

/-- The page of an address: bits 15:8 in place (00_scope.md R13). -/
def pageOf (w : Word) : Word := w &&& 0xFF00

/-- An address with the page of one and the low byte of another. -/
def inPage (page low : Word) : Word := pageOf page ||| (low &&& 0x00FF)

/-- `Read16(a)`: low byte first, the high byte's address modulo `$10000` (00_scope.md R11, 20_memory.md R55). -/
def read16 (a : Word) (s : State) : Word × State :=
  let lo := busRead a s
  let hi := busRead (a + 1) lo.2
  (mkWord hi.1 lo.1, hi.2)

/-- `$0100 | SP` (10_state.md R24; `STACK_PAGE`). -/
def stackAddr (sp : Byte) : Word := mkWord 0x01 sp

/-- `Push(v)`: writes at `$0100 | SP`, then decrements `SP` modulo 256 (00_scope.md R11). -/
def push (v : Byte) (s : State) : State := (busWrite (stackAddr s.sp) v s).setSp (s.sp - 1)

/-- `Pull()`: increments `SP` modulo 256, then reads at `$0100 | SP` (00_scope.md R11). -/
def pull (s : State) : Byte × State := busRead (stackAddr (s.sp + 1)) (s.setSp (s.sp + 1))

/-- Pushes a 16-bit value high byte first (20_memory.md R51). -/
def pushWord (w : Word) (s : State) : State := push (loByte w) (push (hiByte w) s)

/-- Pulls a 16-bit value low byte first. -/
def pullWord (s : State) : Word × State :=
  let lo := pull s
  let hi := pull lo.2
  (mkWord hi.1 lo.1, hi.2)

/-- `Pimage(b)`: the byte image of `P` with break value `b` (10_state.md R33). -/
def Flags.image (p : Flags) (b : Bool) : Byte :=
  BitVec.ofBool p.n ++ BitVec.ofBool p.v ++ 1#1 ++ BitVec.ofBool b ++
    BitVec.ofBool p.d ++ BitVec.ofBool p.i ++ BitVec.ofBool p.z ++ BitVec.ofBool p.c

/-- The flags of a pulled byte; bits 4 and 5 are discarded (10_state.md R34). -/
def Flags.ofByte (v : Byte) : Flags where
  c := v.getLsbD 0
  z := v.getLsbD 1
  i := v.getLsbD 2
  d := v.getLsbD 3
  v := v.getLsbD 6
  n := v.getLsbD 7

/-- `LoadP(v)` (10_state.md R34). -/
def loadP (v : Byte) (s : State) : State := s.setP (Flags.ofByte v)

/-- `Entry(vec, b)`, common to NMI, IRQ and `BRK` (60 R309): pushes `PC` high, low and the status image with break value
`b`, sets `I`, loads `PC` from the vector, 7 cycles. -/
def interruptEntry (vec : Word) (b : Bool) (s : State) : State :=
  let t := push (s.p.image b) (pushWord s.pc s)
  let t := t.setP { t.p with i := true }
  let target := read16 vec t
  (target.2.setPc target.1).addCycles 7

/-- `NmiEntry()` (60 R310). -/
def nmiEntry (s : State) : State := interruptEntry vecNmi false { s with nmiPending := false }

/-- `IrqEntry()` (60 R311). -/
def irqEntry (s : State) : State := interruptEntry vecIrq false s

/-- Return from an interrupt (60 R314): the pulled status, then the pulled `PC` with no `+ 1`. -/
def interruptReturn (s : State) : State :=
  let st := pull s
  let target := pullWord (loadP st.1 st.2)
  target.2.setPc target.1

end Sys2Proof.Machine
end

