-- ==== Sys2Proof/Machine/Clock.lean ====
section
/-! DEFINITION. What happens after the instruction of a step: sprite DMA (60_exceptions.md R340 to R342) and the clock
that advances the devices and samples the interrupt lines (70 R384). -/

namespace Sys2Proof.Machine

/-- The first `n` bytes of the sprite-DMA copy, in order: byte `i` of the page into OAM byte `oam_addr + i` by an ordinary
bus read (60 R342). -/
def dmaCopy (page : Byte) : Nat → State → State
  | 0, s => s
  | n + 1, s =>
    let t := dmaCopy page n s
    let r := busRead (mkWord page (BitVec.ofNat 8 n)) t
    let cell := (r.2.ppu.oamAddr + BitVec.ofNat 8 n).toNat
    { r.2 with ppu := { r.2.ppu with oam := r.2.ppu.oam.set cell r.1 } }

/-- The stall of a sprite DMA, by the parity of `cyc` after the entry and the instruction (60 R341). -/
def dmaStall (c : Nat) : Nat := if c % 2 = 1 then 514 else 513

/-- Sprite DMA, if the instruction wrote `$4014` (70 R380 item 4). -/
def spriteDma (s : State) : State :=
  match s.oamDma with
  | none => s
  | some page =>
    let t := dmaCopy page 256 s
    { t with oamDma := none, stall := t.stall + dmaStall (t.cyc + t.stepCycles) }

/-- Three picture ticks, `cyc + 1`, and an audio tick when `cyc` is even (70 R384). -/
def advanceDevices (s : State) : State :=
  let cyc := s.cyc + 1
  { s with
    ppu := s.ppu.tick.tick.tick
    cyc := cyc
    apu := if cyc % 2 = 0 then s.apu.tick else s.apu }

/-- The lines sampled after a cycle: an NMI edge is latched, the IRQ level is taken (60 R303, R304; 70 R384). -/
def sampleLines (s : State) : State :=
  let n := s.ppu.nmiOut
  { s with
    nmiPending := s.nmiPending || (n && !s.nmiPrev)
    nmiPrev := n
    irqLine := s.apu.irqOut }

/-- One CPU cycle in which no sample fetch is requested. -/
def plainCycle (s : State) : State := sampleLines (advanceDevices s)

/-- `n` such cycles. -/
def plainCycles : Nat → State → State
  | 0, s => s
  | n + 1, s => plainCycles n (plainCycle s)

/-- The audio unit requests a sample fetch in this cycle: only while the sample channel is active, and then as a free
value says (log 25). -/
def requestsSample (s : State) : Bool := s.apu.dmcRemaining != 0 && Config.dmcRequest s.draws

/-- The draw of a cycle in which the sample channel is active. -/
def drawRequest (s : State) : State := if s.apu.dmcRemaining ≠ 0 then { s with draws := s.draws + 1 } else s

/-- The fetch of a sample byte through the Bus (60 R337, R343; 70 R384). -/
def sampleFetch (p : Params) (s : State) : State :=
  let r := busRead s.apu.dmcAddr s
  { r.2 with apu := r.2.apu.takeSample r.1, stall := r.2.stall + p.dmcStallCycles }

/-- `Clock(k)` (70 R384): `k` cycles, and `DMC_STALL_CYCLES` more for each sample fetch; no fetch is requested while a
fetch's own stall cycles run (log 25). -/
def clock (p : Params) : Nat → State → State
  | 0, s => s
  | k + 1, s =>
    let t := advanceDevices s
    if requestsSample t then
      clock p k (plainCycles p.dmcStallCycles (sampleLines (sampleFetch p (drawRequest t))))
    else clock p k (sampleLines (drawRequest t))

end Sys2Proof.Machine
end

