-- ==== Sys2Proof/Machine/Console.lean ====
section
/-! DEFINITION. The host's operations that are not a step (70_reset_and_hazards.md R370 to R377, R391): reset and
power-on. -/

namespace Sys2Proof.Machine

/-- The picture unit's reset (70 R374). Its memories and its undescribed registers are not named there and keep their
contents (log 29). -/
def Ppu.resetUnit (u : Ppu) : Ppu :=
  { u with
    scanline := 0, dot := 0, frame := 0, ctrl := 0, mask := 0
    blank := false, sprite0 := false, overflow := false, spritesKnown := true
    toggle := false }

/-- The audio unit's reset (70 R374): every channel disabled, 4-step mode, inhibit 0, both flags 0, the sample interrupt
disabled; the sequencer starts anew. -/
def Apu.resetUnit (u : Apu) : Apu :=
  { u with
    regs := u.regs.set 0x10 (Memory.get u.regs 0x10 &&& 0x7F)
    enable := 0, fiveStep := false, inhibit := false
    frameIrq := false, dmcIrq := false, frameTicks := 0, dmcRemaining := 0 }

/-- Every CPU register and device in its reset state, before the program counter is loaded (70 R371, R374). -/
def resetRegisters (s : State) : State :=
  { s with
    a := 0, x := 0, y := 0, sp := resetSp, p := Flags.reset
    nmiPending := false, nmiPrev := false, irqLine := false, iPoll := true
    halted := false, refused := false
    stall := 0, stepCycles := 0, oamDma := none, cyc := resetCycles
    ppu := s.ppu.resetUnit
    apu := s.apu.resetUnit
    pad := { s.pad with strobe := false, shift := 0 }
    cart := s.cart.resetMapper }

/-- `Reset()` (70 R371): work RAM is not changed, nothing is pushed; `PC` is the word at `$FFFC`, or `ENTRY_PC` with no
vector read (R373, R376). -/
def resetWith (p : Params) (s : State) : State :=
  let t := resetRegisters s
  match p.entryPc with
  | some entry => t.setPc entry
  | none =>
    let v := read16 vecReset t
    v.2.setPc v.1

/-- `power_on()` (70 R374, R377): a loaded cartridge, the draw `RAM_INIT` of work RAM, then reset. -/
def powerOn (p : Params) (cart : Cart) (ramInit : Memory) : State :=
  resetWith p { State.reset with cart := cart, ram := ramInit }

end Sys2Proof.Machine
end

