-- ==== Sys2Proof/Machine/Flags.lean ====
section
/-! DEFINITION. Every flag computation (00_scope.md R11, 41_arith_logic.md R170). -/

namespace Sys2Proof.Machine

/-- `SetNZ(v)` (00_scope.md R11). -/
def setNZ (v : Byte) (s : State) : State := s.setP { s.p with z := v == 0, n := v.msb }

/-- Writes `C`. -/
def setC (c : Bool) (s : State) : State := s.setP { s.p with c := c }

/-- Writes `I`. -/
def setI (i : Bool) (s : State) : State := s.setP { s.p with i := i }

/-- Writes `D`. -/
def setD (d : Bool) (s : State) : State := s.setP { s.p with d := d }

/-- Writes `V`. -/
def setV (v : Bool) (s : State) : State := s.setP { s.p with v := v }

/-- `s = A + m + C`, a natural number up to 511 (R170). -/
def addSum (a m : Byte) (c : Bool) : Nat := a.toNat + m.toNat + c.toNat

/-- The signed overflow of an addition with result `r` (R170). -/
def addOverflow (a m r : Byte) : Bool := ((a ^^^ r) &&& (m ^^^ r) &&& 0x80) != 0

/-- `AddWithCarry(m)` (R170): binary whatever `D` holds (10_state.md R31). -/
def addWithCarry (m : Byte) (s : State) : State :=
  let sum := addSum s.a m s.p.c
  let r : Byte := BitVec.ofNat 8 sum
  setNZ r ((setV (addOverflow s.a m r) (setC (decide (sum > 0xFF)) s)).setA r)

/-- `Compare(reg, m)`: unsigned; `V` is not written (R170). -/
def compareWith (reg m : Byte) (s : State) : State :=
  setNZ (reg - m) (setC (decide (m.toNat ≤ reg.toNat)) s)

/-- `ShiftLeft(v, cin)`: the result, and the state with `C <- v[7]` (R170). -/
def shiftLeft (v : Byte) (cin : Bool) (s : State) : Byte × State :=
  ((v <<< 1) ||| (BitVec.ofBool cin).setWidth 8, setC v.msb s)

/-- `ShiftRight(v, cin)`: the result, and the state with `C <- v[0]` (R170). -/
def shiftRight (v : Byte) (cin : Bool) (s : State) : Byte × State :=
  ((v >>> 1) ||| ((BitVec.ofBool cin).setWidth 8 <<< 7), setC (v.getLsbD 0) s)

end Sys2Proof.Machine
end

