-- ==== Sys2Proof/Machine/Operands.lean ====
section
/-! DEFINITION. The operand forms (30_encoding.md R95 to R108) and their cycle counts (R112 to R114), and the shared
shapes of the instructions: read an operand, store to it, modify it, branch. -/

namespace Sys2Proof.Machine

/-- `MemRead` of a zero-page address: work RAM, so it has no side effect. -/
def readZeroPage (b : Byte) (s : State) : Byte := (busRead (zext b) s).1

/-- The word at a zero-page pointer; its second byte wraps within page zero (R103, R104). -/
def pointer (b : Byte) (s : State) : Word := mkWord (readZeroPage (b + 1) s) (readZeroPage b s)

/-- The address before indexing, for the modes that can cross a page (R100, R101, R104). -/
def baseAddress (o : Operand) (s : State) : Word :=
  match o with
  | .acc | .imm _ => 0
  | .zp b => zext b
  | .zpx b => zext (b + s.x)
  | .zpy b => zext (b + s.y)
  | .abs w | .absx w | .absy w => w
  | .indx b => pointer (b + s.x) s
  | .indy b => pointer b s

/-- The effective address (R96 to R104); an immediate or the accumulator has none. -/
def effectiveAddress (o : Operand) (s : State) : Word :=
  match o with
  | .acc | .imm _ | .zp _ | .zpx _ | .zpy _ | .abs _ | .indx _ => baseAddress o s
  | .absx _ => baseAddress o s + zext s.x
  | .absy _ | .indy _ => baseAddress o s + zext s.y

/-- `crossed` (R108): the effective address differs from its base in bits 15:8. -/
def pageCrossed (o : Operand) (s : State) : Bool := pageOf (baseAddress o s) != pageOf (effectiveAddress o s)

/-- The unfixed address of an indexed access: the page of the base, the low byte of the sum (20_memory.md R64). -/
def unfixedAddress (o : Operand) (s : State) : Word := inPage (baseAddress o s) (effectiveAddress o s)

/-- The operand value `M` (R107): the immediate byte, `A`, or one read at the effective address. -/
def readOperand (o : Operand) (s : State) : Byte × State :=
  match o with
  | .imm b => (b, s)
  | .acc => (s.a, s)
  | .zp _ | .zpx _ | .zpy _ | .abs _ | .absx _ | .absy _ | .indx _ | .indy _ => busRead (effectiveAddress o s) s

/-- Writes a result to an operand whose effective address is `a` (R107); an immediate takes nothing. -/
def writeOperand (o : Operand) (a : Word) (v : Byte) (s : State) : State :=
  match o with
  | .imm _ => s
  | .acc => s.setA v
  | .zp _ | .zpx _ | .zpy _ | .abs _ | .absx _ | .absy _ | .indx _ | .indy _ => busWrite a v s

/-- Cycles of a read form: one more when the page is crossed (R112, R113). -/
def readCycles (o : Operand) (s : State) : Nat :=
  match o with
  | .acc | .imm _ => 2
  | .zp _ => 3
  | .zpx _ | .zpy _ | .abs _ => 4
  | .absx _ | .absy _ => 4 + (pageCrossed o s).toNat
  | .indx _ => 6
  | .indy _ => 5 + (pageCrossed o s).toNat

/-- Cycles of a store form: no page penalty (R112, R113). -/
def writeCycles : Operand → Nat
  | .acc | .imm _ => 2
  | .zp _ => 3
  | .zpx _ | .zpy _ | .abs _ => 4
  | .absx _ | .absy _ => 5
  | .indx _ | .indy _ => 6

/-- Cycles of a read-modify-write form (R112). -/
def rmwCycles : Operand → Nat
  | .acc | .imm _ => 2
  | .zp _ => 5
  | .zpx _ | .zpy _ | .abs _ => 6
  | .absx _ | .absy _ => 7
  | .indx _ | .indy _ => 8

/-- An instruction that reads its operand and then does `f` with the value. -/
def withRead (o : Operand) (f : Byte → State → State) (s : State) : State :=
  let m := readOperand o s
  (f m.1 m.2).addCycles (readCycles o s)

/-- An instruction that stores a register value and writes nothing else. -/
def store (o : Operand) (v : Byte) (s : State) : State :=
  (writeOperand o (effectiveAddress o s) v s).addCycles (writeCycles o)

/-- A read-modify-write instruction (R107, R170): reads `M`, computes the result `r` with `f`, writes `r` back, then does
`after` with it. -/
def readModifyWrite (o : Operand) (f : Byte → State → Byte × State) (after : Byte → State → State) (s : State) : State :=
  let a := effectiveAddress o s
  let m := readOperand o s
  let r := f m.1 m.2
  (after r.1 (writeOperand o a r.1 r.2)).addCycles (rmwCycles o)

/-- The target of a relative branch, from the address after the branch (R106). -/
def branchTarget (d : Byte) (s : State) : Word := s.pc + sext d

/-- `Branch(cond)` (42_control_flag.md R216): 2 cycles not taken, 3 taken, 4 taken into another page (R114). -/
def branch (cond : Bool) (d : Byte) (s : State) : State :=
  if cond then
    let target := branchTarget d s
    (s.setPc target).addCycles (if pageOf s.pc = pageOf target then 3 else 4)
  else s.addCycles 2

/-- The second address of an indirect jump's pointer, in the page of the first (R105). -/
def indirectHigh (w : Word) : Word := inPage w (w + 1)

/-- The target of `JMP` (R99, R105). -/
def jumpTarget (t : JumpTarget) (s : State) : Word × State :=
  match t with
  | .abs w => (w, s)
  | .ind w =>
    let lo := busRead w s
    let hi := busRead (indirectHigh w) lo.2
    (mkWord hi.1 lo.1, hi.2)

/-- What the `SH` family stores: `src & (H + 1)`, `H` the high byte of the base (43_undocumented.md R270). -/
def shValue (o : Operand) (src : Byte) (s : State) : Byte := src &&& (hiByte (baseAddress o s) + 1)

/-- Where the `SH` family stores it under `SH_UNSTABLE = formula`: when the page is crossed, the value replaces the high
byte of the address (43_undocumented.md R270). -/
def shAddr (o : Operand) (src : Byte) (s : State) : Word :=
  if pageCrossed o s then mkWord (shValue o src s) (loByte (effectiveAddress o s)) else effectiveAddress o s

/-- The `SH` family (43_undocumented.md R270): one store, no flag, the cycles of a store. -/
def storeHigh (o : Operand) (src : Byte) (s : State) : State :=
  (busWrite (shAddr o src s) (shValue o src s) s).addCycles (writeCycles o)

end Sys2Proof.Machine
end

