-- ==== Sys2Proof/Machine/Control.lean ====
section
/-! DEFINITION. Control transfer, flag operations and the documented `NOP` (42_control_flag.md R211 to R232). -/

namespace Sys2Proof.Machine

/-- Cycles of `JMP`: 3 absolute, 5 indirect (30_encoding.md R112). -/
def jumpCycles : JumpTarget → Nat
  | .abs _ => 3
  | .ind _ => 5

/-- R211 -/
def execJmp (t : JumpTarget) (s : State) : Result :=
  let target := jumpTarget t s
  .next ((target.2.setPc target.1).addCycles (jumpCycles t))

/-- R212: pushes the address of its own last byte. -/
def execJsr (w : Word) (s : State) : Result := .next (((pushWord (s.pc - 1) s).setPc w).addCycles 6)

/-- R213: the pulled address plus one. -/
def execRts (s : State) : Result :=
  let target := pullWord s
  .next ((target.2.setPc (target.1 + 1)).addCycles 6)

/-- R214 -/
def execRti (s : State) : Result := .next ((interruptReturn s).addCycles 6)

/-- R215: skips the signature byte, then the entry of 60 R312, whose 7 cycles are all of `BRK`'s (90_conflicts.md C8). -/
def execBrk (s : State) : Result := .next (interruptEntry vecIrq true (s.setPc (s.pc + 1)))

/-- R217 -/
def execBpl (d : Byte) (s : State) : Result := .next (branch (!s.p.n) d s)

/-- R218 -/
def execBmi (d : Byte) (s : State) : Result := .next (branch s.p.n d s)

/-- R219 -/
def execBvc (d : Byte) (s : State) : Result := .next (branch (!s.p.v) d s)

/-- R220 -/
def execBvs (d : Byte) (s : State) : Result := .next (branch s.p.v d s)

/-- R221 -/
def execBcc (d : Byte) (s : State) : Result := .next (branch (!s.p.c) d s)

/-- R222 -/
def execBcs (d : Byte) (s : State) : Result := .next (branch s.p.c d s)

/-- R223 -/
def execBne (d : Byte) (s : State) : Result := .next (branch (!s.p.z) d s)

/-- R224 -/
def execBeq (d : Byte) (s : State) : Result := .next (branch s.p.z d s)

/-- R225 -/
def execClc (s : State) : Result := .next ((setC false s).addCycles 2)

/-- R226 -/
def execSec (s : State) : Result := .next ((setC true s).addCycles 2)

/-- R227 -/
def execCli (s : State) : Result := .next ((setI false s).addCycles 2)

/-- R228 -/
def execSei (s : State) : Result := .next ((setI true s).addCycles 2)

/-- R229 -/
def execCld (s : State) : Result := .next ((setD false s).addCycles 2)

/-- R230 -/
def execSed (s : State) : Result := .next ((setD true s).addCycles 2)

/-- R231 -/
def execClv (s : State) : Result := .next ((setV false s).addCycles 2)

/-- R232 -/
def execNop (s : State) : Result := .next (s.addCycles 2)

end Sys2Proof.Machine
end

