-- ==== Sys2Proof/Machine/LoadStore.lean ====
section
/-! DEFINITION. Loads, stores, transfers and stack operations (40_load_store_transfer.md R131 to R146). A meaning starts
with `PC` past the instruction's bytes (00_scope.md R12) and adds the instruction's cycles (30_encoding.md R112). -/

namespace Sys2Proof.Machine

/-- `A <- v; SetNZ(A)` -/
def loadA (v : Byte) (s : State) : State := setNZ v (s.setA v)

/-- `X <- v; SetNZ(X)` -/
def loadX (v : Byte) (s : State) : State := setNZ v (s.setX v)

/-- `Y <- v; SetNZ(Y)` -/
def loadY (v : Byte) (s : State) : State := setNZ v (s.setY v)

/-- R131 -/
def execLda (o : Operand) (s : State) : Result := .next (withRead o loadA s)

/-- R132 -/
def execLdx (o : Operand) (s : State) : Result := .next (withRead o loadX s)

/-- R133 -/
def execLdy (o : Operand) (s : State) : Result := .next (withRead o loadY s)

/-- R134 -/
def execSta (o : Operand) (s : State) : Result := .next (store o s.a s)

/-- R135 -/
def execStx (o : Operand) (s : State) : Result := .next (store o s.x s)

/-- R136 -/
def execSty (o : Operand) (s : State) : Result := .next (store o s.y s)

/-- R137 -/
def execTax (s : State) : Result := .next ((loadX s.a s).addCycles 2)

/-- R138 -/
def execTay (s : State) : Result := .next ((loadY s.a s).addCycles 2)

/-- R139 -/
def execTxa (s : State) : Result := .next ((loadA s.x s).addCycles 2)

/-- R140 -/
def execTya (s : State) : Result := .next ((loadA s.y s).addCycles 2)

/-- R141 -/
def execTsx (s : State) : Result := .next ((loadX s.sp s).addCycles 2)

/-- R142: the only transfer that writes no flag. -/
def execTxs (s : State) : Result := .next ((s.setSp s.x).addCycles 2)

/-- R143 -/
def execPha (s : State) : Result := .next ((push s.a s).addCycles 3)

/-- R144: the pushed image has the break-marker set (10_state.md R30). -/
def execPhp (s : State) : Result := .next ((push (s.p.image true) s).addCycles 3)

/-- R145 -/
def execPla (s : State) : Result :=
  let v := pull s
  .next ((loadA v.1 v.2).addCycles 4)

/-- R146 -/
def execPlp (s : State) : Result :=
  let v := pull s
  .next ((loadP v.1 v.2).addCycles 4)

end Sys2Proof.Machine
end

