-- ==== Sys2Proof/Machine/Arith.lean ====
section
/-! DEFINITION. Arithmetic, logic, compare, increment and shift (41_arith_logic.md R171 to R189). -/

namespace Sys2Proof.Machine

/-- R171 -/
def execAdc (o : Operand) (s : State) : Result := .next (withRead o addWithCarry s)

/-- R172: `AddWithCarry(M ^ $FF)`. -/
def execSbc (o : Operand) (s : State) : Result := .next (withRead o (fun m => addWithCarry (m ^^^ 0xFF)) s)

/-- R173 -/
def execAnd (o : Operand) (s : State) : Result := .next (withRead o (fun m t => loadA (t.a &&& m) t) s)

/-- R174 -/
def execOra (o : Operand) (s : State) : Result := .next (withRead o (fun m t => loadA (t.a ||| m) t) s)

/-- R175 -/
def execEor (o : Operand) (s : State) : Result := .next (withRead o (fun m t => loadA (t.a ^^^ m) t) s)

/-- `Z <- ((A & M) == 0); N <- M[7]; V <- M[6]` (R176). -/
def testBits (m : Byte) (s : State) : State :=
  s.setP { s.p with z := (s.a &&& m) == 0, n := m.getLsbD 7, v := m.getLsbD 6 }

/-- R176 -/
def execBit (o : Operand) (s : State) : Result := .next (withRead o testBits s)

/-- R177 -/
def execCmp (o : Operand) (s : State) : Result := .next (withRead o (fun m t => compareWith t.a m t) s)

/-- R178 -/
def execCpx (o : Operand) (s : State) : Result := .next (withRead o (fun m t => compareWith t.x m t) s)

/-- R179 -/
def execCpy (o : Operand) (s : State) : Result := .next (withRead o (fun m t => compareWith t.y m t) s)

/-- `r = (M + 1) & $FF`, no flag. -/
def increment (m : Byte) (s : State) : Byte × State := (m + 1, s)

/-- `r = (M - 1) & $FF`, no flag. -/
def decrement (m : Byte) (s : State) : Byte × State := (m - 1, s)

/-- R180 -/
def execInc (o : Operand) (s : State) : Result := .next (readModifyWrite o increment setNZ s)

/-- R181 -/
def execDec (o : Operand) (s : State) : Result := .next (readModifyWrite o decrement setNZ s)

/-- R182 -/
def execInx (s : State) : Result := .next ((loadX (s.x + 1) s).addCycles 2)

/-- R183 -/
def execIny (s : State) : Result := .next ((loadY (s.y + 1) s).addCycles 2)

/-- R184 -/
def execDex (s : State) : Result := .next ((loadX (s.x - 1) s).addCycles 2)

/-- R185 -/
def execDey (s : State) : Result := .next ((loadY (s.y - 1) s).addCycles 2)

/-- `ShiftLeft(M, 0)`: `ASL`, `SLO`. -/
def shiftLeft0 (m : Byte) (s : State) : Byte × State := shiftLeft m false s

/-- `ShiftRight(M, 0)`: `LSR`, `SRE`. -/
def shiftRight0 (m : Byte) (s : State) : Byte × State := shiftRight m false s

/-- `ShiftLeft(M, C)` with the old `C`: `ROL`, `RLA`. -/
def rotateLeft (m : Byte) (s : State) : Byte × State := shiftLeft m s.p.c s

/-- `ShiftRight(M, C)` with the old `C`: `ROR`, `RRA`. -/
def rotateRight (m : Byte) (s : State) : Byte × State := shiftRight m s.p.c s

/-- R186 -/
def execAsl (o : Operand) (s : State) : Result := .next (readModifyWrite o shiftLeft0 setNZ s)

/-- R187 -/
def execLsr (o : Operand) (s : State) : Result := .next (readModifyWrite o shiftRight0 setNZ s)

/-- R188 -/
def execRol (o : Operand) (s : State) : Result := .next (readModifyWrite o rotateLeft setNZ s)

/-- R189 -/
def execRor (o : Operand) (s : State) : Result := .next (readModifyWrite o rotateRight setNZ s)

end Sys2Proof.Machine
end

