-- ==== Sys2Proof/Machine/Undocumented.lean ====
section
/-! DEFINITION. The undocumented opcodes (43_undocumented.md R250 to R274). An opcode argument only says which of several
encodings the instruction is; it has no effect. -/

namespace Sys2Proof.Machine

/-- R250: `halted <- 1`; `PC` stays past the opcode; `JAM_CYCLES` cycles. -/
def execJam (_op : Byte) (s : State) : Result := .next (s.halt.addCycles jamCycles)

/-- R251 -/
def execNopImp (_op : Byte) (s : State) : Result := .next (s.addCycles 2)

/-- R252 -/
def execNopImm (_op _b : Byte) (s : State) : Result := .next (s.addCycles 2)

/-- R253: the read is performed, with its side effect, and its value discarded. -/
def execNopRead (_op : Byte) (o : Operand) (s : State) : Result := .next (withRead o (fun _ t => t) s)

/-- R254 -/
def execSlo (o : Operand) (s : State) : Result := .next (readModifyWrite o shiftLeft0 (fun r t => loadA (t.a ||| r) t) s)

/-- R255 -/
def execRla (o : Operand) (s : State) : Result := .next (readModifyWrite o rotateLeft (fun r t => loadA (t.a &&& r) t) s)

/-- R256 -/
def execSre (o : Operand) (s : State) : Result := .next (readModifyWrite o shiftRight0 (fun r t => loadA (t.a ^^^ r) t) s)

/-- R257: the addition's carry-in is the `C` the rotate wrote. -/
def execRra (o : Operand) (s : State) : Result := .next (readModifyWrite o rotateRight addWithCarry s)

/-- R258 -/
def execSax (o : Operand) (s : State) : Result := .next (store o (s.a &&& s.x) s)

/-- R259 -/
def execLax (o : Operand) (s : State) : Result := .next (withRead o (fun m t => setNZ m ((t.setA m).setX m)) s)

/-- R260 -/
def execDcp (o : Operand) (s : State) : Result := .next (readModifyWrite o decrement (fun r t => compareWith t.a r t) s)

/-- R261 -/
def execIsc (o : Operand) (s : State) : Result :=
  .next (readModifyWrite o increment (fun r => addWithCarry (r ^^^ 0xFF)) s)

/-- R262 -/
def execAnc (_op b : Byte) (s : State) : Result :=
  let r := s.a &&& b
  .next ((setC r.msb (loadA r s)).addCycles 2)

/-- R263 -/
def execAlr (b : Byte) (s : State) : Result :=
  let r := shiftRight (s.a &&& b) false s
  .next ((loadA r.1 r.2).addCycles 2)

/-- R264: `C <- r[6]; V <- r[6] ^ r[5]`; the old bit 0 is lost. -/
def execArr (b : Byte) (s : State) : Result :=
  let r : Byte := ((s.a &&& b) >>> 1) ||| ((BitVec.ofBool s.p.c).setWidth 8 <<< 7)
  .next ((setV (r.getLsbD 6 ^^ r.getLsbD 5) (setC (r.getLsbD 6) (loadA r s))).addCycles 2)

/-- R265: the incoming `C` is not read; `V` is unchanged. -/
def execAxs (b : Byte) (s : State) : Result :=
  let t := s.a &&& s.x
  .next ((loadX (t - b) (setC (decide (b.toNat ≤ t.toNat)) s)).addCycles 2)

/-- R266 -/
def execUsbc (b : Byte) (s : State) : Result := .next ((addWithCarry (b ^^^ 0xFF) s).addCycles 2)

/-- R267 -/
def execLas (w : Word) (s : State) : Result :=
  .next (withRead (.absy w) (fun m t =>
    let v := m &&& t.sp
    setNZ v (((t.setA v).setX v).setSp v)) s)

/-- R268, with `XAA_MAGIC` open (log 7). -/
def execXaa (b : Byte) (s : State) : Result :=
  .next ((loadA ((s.a ||| Config.xaaMagic) &&& s.x &&& b) s).addCycles 2)

/-- R269, with `LXA_MAGIC` open (log 7). -/
def execLxa (b : Byte) (s : State) : Result :=
  let v := (s.a ||| Config.lxaMagic) &&& b
  .next ((setNZ v ((s.setA v).setX v)).addCycles 2)

/-- R271 -/
def execSha (o : Operand) (s : State) : Result := .next (storeHigh o (s.a &&& s.x) s)

/-- R272 -/
def execShx (w : Word) (s : State) : Result := .next (storeHigh (.absy w) s.x s)

/-- R273 -/
def execShy (w : Word) (s : State) : Result := .next (storeHigh (.absx w) s.y s)

/-- R274: `SP <- A & X` first. -/
def execTas (w : Word) (s : State) : Result :=
  .next (storeHigh (.absy w) (s.a &&& s.x) (s.setSp (s.a &&& s.x)))

end Sys2Proof.Machine
end

