-- ==== Sys2Proof/Machine/Interrupts.lean ====
section
/-! DEFINITION. The interrupt poll at the start of a step (60_exceptions.md R306 to R308) and the delayed `I` (R307). -/

namespace Sys2Proof.Machine

/-- The two interrupts a poll can take. -/
inductive Interrupt where
  | nmi
  | irq
  deriving DecidableEq, Repr

/-- `Ipoll`, the `I` the poll reads (R307). -/
def ipoll (p : Params) (s : State) : Bool :=
  match p.irqPollISource with
  | .current => s.p.i
  | .delayed => s.iPoll

/-- What the poll takes: a pending NMI first, then an IRQ that is not masked (R306, R308). -/
def pollInterrupt (p : Params) (s : State) : Option Interrupt :=
  if s.nmiPending then some .nmi
  else if !ipoll p s && s.irqLine then some .irq
  else none

/-- The entry a poll makes, if any (R306). -/
def enterInterrupt : Option Interrupt → State → State
  | none, s => s
  | some .nmi, s => nmiEntry s
  | some .irq, s => irqEntry s

/-- The instructions whose change of `I` a delayed poll sees one step later (R307). -/
def delaysPoll (i : Instr) : Bool := i == .cli || i == .sei || i == .plp

/-- The end-of-step update of `i_poll`, under `IRQ_POLL_I_SOURCE = delayed` only (R307): `iBefore` is `I` just before the
instruction. -/
def updateIPoll (p : Params) (i : Instr) (iBefore : Bool) (s : State) : State :=
  match p.irqPollISource with
  | .current => s
  | .delayed => { s with iPoll := if delaysPoll i then iBefore else s.p.i }

end Sys2Proof.Machine
end

