-- ==== Sys2Proof/Machine/Dummy.lean ====
section
/-! DEFINITION. The silicon's dummy accesses (20_memory.md R64), which the model does not perform, and the refusal of a
step (R65, 70 R381): each function describes an instruction in the state reached by its fetch. -/

namespace Sys2Proof.Machine

/-- The unindexed zero-page address of a form that indexes in page zero (R64). -/
def zeroPageDummies : Operand → List Word
  | .zpx b | .zpy b | .indx b => [zext b]
  | .acc | .imm _ | .zp _ | .abs _ | .absx _ | .absy _ | .indy _ => []

/-- Dummy reads of a read-only form: the unfixed address when the page is crossed (R64). -/
def readDummies (o : Operand) (s : State) : List Word :=
  zeroPageDummies o ++ (if pageCrossed o s then [unfixedAddress o s] else [])

/-- Dummy reads of a form that writes its operand: the unfixed address always, and `PC` in accumulator mode (R64). -/
def writeDummies (o : Operand) (s : State) : List Word :=
  match o with
  | .acc => [s.pc]
  | .absx _ | .absy _ | .indy _ => [unfixedAddress o s]
  | .imm _ | .zp _ | .zpx _ | .zpy _ | .abs _ | .indx _ => zeroPageDummies o

/-- Dummy reads of a branch: if taken, the next instruction's address, and the unfixed target when the page is crossed
(R64). -/
def branchDummies (cond : Bool) (d : Byte) (s : State) : List Word :=
  let target := branchTarget d s
  if cond then s.pc :: (if pageOf s.pc = pageOf target then [] else [inPage s.pc target]) else []

/-- The dummy reads of an instruction (R64). -/
def dummyReads (i : Instr) (s : State) : List Word :=
  match i with
  | .lda o | .ldx o | .ldy o | .adc o | .sbc o | .and o | .ora o | .eor o | .bit o | .cmp o | .cpx o | .cpy o
  | .nopRead _ o | .lax o => readDummies o s
  | .las w => readDummies (.absy w) s
  | .sta o | .stx o | .sty o | .sax o | .sha o => writeDummies o s
  | .shx w | .tas w => writeDummies (.absy w) s
  | .shy w => writeDummies (.absx w) s
  | .inc o | .dec o | .asl o | .lsr o | .rol o | .ror o | .slo o | .rla o | .sre o | .rra o | .dcp o | .isc o =>
    writeDummies o s
  | .tax | .tay | .txa | .tya | .tsx | .txs | .pha | .php | .inx | .iny | .dex | .dey
  | .clc | .sec | .cli | .sei | .cld | .sed | .clv | .nop | .nopImp _ | .jam _ | .brk => [s.pc]
  | .pla | .plp | .rti => [s.pc, stackAddr s.sp]
  | .rts => [s.pc, stackAddr s.sp, (pullWord s).1]
  | .jsr _ => [stackAddr s.sp]
  | .bpl d => branchDummies (!s.p.n) d s
  | .bmi d => branchDummies s.p.n d s
  | .bvc d => branchDummies (!s.p.v) d s
  | .bvs d => branchDummies s.p.v d s
  | .bcc d => branchDummies (!s.p.c) d s
  | .bcs d => branchDummies s.p.c d s
  | .bne d => branchDummies (!s.p.z) d s
  | .beq d => branchDummies s.p.z d s
  | .jmp _ | .nopImm _ _ | .anc _ _ | .alr _ | .arr _ | .axs _ | .usbc _ | .xaa _ | .lxa _ => []

/-- The dummy write of a read-modify-write form in memory: the unmodified value at the effective address (R64). -/
def rmwDummies (o : Operand) (s : State) : List Word :=
  match o with
  | .acc | .imm _ => []
  | .zp _ | .zpx _ | .zpy _ | .abs _ | .absx _ | .absy _ | .indx _ | .indy _ => [effectiveAddress o s]

/-- The dummy writes of an instruction (R64). -/
def dummyWrites (i : Instr) (s : State) : List Word :=
  match i with
  | .inc o | .dec o | .asl o | .lsr o | .rol o | .ror o | .slo o | .rla o | .sre o | .rra o | .dcp o | .isc o =>
    rmwDummies o s
  | .lda _ | .ldx _ | .ldy _ | .adc _ | .sbc _ | .and _ | .ora _ | .eor _ | .bit _ | .cmp _ | .cpx _ | .cpy _
  | .nopRead _ _ | .lax _ | .las _ | .sta _ | .stx _ | .sty _ | .sax _ | .sha _ | .shx _ | .shy _ | .tas _
  | .tax | .tay | .txa | .tya | .tsx | .txs | .pha | .php | .pla | .plp | .inx | .iny | .dex | .dey
  | .clc | .sec | .cli | .sei | .cld | .sed | .clv | .nop | .nopImp _ | .jam _ | .brk | .rti | .rts | .jsr _ | .jmp _
  | .bpl _ | .bmi _ | .bvc _ | .bvs _ | .bcc _ | .bcs _ | .bne _ | .beq _
  | .nopImm _ _ | .anc _ _ | .alr _ | .arr _ | .axs _ | .usbc _ | .xaa _ | .lxa _ => []

/-- A dummy access of the instruction would have a side effect (R65). -/
def dummySideEffect (i : Instr) (s : State) : Bool :=
  (dummyReads i s).any seRead || (dummyWrites i s).any (seWrite s.cart)

/-- The work-RAM cell behind an address, if any (20 R57). -/
def ramCellOf (a : Word) : Option Nat := if a.toNat < 0x2000 then some (ramCell a) else none

/-- A `JSR` whose own third byte is one of the two bytes it pushes to (42_control_flag.md R212), as cells of work RAM, so
that a mirror counts (log 16). -/
def jsrOverwritten (s : State) : Bool :=
  let third := ramCellOf (s.pc - 1)
  third == ramCellOf (stackAddr s.sp) || third == ramCellOf (stackAddr (s.sp - 1))

/-- An instruction of the `SH` family whose page is crossed (43_undocumented.md R270). -/
def unstable (i : Instr) (s : State) : Bool :=
  match i with
  | .sha o => pageCrossed o s
  | .shx w | .tas w => pageCrossed (.absy w) s
  | .shy w => pageCrossed (.absx w) s
  | .lda _ | .ldx _ | .ldy _ | .adc _ | .sbc _ | .and _ | .ora _ | .eor _ | .bit _ | .cmp _ | .cpx _ | .cpy _
  | .nopRead _ _ | .lax _ | .las _ | .sta _ | .stx _ | .sty _ | .sax _
  | .inc _ | .dec _ | .asl _ | .lsr _ | .rol _ | .ror _ | .slo _ | .rla _ | .sre _ | .rra _ | .dcp _ | .isc _
  | .tax | .tay | .txa | .tya | .tsx | .txs | .pha | .php | .pla | .plp | .inx | .iny | .dex | .dey
  | .clc | .sec | .cli | .sei | .cld | .sed | .clv | .nop | .nopImp _ | .jam _ | .brk | .rti | .rts | .jsr _ | .jmp _
  | .bpl _ | .bmi _ | .bvc _ | .bvs _ | .bcc _ | .bcs _ | .bne _ | .beq _
  | .nopImm _ _ | .anc _ _ | .alr _ | .arr _ | .axs _ | .usbc _ | .xaa _ | .lxa _ => false

/-- Whether an interrupt entry is refused: the silicon reads `PC` twice during it (R64, 70 R381). -/
def entryRefused (int : Option Interrupt) (pc : Word) : Bool := int.isSome && seRead pc

/-- The refusal of an instruction in the state its fetch reached (70 R381), reasons in the order R381 names them
(log 14). -/
def refusalOf (p : Params) (i : Instr) (s : State) : Option Refusal :=
  if dummySideEffect i s then some .dummyAccessSideEffect
  else match i, p.shUnstable with
    | .jsr _, _ => if jsrOverwritten s then some .jsrOperandOverwritten else none
    | i, .refuse => if unstable i s then some .unstableOpcode else none
    | _, .formula => none

end Sys2Proof.Machine
end

