-- ==== Sys2Proof/Machine/Fetch.lean ====
section
/-! DEFINITION. Instruction fetch (30_encoding.md R93), and placing an instruction's bytes where they are fetched. -/

namespace Sys2Proof.Machine

/-- One fetched byte: a bus read at `PC`, which moves on by one (R93). -/
def fetchByte (s : State) : Byte × State :=
  let r := busRead s.pc s
  (r.1, r.2.setPc (s.pc + 1))

/-- Fetches the instruction at `PC`: the opcode, then its operand bytes in increasing address order (R93, 20 R67). -/
def fetch (s : State) : Instr × State :=
  let op := fetchByte s
  match opcodeEntry op.1 with
  | .imp i => (i, op.2)
  | .byte f =>
    let b := fetchByte op.2
    (f b.1, b.2)
  | .word f =>
    let lo := fetchByte op.2
    let hi := fetchByte lo.2
    (f (mkWord hi.1 lo.1), hi.2)

/-- Places a byte in the storage behind an address, program ROM included, as a host that loads a program does (log 3).
An address without storage takes nothing. -/
def placeByte (a : Word) (v : Byte) (s : State) : State :=
  if a.toNat < 0x2000 then { s with ram := s.ram.set (ramCell a) v }
  else if a.toNat < 0x6000 then s
  else if a.toNat < 0x8000 then { s with cart := { s.cart with prgRam := s.cart.prgRam.set (prgRamOffset a) v } }
  else { s with cart := { s.cart with prgRom := s.cart.prgRom.set (s.cart.prgOffset a) v } }

/-- Places bytes at rising addresses, the last one first. -/
def placeBytes (a : Word) (vs : List Byte) (s : State) : State :=
  match vs with
  | [] => s
  | v :: vs => placeByte a v (placeBytes (a + 1) vs s)

end Sys2Proof.Machine
end

