-- ==== Sys2Proof/Machine/Step.lean ====
section
/-! DEFINITION. The step (70_reset_and_hazards.md R380). -/

namespace Sys2Proof.Machine

/-- The three outcomes of `step()` (00_scope.md R15). -/
inductive Report where
  /-- the step executed and `k` CPU cycles elapsed -/
  | ran (k : Nat)
  /-- the CPU is halted and did nothing -/
  | halted
  /-- the model gives no meaning to the step -/
  | refused (r : Refusal)
  deriving DecidableEq, Repr

/-- The start of a step that runs: its counters are 0, and the poll makes its entry (R380 item 1). -/
def beginStep (p : Params) (s : State) : State :=
  enterInterrupt (pollInterrupt p s) { s with stall := 0, stepCycles := 0, oamDma := none }

/-- The end of a step that ran: sprite DMA, the clock, the delayed `I` (R380 items 4 to 6). -/
def endStep (p : Params) (i : Instr) (iBefore : Bool) (s : State) : State :=
  let t := spriteDma s
  updateIPoll p i iBefore (clock p (t.stepCycles + t.stall) t)

/-- `step()` with given parameters (R380): what it returns and the state it leaves. A refused step leaves the state of its
start with the `refused` mark set (R381). -/
def stepReport (p : Params) (s : State) : Report × State :=
  if s.refused then (.refused .sticky, s)
  else if s.halted then (.halted, s)
  else
    let t := beginStep p s
    let f := fetch t
    if entryRefused (pollInterrupt p s) s.pc then (.refused .dummyAccessSideEffect, { s with refused := true })
    else match refusalOf p f.1 f.2 with
      | some r => (.refused r, { s with refused := true })
      | none =>
        match exec f.1 f.2 with
        | .next u =>
          let v := endStep p f.1 f.2.p.i u
          (.ran (v.stepCycles + v.stall), v)
        | .fault e => nomatch e
        | .refused r => (.refused r, { s with refused := true })

/-- The three outcomes of the host's interface: a halted CPU does nothing and stays (log 11); a refused step has no next
state (log 10). -/
def stepWith (p : Params) (s : State) : Host.Outcome State Fault Refusal :=
  match stepReport p s with
  | (.ran _, t) => .next t
  | (.halted, t) => .next t
  | (.refused r, _) => .refused r

/-- One step, with the spec's default parameters (log 12). -/
def step (s : State) : Host.Outcome State Fault Refusal := stepWith params s

/-- An instruction's bytes placed where the next step fetches: at the program counter the poll leaves (log 3). -/
def State.withFetchWord (s : State) (nbits w : Nat) : State :=
  placeBytes (beginStep params s).pc (tableBytes nbits w) s

end Sys2Proof.Machine
end

