-- ==== Sys2Proof/Safety.lean ====
section
/-! DEFINITION. What claims about the machine are stated in terms of: its invariant, and what a run may reach. -/

namespace Sys2Proof.Machine

/-- Every memory is in canonical form and no larger than the spec makes it (20_memory.md R57, R60, R74). -/
def State.memoryWf (s : State) : Bool :=
  Memory.wf 0x800 s.ram && Memory.wf 0x2000 s.cart.prgRam &&
  Memory.wf (0x4000 * s.cart.prgBanks) s.cart.prgRom && Memory.wf s.cart.chrSize s.cart.chr &&
  Memory.wf 0x100 s.ppu.oam && Memory.wf 0x1000 s.ppu.nametable && Memory.wf 0x20 s.ppu.palette &&
  Memory.wf 0x20 s.apu.regs

/-- The dot counter shows a dot of the frame (60 R334), on an odd frame never the omitted one (R335). -/
def Ppu.wf (u : Ppu) : Bool :=
  decide (u.scanline < 262) && decide (u.dot < 341) &&
  !(decide (u.scanline = 261) && decide (u.frame % 2 = 1) && decide (u.dot = 340))

/-- The serial accumulator holds as many bits as the count says, fewer than five (60 R346). -/
def Cart.wf (c : Cart) : Bool := decide (c.count < 5) && decide (c.shift.toNat < 2 ^ c.count)

/-- The frame sequencer is inside its sequence (60 R336). -/
def Apu.wf (u : Apu) : Bool := decide (u.frameTicks < frameEarliest + frameSlack)

/-- The invariant every step keeps. -/
def State.wf (s : State) : Bool := s.memoryWf && s.ppu.wf && s.cart.wf && s.apu.wf

/-- The hidden state no instruction writes (10_state.md R38): the interrupt latches, the `refused` mark, the cycle count
and the stall. -/
structure Hidden where
  nmiPending : Bool
  nmiPrev : Bool
  irqLine : Bool
  iPoll : Bool
  refused : Bool
  cyc : Nat
  stall : Nat
  deriving DecidableEq, Repr

def State.hidden (s : State) : Hidden := ⟨s.nmiPending, s.nmiPrev, s.irqLine, s.iPoll, s.refused, s.cyc, s.stall⟩

/-- The machine can take a step of its own: neither halted nor refused. -/
def State.running (s : State) : Bool := !s.halted && !s.refused

/-! ## What an instruction leaves -/

/-- `s` with its devices as a bus read has left them in `u`. -/
def State.withDevices (s u : State) : State :=
  { s with ppu := u.ppu, apu := u.apu, pad := u.pad, draws := u.draws }

/-- `s` with its memories and devices as a bus write has left them in `u`. -/
def State.withStore (s u : State) : State :=
  { s with ram := u.ram, cart := u.cart, ppu := u.ppu, apu := u.apu, pad := u.pad, oamDma := u.oamDma, draws := u.draws }

/-- Every address reads after as it read before. -/
def SameMemory (s t : State) : Prop := ∀ b, t.peek b = s.peek b

/-- Two addresses are one byte of storage that a CPU store can change: a work-RAM cell and its mirrors (20_memory.md
R57), or a byte of program RAM (R60). -/
def sameStorage (a b : Word) : Bool :=
  (decide (a.toNat < 0x2000) && decide (b.toNat < 0x2000) && a.toNat % 0x800 == b.toNat % 0x800) ||
  (decide (0x6000 ≤ a.toNat) && decide (a.toNat < 0x8000) && a == b)

/-- What a store of `v` at `a` leaves of memory: the byte at `a` and its mirrors, and nothing else. A store to program
space stores no byte; the mapper takes it, which can switch what program space reads (20_memory.md R63, R73). -/
def StoresByte (a : Word) (v : Byte) (s t : State) : Prop :=
  (∀ b, sameStorage a b = true → t.peek b = some v) ∧
  (∀ b, sameStorage a b = false → (a.toNat < 0x8000 ∨ b.toNat < 0x8000) → t.peek b = s.peek b) ∧
  (0x8000 ≤ a.toNat → t.cart = s.cart.mapperWrite a v)

/-- The bytes from `a` on are the listed ones, addresses modulo `$10000` (20_memory.md R55). -/
def BytesAt (s : State) (a : Word) : List Byte → Prop
  | [] => True
  | v :: vs => s.peek a = some v ∧ BytesAt s (a + 1) vs

/-! ## Flags -/

/-- `SetNZ` (00_scope.md R11). -/
def Flags.withNZ (p : Flags) (v : Byte) : Flags := { p with z := decide (v = 0), n := decide (128 ≤ v.toNat) }

/-- `A + M + C` as a natural number. -/
def unsignedSum (a m : Byte) (c : Bool) : Nat := a.toNat + m.toNat + c.toNat

/-- `A + M + C` as a signed number. -/
def signedSum (a m : Byte) (c : Bool) : Int := a.toInt + m.toInt + c.toNat

/-- The 8-bit sum. -/
def sumByte (a m : Byte) (c : Bool) : Byte := BitVec.ofNat 8 (unsignedSum a m c)

/-- The flags of an addition (10_state.md R27, R32): the carry out of bit 7, the signed overflow, and `SetNZ`. -/
def Flags.afterSum (p : Flags) (a m : Byte) : Flags :=
  { p.withNZ (sumByte a m p.c) with
    c := decide (255 < unsignedSum a m p.c)
    v := decide (signedSum a m p.c < -128 ∨ 127 < signedSum a m p.c) }

/-- `A - M - (1 - C)` as a signed number. -/
def signedDifference (a m : Byte) (c : Bool) : Int := a.toInt - m.toInt - (!c).toNat

/-- The 8-bit difference. -/
def differenceByte (a m : Byte) (c : Bool) : Byte := a - m - BitVec.ofNat 8 (!c).toNat

/-- The flags of a subtraction (10_state.md R27, R32): `C` the inverse of the borrow, the signed overflow, and `SetNZ`. -/
def Flags.afterDifference (p : Flags) (a m : Byte) : Flags :=
  { p.withNZ (differenceByte a m p.c) with
    c := decide (m.toNat + (!p.c).toNat ≤ a.toNat)
    v := decide (signedDifference a m p.c < -128 ∨ 127 < signedDifference a m p.c) }

/-- The flags of a comparison (41_arith_logic.md R170): unsigned, `V` not written. -/
def Flags.afterCompare (p : Flags) (reg m : Byte) : Flags :=
  { p with c := decide (m.toNat ≤ reg.toNat), z := decide (reg = m), n := decide (128 ≤ (reg - m).toNat) }

end Sys2Proof.Machine
end

