-- ==== Sys2Proof/Certificates/Slice0/Obligations.lean ====
section
/-! DEFINITION. The statements for the provers. Each `def Obligations.<Name> : Prop` says what its docstring says; the
vocabulary is Safety.lean's and, at the head of this file, the tables that a statement compares the machine with. -/

namespace Sys2Proof.Machine

/-- The base cycle counts of the opcode map, row by row (30_encoding.md R109, R112); a jam opcode has
`JAM_CYCLES` = 2 (43_undocumented.md R250). -/
def baseCycleRows : List (List Nat) :=
  [[7, 6, 2, 8, 3, 3, 5, 5, 3, 2, 2, 2, 4, 4, 6, 6],
   [2, 5, 2, 8, 4, 4, 6, 6, 2, 4, 2, 7, 4, 4, 7, 7],
   [6, 6, 2, 8, 3, 3, 5, 5, 4, 2, 2, 2, 4, 4, 6, 6],
   [2, 5, 2, 8, 4, 4, 6, 6, 2, 4, 2, 7, 4, 4, 7, 7],
   [6, 6, 2, 8, 3, 3, 5, 5, 3, 2, 2, 2, 3, 4, 6, 6],
   [2, 5, 2, 8, 4, 4, 6, 6, 2, 4, 2, 7, 4, 4, 7, 7],
   [6, 6, 2, 8, 3, 3, 5, 5, 4, 2, 2, 2, 5, 4, 6, 6],
   [2, 5, 2, 8, 4, 4, 6, 6, 2, 4, 2, 7, 4, 4, 7, 7]] ++
  [[2, 6, 2, 6, 3, 3, 3, 3, 2, 2, 2, 2, 4, 4, 4, 4],
   [2, 6, 2, 6, 4, 4, 4, 4, 2, 5, 2, 5, 5, 5, 5, 5],
   [2, 6, 2, 6, 3, 3, 3, 3, 2, 2, 2, 2, 4, 4, 4, 4],
   [2, 5, 2, 5, 4, 4, 4, 4, 2, 4, 2, 4, 4, 4, 4, 4],
   [2, 6, 2, 8, 3, 3, 5, 5, 2, 2, 2, 2, 4, 4, 6, 6],
   [2, 5, 2, 8, 4, 4, 6, 6, 2, 4, 2, 7, 4, 4, 7, 7],
   [2, 6, 2, 8, 3, 3, 5, 5, 2, 2, 2, 2, 4, 4, 6, 6],
   [2, 5, 2, 8, 4, 4, 6, 6, 2, 4, 2, 7, 4, 4, 7, 7]]

/-- The base cycle count of an opcode. -/
def baseCycles (op : Byte) : Nat := (baseCycleRows.getD (op.toNat / 16) []).getD (op.toNat % 16) 0

/-- The opcodes that take one cycle more when the page is crossed (30_encoding.md R113). -/
def penaltyOpcodes : List Byte :=
  [0x11, 0x19, 0x1C, 0x1D, 0x31, 0x39, 0x3C, 0x3D, 0x51, 0x59, 0x5C, 0x5D, 0x71, 0x79] ++
  [0x7C, 0x7D, 0xB1, 0xB3, 0xB9, 0xBB, 0xBC, 0xBD, 0xBE, 0xBF, 0xD1, 0xD9, 0xDC, 0xDD, 0xF1, 0xF9, 0xFC, 0xFD]

/-- The data operand of an instruction, for the instructions that have one. -/
def dataOperand : Instr → Option Operand
  | .lda o | .ldx o | .ldy o | .sta o | .stx o | .sty o => some o
  | .adc o | .sbc o | .and o | .ora o | .eor o | .bit o | .cmp o | .cpx o | .cpy o => some o
  | .inc o | .dec o | .asl o | .lsr o | .rol o | .ror o => some o
  | .nopRead _ o | .slo o | .rla o | .sre o | .rra o | .sax o | .lax o | .dcp o | .isc o | .sha o => some o
  | .las w | .shx w | .tas w => some (.absy w)
  | .shy w => some (.absx w)
  | .nopImm _ b | .anc _ b | .alr b | .arr b | .axs b | .usbc b | .xaa b | .lxa b => some (.imm b)
  | .tax | .tay | .txa | .tya | .tsx | .txs | .pha | .php | .pla | .plp | .inx | .iny | .dex | .dey => none
  | .jmp _ | .jsr _ | .rts | .rti | .brk => none
  | .bpl _ | .bmi _ | .bvc _ | .bvs _ | .bcc _ | .bcs _ | .bne _ | .beq _ => none
  | .clc | .sec | .cli | .sei | .cld | .sed | .clv | .nop | .jam _ | .nopImp _ => none

/-- A branch's condition and offset (42_control_flag.md R217 to R224). -/
def branchOf (p : Flags) : Instr → Option (Bool × Byte)
  | .bpl d => some (!p.n, d)
  | .bmi d => some (p.n, d)
  | .bvc d => some (!p.v, d)
  | .bvs d => some (p.v, d)
  | .bcc d => some (!p.c, d)
  | .bcs d => some (p.c, d)
  | .bne d => some (!p.z, d)
  | .beq d => some (p.z, d)
  | .lda _ | .ldx _ | .ldy _ | .sta _ | .stx _ | .sty _ | .tax | .tay | .txa | .tya | .tsx | .txs | .pha
  | .php | .pla | .plp | .adc _ | .sbc _ | .and _ | .ora _ | .eor _ | .bit _ | .cmp _ | .cpx _ | .cpy _
  | .inc _ | .dec _ | .inx | .iny | .dex | .dey | .asl _ | .lsr _ | .rol _ | .ror _ | .jmp _ | .jsr _
  | .rts | .rti | .brk | .clc | .sec | .cli | .sei | .cld | .sed | .clv | .nop | .jam _ | .nopImp _
  | .nopImm _ _ | .nopRead _ _ | .slo _ | .rla _ | .sre _ | .rra _ | .sax _ | .lax _ | .dcp _ | .isc _
  | .anc _ _ | .alr _ | .arr _ | .axs _ | .usbc _ | .las _ | .xaa _ | .lxa _ | .sha _ | .shx _ | .shy _
  | .tas _ => none

/-- Two addresses lie in different pages (30_encoding.md R108). -/
def differentPage (a b : Word) : Bool := a.toNat / 256 != b.toNat / 256

/-- The cycles beyond the base count (30_encoding.md R112 to R114). -/
def extraCycles (op : Byte) (i : Instr) (s : State) : Nat :=
  let penalty := match dataOperand i with
    | some o => decide (op ∈ penaltyOpcodes) && differentPage (baseAddress o s) (effectiveAddress o s)
    | none => false
  let taken := match branchOf s.p i with
    | some (true, d) => 1 + (differentPage s.pc (branchTarget d s)).toNat
    | some (false, _) | none => 0
  penalty.toNat + taken

/-- An unfixed address: the page of one address, the low byte of another (20_memory.md R64). -/
def unfixed (page low : Word) : Nat := page.toNat / 256 * 256 + low.toNat % 256

/-- The dummy reads of an operand form, for an instruction that writes its operand or only reads it (20_memory.md R64). -/
def formDummyReads (o : Operand) (writes : Bool) (s : State) : List Nat :=
  match o with
  | .acc => if writes then [s.pc.toNat] else []
  | .zpx b | .zpy b | .indx b => [b.toNat]
  | .absx _ | .absy _ | .indy _ =>
    if writes || differentPage (baseAddress o s) (effectiveAddress o s) then
      [unfixed (baseAddress o s) (effectiveAddress o s)]
    else []
  | .imm _ | .zp _ | .abs _ => []

/-- The dummy reads of a branch: of the next instruction if it is taken, and of the unfixed target if that is in another
page (20_memory.md R64). -/
def branchDummyReads (cond : Bool) (d : Byte) (s : State) : List Nat :=
  let target := branchTarget d s
  if cond then s.pc.toNat :: (if differentPage s.pc target then [unfixed s.pc target] else []) else []

/-- The table of the silicon's dummy reads, in the state an instruction's fetch reaches (20_memory.md R64). That `BRK`'s
read of its signature byte is the one of an implied form is the model's reading (log 15). -/
def siliconReads (i : Instr) (s : State) : List Nat :=
  let top := 0x100 + s.sp.toNat
  match i with
  | .lda o | .ldx o | .ldy o | .adc o | .sbc o | .and o | .ora o | .eor o | .bit o | .cmp o | .cpx o | .cpy o
  | .nopRead _ o | .lax o => formDummyReads o false s
  | .las w => formDummyReads (.absy w) false s
  | .sta o | .stx o | .sty o | .sax o | .sha o | .inc o | .dec o | .asl o | .lsr o | .rol o | .ror o
  | .slo o | .rla o | .sre o | .rra o | .dcp o | .isc o => formDummyReads o true s
  | .shx w | .tas w => formDummyReads (.absy w) true s
  | .shy w => formDummyReads (.absx w) true s
  | .tax | .tay | .txa | .tya | .tsx | .txs | .pha | .php | .inx | .iny | .dex | .dey
  | .clc | .sec | .cli | .sei | .cld | .sed | .clv | .nop | .nopImp _ | .jam _ | .brk => [s.pc.toNat]
  | .pla | .plp | .rti => [s.pc.toNat, top]
  | .rts => [s.pc.toNat, top, (s.ram.get (0x100 + (s.sp.toNat + 1) % 256)).toNat +
      256 * (s.ram.get (0x100 + (s.sp.toNat + 2) % 256)).toNat]
  | .jsr _ => [top]
  | .bpl d => branchDummyReads (!s.p.n) d s
  | .bmi d => branchDummyReads s.p.n d s
  | .bvc d => branchDummyReads (!s.p.v) d s
  | .bvs d => branchDummyReads s.p.v d s
  | .bcc d => branchDummyReads (!s.p.c) d s
  | .bcs d => branchDummyReads s.p.c d s
  | .bne d => branchDummyReads (!s.p.z) d s
  | .beq d => branchDummyReads s.p.z d s
  | .jmp _ | .nopImm _ _ | .anc _ _ | .alr _ | .arr _ | .axs _ | .usbc _ | .xaa _ | .lxa _ => []

/-- The table of the silicon's dummy writes: a read-modify-write instruction writes the unmodified value first
(20_memory.md R64). -/
def siliconWrites (i : Instr) (s : State) : List Nat :=
  match i with
  | .inc o | .dec o | .asl o | .lsr o | .rol o | .ror o | .slo o | .rla o | .sre o | .rra o | .dcp o | .isc o =>
    if o.mode = .acc ∨ o.mode = .imm then [] else [(effectiveAddress o s).toNat]
  | .lda _ | .ldx _ | .ldy _ | .adc _ | .sbc _ | .and _ | .ora _ | .eor _ | .bit _ | .cmp _ | .cpx _ | .cpy _
  | .nopRead _ _ | .lax _ | .las _ | .sta _ | .stx _ | .sty _ | .sax _ | .sha _ | .shx _ | .shy _ | .tas _
  | .tax | .tay | .txa | .tya | .tsx | .txs | .pha | .php | .pla | .plp | .inx | .iny | .dex | .dey
  | .clc | .sec | .cli | .sei | .cld | .sed | .clv | .nop | .nopImp _ | .jam _ | .brk | .rti | .rts | .jsr _ | .jmp _
  | .bpl _ | .bmi _ | .bvc _ | .bvs _ | .bcc _ | .bcs _ | .bne _ | .beq _
  | .nopImm _ _ | .anc _ _ | .alr _ | .arr _ | .axs _ | .usbc _ | .xaa _ | .lxa _ => []

/-- The operand of an instruction of the `SH` family (43_undocumented.md R271 to R274). -/
def highStoreOperand : Instr → Option Operand
  | .sha o => some o
  | .shx w | .tas w => some (.absy w)
  | .shy w => some (.absx w)
  | .lda _ | .ldx _ | .ldy _ | .adc _ | .sbc _ | .and _ | .ora _ | .eor _ | .bit _ | .cmp _ | .cpx _ | .cpy _
  | .nopRead _ _ | .lax _ | .las _ | .sta _ | .stx _ | .sty _ | .sax _
  | .inc _ | .dec _ | .asl _ | .lsr _ | .rol _ | .ror _ | .slo _ | .rla _ | .sre _ | .rra _ | .dcp _ | .isc _
  | .tax | .tay | .txa | .tya | .tsx | .txs | .pha | .php | .pla | .plp | .inx | .iny | .dex | .dey
  | .clc | .sec | .cli | .sei | .cld | .sed | .clv | .nop | .nopImp _ | .jam _ | .brk | .rti | .rts | .jsr _ | .jmp _
  | .bpl _ | .bmi _ | .bvc _ | .bvs _ | .bcc _ | .bcs _ | .bne _ | .beq _
  | .nopImm _ _ | .anc _ _ | .alr _ | .arr _ | .axs _ | .usbc _ | .xaa _ | .lxa _ => none

/-- `C` is written (10_state.md R35). -/
def writesC : Instr → Bool
  | .adc _ | .sbc _ | .cmp _ | .cpx _ | .cpy _ | .asl _ | .lsr _ | .rol _ | .ror _ | .clc | .sec | .plp | .rti => true
  | .slo _ | .rla _ | .sre _ | .rra _ | .dcp _ | .isc _ | .anc _ _ | .alr _ | .arr _ | .axs _ | .usbc _ => true
  | .lda _ | .ldx _ | .ldy _ | .sta _ | .stx _ | .sty _ | .tax | .tay | .txa | .tya | .tsx | .txs | .pha
  | .php | .pla | .and _ | .ora _ | .eor _ | .bit _ | .inc _ | .dec _ | .inx | .iny | .dex | .dey
  | .jmp _ | .jsr _ | .rts | .brk | .bpl _ | .bmi _ | .bvc _ | .bvs _ | .bcc _ | .bcs _ | .bne _
  | .beq _ | .cli | .sei | .cld | .sed | .clv | .nop | .jam _ | .nopImp _ | .nopImm _ _ | .nopRead _ _
  | .sax _ | .lax _ | .las _ | .xaa _ | .lxa _ | .sha _ | .shx _ | .shy _ | .tas _ => false

/-- `Z` and `N` are written (10_state.md R35). -/
def writesZN : Instr → Bool
  | .lda _ | .ldx _ | .ldy _ | .tax | .tay | .txa | .tya | .tsx | .pla | .adc _ | .sbc _ | .and _ | .ora _ | .eor _
  | .cmp _ | .cpx _ | .cpy _ | .bit _ | .inc _ | .dec _ | .inx | .iny | .dex | .dey | .asl _ | .lsr _ | .rol _ | .ror _
  | .plp | .rti => true
  | .slo _ | .rla _ | .sre _ | .rra _ | .lax _ | .dcp _ | .isc _ | .anc _ _ | .alr _ | .arr _ | .xaa _ | .lxa _
  | .axs _ | .usbc _ | .las _ => true
  | .sta _ | .stx _ | .sty _ | .txs | .pha | .php | .jmp _ | .jsr _ | .rts | .brk | .bpl _ | .bmi _
  | .bvc _ | .bvs _ | .bcc _ | .bcs _ | .bne _ | .beq _ | .clc | .sec | .cli | .sei | .cld | .sed | .clv
  | .nop | .jam _ | .nopImp _ | .nopImm _ _ | .nopRead _ _ | .sax _ | .sha _ | .shx _ | .shy _ | .tas _ => false

/-- `V` is written (10_state.md R35). -/
def writesV : Instr → Bool
  | .adc _ | .sbc _ | .bit _ | .clv | .plp | .rti | .rra _ | .isc _ | .arr _ | .usbc _ => true
  | .lda _ | .ldx _ | .ldy _ | .sta _ | .stx _ | .sty _ | .tax | .tay | .txa | .tya | .tsx | .txs | .pha
  | .php | .pla | .and _ | .ora _ | .eor _ | .cmp _ | .cpx _ | .cpy _ | .inc _ | .dec _ | .inx | .iny
  | .dex | .dey | .asl _ | .lsr _ | .rol _ | .ror _ | .jmp _ | .jsr _ | .rts | .brk | .bpl _ | .bmi _
  | .bvc _ | .bvs _ | .bcc _ | .bcs _ | .bne _ | .beq _ | .clc | .sec | .cli | .sei | .cld | .sed | .nop
  | .jam _ | .nopImp _ | .nopImm _ _ | .nopRead _ _ | .slo _ | .rla _ | .sre _ | .sax _ | .lax _
  | .dcp _ | .anc _ _ | .alr _ | .axs _ | .las _ | .xaa _ | .lxa _ | .sha _ | .shx _ | .shy _ | .tas _ => false

/-- `I` is written by an instruction (10_state.md R35). -/
def writesI : Instr → Bool
  | .sei | .cli | .plp | .rti | .brk => true
  | .lda _ | .ldx _ | .ldy _ | .sta _ | .stx _ | .sty _ | .tax | .tay | .txa | .tya | .tsx | .txs | .pha
  | .php | .pla | .adc _ | .sbc _ | .and _ | .ora _ | .eor _ | .bit _ | .cmp _ | .cpx _ | .cpy _
  | .inc _ | .dec _ | .inx | .iny | .dex | .dey | .asl _ | .lsr _ | .rol _ | .ror _ | .jmp _ | .jsr _
  | .rts | .bpl _ | .bmi _ | .bvc _ | .bvs _ | .bcc _ | .bcs _ | .bne _ | .beq _ | .clc | .sec | .cld
  | .sed | .clv | .nop | .jam _ | .nopImp _ | .nopImm _ _ | .nopRead _ _ | .slo _ | .rla _ | .sre _
  | .rra _ | .sax _ | .lax _ | .dcp _ | .isc _ | .anc _ _ | .alr _ | .arr _ | .axs _ | .usbc _ | .las _
  | .xaa _ | .lxa _ | .sha _ | .shx _ | .shy _ | .tas _ => false

/-- `D` is written (10_state.md R35). -/
def writesD : Instr → Bool
  | .sed | .cld | .plp | .rti => true
  | .lda _ | .ldx _ | .ldy _ | .sta _ | .stx _ | .sty _ | .tax | .tay | .txa | .tya | .tsx | .txs | .pha
  | .php | .pla | .adc _ | .sbc _ | .and _ | .ora _ | .eor _ | .bit _ | .cmp _ | .cpx _ | .cpy _
  | .inc _ | .dec _ | .inx | .iny | .dex | .dey | .asl _ | .lsr _ | .rol _ | .ror _ | .jmp _ | .jsr _
  | .rts | .brk | .bpl _ | .bmi _ | .bvc _ | .bvs _ | .bcc _ | .bcs _ | .bne _ | .beq _ | .clc | .sec
  | .cli | .sei | .clv | .nop | .jam _ | .nopImp _ | .nopImm _ _ | .nopRead _ _ | .slo _ | .rla _
  | .sre _ | .rra _ | .sax _ | .lax _ | .dcp _ | .isc _ | .anc _ _ | .alr _ | .arr _ | .axs _ | .usbc _
  | .las _ | .xaa _ | .lxa _ | .sha _ | .shx _ | .shy _ | .tas _ => false

/-- `A` is written (10_state.md R21); a shift writes it in its accumulator form. -/
def writesA : Instr → Bool
  | .lda _ | .pla | .txa | .tya | .adc _ | .sbc _ | .and _ | .ora _ | .eor _ => true
  | .asl o | .lsr o | .rol o | .ror o => decide (o = .acc)
  | .slo _ | .rla _ | .sre _ | .rra _ | .lax _ | .isc _ | .anc _ _ | .alr _ | .arr _ | .xaa _ | .lxa _ | .las _
  | .usbc _ => true
  | .ldx _ | .ldy _ | .sta _ | .stx _ | .sty _ | .tax | .tay | .tsx | .txs | .pha | .php | .plp | .bit _
  | .cmp _ | .cpx _ | .cpy _ | .inc _ | .dec _ | .inx | .iny | .dex | .dey | .jmp _ | .jsr _ | .rts
  | .rti | .brk | .bpl _ | .bmi _ | .bvc _ | .bvs _ | .bcc _ | .bcs _ | .bne _ | .beq _ | .clc | .sec
  | .cli | .sei | .cld | .sed | .clv | .nop | .jam _ | .nopImp _ | .nopImm _ _ | .nopRead _ _ | .sax _
  | .dcp _ | .axs _ | .sha _ | .shx _ | .shy _ | .tas _ => false

/-- `X` is written (10_state.md R22). -/
def writesX : Instr → Bool
  | .ldx _ | .tax | .tsx | .inx | .dex | .lax _ | .lxa _ | .axs _ | .las _ => true
  | .lda _ | .ldy _ | .sta _ | .stx _ | .sty _ | .tay | .txa | .tya | .txs | .pha | .php | .pla | .plp
  | .adc _ | .sbc _ | .and _ | .ora _ | .eor _ | .bit _ | .cmp _ | .cpx _ | .cpy _ | .inc _ | .dec _
  | .iny | .dey | .asl _ | .lsr _ | .rol _ | .ror _ | .jmp _ | .jsr _ | .rts | .rti | .brk | .bpl _
  | .bmi _ | .bvc _ | .bvs _ | .bcc _ | .bcs _ | .bne _ | .beq _ | .clc | .sec | .cli | .sei | .cld
  | .sed | .clv | .nop | .jam _ | .nopImp _ | .nopImm _ _ | .nopRead _ _ | .slo _ | .rla _ | .sre _
  | .rra _ | .sax _ | .dcp _ | .isc _ | .anc _ _ | .alr _ | .arr _ | .usbc _ | .xaa _ | .sha _ | .shx _
  | .shy _ | .tas _ => false

/-- `Y` is written (10_state.md R23). -/
def writesY : Instr → Bool
  | .ldy _ | .tay | .iny | .dey => true
  | .lda _ | .ldx _ | .sta _ | .stx _ | .sty _ | .tax | .txa | .tya | .tsx | .txs | .pha | .php | .pla
  | .plp | .adc _ | .sbc _ | .and _ | .ora _ | .eor _ | .bit _ | .cmp _ | .cpx _ | .cpy _ | .inc _
  | .dec _ | .inx | .dex | .asl _ | .lsr _ | .rol _ | .ror _ | .jmp _ | .jsr _ | .rts | .rti | .brk
  | .bpl _ | .bmi _ | .bvc _ | .bvs _ | .bcc _ | .bcs _ | .bne _ | .beq _ | .clc | .sec | .cli | .sei
  | .cld | .sed | .clv | .nop | .jam _ | .nopImp _ | .nopImm _ _ | .nopRead _ _ | .slo _ | .rla _
  | .sre _ | .rra _ | .sax _ | .lax _ | .dcp _ | .isc _ | .anc _ _ | .alr _ | .arr _ | .axs _ | .usbc _
  | .las _ | .xaa _ | .lxa _ | .sha _ | .shx _ | .shy _ | .tas _ => false

/-- `SP` is written (10_state.md R24). -/
def writesSp : Instr → Bool
  | .txs | .pha | .php | .pla | .plp | .jsr _ | .rts | .rti | .brk | .tas _ | .las _ => true
  | .lda _ | .ldx _ | .ldy _ | .sta _ | .stx _ | .sty _ | .tax | .tay | .txa | .tya | .tsx | .adc _
  | .sbc _ | .and _ | .ora _ | .eor _ | .bit _ | .cmp _ | .cpx _ | .cpy _ | .inc _ | .dec _ | .inx
  | .iny | .dex | .dey | .asl _ | .lsr _ | .rol _ | .ror _ | .jmp _ | .bpl _ | .bmi _ | .bvc _ | .bvs _
  | .bcc _ | .bcs _ | .bne _ | .beq _ | .clc | .sec | .cli | .sei | .cld | .sed | .clv | .nop | .jam _
  | .nopImp _ | .nopImm _ _ | .nopRead _ _ | .slo _ | .rla _ | .sre _ | .rra _ | .sax _ | .lax _
  | .dcp _ | .isc _ | .anc _ _ | .alr _ | .arr _ | .axs _ | .usbc _ | .xaa _ | .lxa _ | .sha _ | .shx _
  | .shy _ => false

/-- `PC` is written beyond the fetch (42_control_flag.md). -/
def writesPc : Instr → Bool
  | .jmp _ | .jsr _ | .rts | .rti | .brk => true
  | .bpl _ | .bmi _ | .bvc _ | .bvs _ | .bcc _ | .bcs _ | .bne _ | .beq _ => true
  | .lda _ | .ldx _ | .ldy _ | .sta _ | .stx _ | .sty _ | .tax | .tay | .txa | .tya | .tsx | .txs | .pha
  | .php | .pla | .plp | .adc _ | .sbc _ | .and _ | .ora _ | .eor _ | .bit _ | .cmp _ | .cpx _ | .cpy _
  | .inc _ | .dec _ | .inx | .iny | .dex | .dey | .asl _ | .lsr _ | .rol _ | .ror _ | .clc | .sec | .cli
  | .sei | .cld | .sed | .clv | .nop | .jam _ | .nopImp _ | .nopImm _ _ | .nopRead _ _ | .slo _ | .rla _
  | .sre _ | .rra _ | .sax _ | .lax _ | .dcp _ | .isc _ | .anc _ _ | .alr _ | .arr _ | .axs _ | .usbc _
  | .las _ | .xaa _ | .lxa _ | .sha _ | .shx _ | .shy _ | .tas _ => false

/-- The instruction reads or writes the decimal flag: it pushes or writes the status. -/
def touchesD : Instr → Bool
  | .php | .brk | .plp | .rti | .sed | .cld => true
  | .lda _ | .ldx _ | .ldy _ | .sta _ | .stx _ | .sty _ | .tax | .tay | .txa | .tya | .tsx | .txs | .pha
  | .pla | .adc _ | .sbc _ | .and _ | .ora _ | .eor _ | .bit _ | .cmp _ | .cpx _ | .cpy _ | .inc _
  | .dec _ | .inx | .iny | .dex | .dey | .asl _ | .lsr _ | .rol _ | .ror _ | .jmp _ | .jsr _ | .rts
  | .bpl _ | .bmi _ | .bvc _ | .bvs _ | .bcc _ | .bcs _ | .bne _ | .beq _ | .clc | .sec | .cli | .sei
  | .clv | .nop | .jam _ | .nopImp _ | .nopImm _ _ | .nopRead _ _ | .slo _ | .rla _ | .sre _ | .rra _
  | .sax _ | .lax _ | .dcp _ | .isc _ | .anc _ _ | .alr _ | .arr _ | .axs _ | .usbc _ | .las _ | .xaa _
  | .lxa _ | .sha _ | .shx _ | .shy _ | .tas _ => false

/-- `s` with the decimal flag replaced. -/
def State.withD (d : Bool) (s : State) : State := { s with p := { s.p with d := d } }

/-- `n` dots of the picture unit. -/
def Ppu.ticks : Nat → Ppu → Ppu
  | 0, u => u
  | n + 1, u => (Ppu.ticks n u).tick

/-- `n` reads of `$4016`, one after another. -/
def padReads : Nat → State → State
  | 0, s => s
  | n + 1, s => (busRead 0x4016 (padReads n s)).2

/-- `n` sample bytes taken by the audio unit. -/
def Apu.samples (bytes : Nat → Byte) : Nat → Apu → Apu
  | 0, u => u
  | n + 1, u => (Apu.samples bytes n u).takeSample (bytes n)

/-- `n` ticks of the audio unit. -/
def Apu.ticks : Nat → Apu → Apu
  | 0, u => u
  | n + 1, u => (Apu.ticks n u).tick

/-- The state of a step's start, its counters 0, no interrupt taken (70_reset_and_hazards.md R380). -/
def State.stepStart (s : State) : State := { s with stall := 0, stepCycles := 0, oamDma := none }

end Sys2Proof.Machine

open Sys2Proof Sys2Proof.Machine

/-! ## Encoding -/

/-- Decoding the bytes of any well-formed instruction, with any bytes after them, gives it back with all its operands. -/
def Obligations.DecodeEncodeRoundTrip : Prop :=
  ∀ (i : Instr) (rest : List Byte), i.wellFormed = true → decode (encode i ++ rest) = .ok (i, rest)

/-- Whatever the decoder reads is a well-formed instruction, and its bytes are exactly the bytes consumed. -/
def Obligations.EncodeDecodeRoundTrip : Prop :=
  ∀ (bytes : List Byte) (i : Instr) (rest : List Byte),
    decode bytes = .ok (i, rest) → i.wellFormed = true ∧ encode i ++ rest = bytes

/-- The decoder is total on opcode bytes: with two bytes after it every opcode is an instruction, whose length depends
on the opcode alone; bytes are rejected exactly when there is none, or fewer operand bytes than the opcode's length asks
for. An encoding is marked documented exactly when its mnemonic is, 151 of the 256. -/
def Obligations.DecoderTotal : Prop :=
  (∀ (op b1 b2 : Byte) (rest : List Byte), ∃ i tail, decode (op :: b1 :: b2 :: rest) = .ok (i, tail)) ∧
  (∀ (op b1 b2 c1 c2 : Byte) (i j : Instr) (ti tj : List Byte),
    decode [op, b1, b2] = .ok (i, ti) → decode [op, c1, c2] = .ok (j, tj) → ti.length = tj.length) ∧
  (∃ e, decode [] = .error e) ∧
  (∀ (op : Byte) (operands : List Byte) (i : Instr) (unused : List Byte), decode [op, 0, 0] = .ok (i, unused) →
    ((∃ e, decode (op :: operands) = .error e) ↔ (op :: operands).length < 3 - unused.length)) ∧
  (∀ (op : Byte) (operands : List Byte) (i : Instr) (tail : List Byte),
    decode (op :: operands) = .ok (i, tail) → documented op = i.documented) ∧
  ((List.range 256).countP fun n => documented (BitVec.ofNat 8 n)) = 151

/-- The three encodings the source's example fixes, and one word of each other family written out from the opcode map. -/
def Obligations.SampleWordsDecode : Prop :=
  decode [0xA9, 0x05] = .ok (.lda (.imm 0x05), []) ∧
  decode [0x8D, 0x00, 0x10] = .ok (.sta (.abs 0x1000), []) ∧
  decode [0xAD, 0x00, 0x10] = .ok (.lda (.abs 0x1000), []) ∧
  decode [0x71, 0x20] = .ok (.adc (.indy 0x20), []) ∧
  decode [0x6C, 0xFF, 0x10] = .ok (.jmp (.ind 0x10FF), []) ∧
  decode [0x03, 0x40] = .ok (.slo (.indx 0x40), []) ∧
  decode [0x02] = .ok (.jam 0x02, [])

/-! ## The step -/

/-- When the bytes at the program counter that the poll leaves decode to a well-formed instruction that no refusal rule
names, the step runs it with `PC` past its bytes, and then does sprite DMA and the clock. -/
def Obligations.StepRunsDecodedInstruction : Prop :=
  ∀ (i : Instr) (s : State),
    let t := beginStep params s
    let f := t.setPc (t.pc + BitVec.ofNat 16 (encode i).length)
    i.wellFormed = true → s.running = true → BytesAt t t.pc (encode i) →
    entryRefused (pollInterrupt params s) s.pc = false → refusalOf params i f = none →
    ∃ u, exec i f = .next u ∧ step s = .next (endStep params i t.p.i u)

/-- The interrupt poll at the start of a step: a pending NMI first, whatever `I` holds; else an IRQ if `Ipoll` is 0; else
nothing. An entry pushes `PC` high, `PC` low and the status image with break-marker 0, sets `I`, loads the vector, costs 7
cycles, and changes nothing else but the pending NMI it serves. -/
def Obligations.InterruptPollAndEntry : Prop :=
  ∀ (p : Params) (s : State), s.wf = true →
    let t := beginStep p s
    let entered := fun (vec : Word) (pending : Bool) =>
      (∃ lo hi, s.peek vec = some lo ∧ s.peek (vec + 1) = some hi ∧
        t = { s.stepStart with
              ram := t.ram, sp := s.sp - 3, p := { s.p with i := true }, pc := mkWord hi lo
              stepCycles := 7, nmiPending := pending }) ∧
      t.peek (stackAddr s.sp) = some (hiByte s.pc) ∧
      t.peek (stackAddr (s.sp - 1)) = some (loByte s.pc) ∧
      t.peek (stackAddr (s.sp - 2)) = some (s.p.image false) ∧
      ∀ b, sameStorage (stackAddr s.sp) b = false → sameStorage (stackAddr (s.sp - 1)) b = false →
        sameStorage (stackAddr (s.sp - 2)) b = false → t.peek b = s.peek b
    let masked := match p.irqPollISource with
      | .current => s.p.i
      | .delayed => s.iPoll
    (s.nmiPending = true → entered 0xFFFA false) ∧
    (s.nmiPending = false → s.irqLine = true → masked = false → entered 0xFFFE false) ∧
    (s.nmiPending = false → (s.irqLine = false ∨ masked = true) → t = s.stepStart)

/-- A halted machine does nothing: no access, no cycle, no device, whatever interrupt is pending; reset clears it. -/
def Obligations.HaltedStepChangesNothing : Prop :=
  ∀ (p : Params) (s : State), s.halted = true → s.refused = false →
    stepReport p s = (.halted, s) ∧ stepWith p s = .next s ∧ (resetWith p s).halted = false

/-- A refused step leaves the state of its start, only marked; every later step is refused as sticky; reset clears it. -/
def Obligations.RefusedStepRestores : Prop :=
  ∀ (p : Params) (s t : State) (r : Refusal), stepReport p s = (.refused r, t) →
    t = { s with refused := true } ∧ stepWith p s = .refused r ∧
    stepReport p t = (.refused .sticky, t) ∧ (resetWith p t).refused = false

/-- A machine that is neither halted nor refused runs its step unless one of the three refusal rules names it: a dummy
access of the silicon with a side effect, an entry's reads of `PC` included; a `JSR` whose third byte is a byte it pushes
to; an `SH` instruction with the page crossed under `SH_UNSTABLE = refuse`. That `BRK`'s read of its signature byte is a
dummy read is the model's reading of R64 (log 15), and that a mirror of a pushed byte counts is its reading of R212
(log 16). -/
def Obligations.StepRunsUnlessRefusalRule : Prop :=
  ∀ (p : Params) (s : State), s.running = true →
    let f := fetch (beginStep p s)
    let third := (f.2.pc - 1).toNat
    ((∃ k t, stepReport p s = (.ran k, t)) ↔
      ¬ ((s.nmiPending || (!ipoll p s && s.irqLine)) = true ∧ seRead s.pc = true) ∧
      (∀ a : Word, a.toNat ∈ siliconReads f.1 f.2 → seRead a = false) ∧
      (∀ a : Word, a.toNat ∈ siliconWrites f.1 f.2 → seWrite f.2.cart a = false) ∧
      (∀ w, f.1 = .jsr w → third < 0x2000 →
        third % 0x800 ≠ 0x100 + f.2.sp.toNat ∧ third % 0x800 ≠ 0x100 + (f.2.sp - 1).toNat) ∧
      (p.shUnstable = .refuse → ∀ o, highStoreOperand f.1 = some o →
        differentPage (baseAddress o f.2) (effectiveAddress o f.2) = false))

/-- A step that ran adds to `cyc` exactly the cycles it reports, interrupt entry and stalls included. -/
def Obligations.StepAddsItsCyclesToCyc : Prop :=
  ∀ (p : Params) (s t : State) (k : Nat), stepReport p s = (.ran k, t) → t.cyc = s.cyc + k ∧ 2 ≤ k

/-- After a step that ran, the CPU's samples of the two lines are the devices' outputs: the level-sensitive IRQ has no
latch, and `nmi_prev` is the NMI output. -/
def Obligations.LinesSampledAfterStep : Prop :=
  ∀ (p : Params) (s t : State) (k : Nat), stepReport p s = (.ran k, t) →
    t.irqLine = (t.apu.frameIrq || t.apu.dmcIrq) ∧ t.nmiPrev = (t.ppu.blank && t.ppu.ctrl.getLsbD 7)

/-- A pending NMI is not lost: no instruction and no cycle clears it. -/
def Obligations.PendingNmiPersists : Prop :=
  (∀ (i : Instr) (s t : State), exec i s = .next t → t.nmiPending = s.nmiPending) ∧
  (∀ (p : Params) (k : Nat) (s : State), s.nmiPending = true → (clock p k s).nmiPending = true) ∧
  (∀ (s : State), s.nmiPending = false → s.nmiPrev = true → (sampleLines s).nmiPending = false) ∧
  (∀ (s : State), s.nmiPrev = false → s.ppu.blank = true → s.ppu.ctrl.getLsbD 7 = true →
    (sampleLines s).nmiPending = true)

/-- The `I` that the next poll reads under `IRQ_POLL_I_SOURCE = delayed`: after `CLI`, `SEI` and `PLP` the one from before
the instruction, after every other instruction the one it leaves; under `current` the bit is not kept. -/
def Obligations.DelayedInterruptMask : Prop :=
  ∀ (p : Params) (s t : State) (k : Nat), stepReport p s = (.ran k, t) →
    let f := fetch (beginStep p s)
    (p.irqPollISource = .delayed →
      t.iPoll = (if f.1 = .cli ∨ f.1 = .sei ∨ f.1 = .plp then f.2.p.i else t.p.i)) ∧
    (p.irqPollISource = .current → t.iPoll = s.iPoll)

/-- `k` CPU cycles in which the sample channel is inactive: three dots of the picture unit each, one audio tick for each
of them that ends at an even count; nothing else changes but the sampled lines. -/
def Obligations.ClockAdvancesDevices : Prop :=
  ∀ (p : Params) (k : Nat) (s : State), s.apu.dmcRemaining = 0 →
    let t := clock p k s
    t.cyc = s.cyc + k ∧ t.ppu = Ppu.ticks (3 * k) s.ppu ∧ t.apu = Apu.ticks ((s.cyc + k) / 2 - s.cyc / 2) s.apu ∧
    t = { s with
          cyc := t.cyc, ppu := t.ppu, apu := t.apu
          nmiPending := t.nmiPending, nmiPrev := t.nmiPrev, irqLine := t.irqLine }

/-- No instruction faults and none is refused by its meaning: each answers a next state, in every state, and writes no
hidden state but the halt. -/
def Obligations.EveryInstructionAnswersNext : Prop :=
  ∀ (i : Instr) (s : State), ∃ t, exec i s = .next t ∧ t.hidden = s.hidden ∧
    (t.halted = s.halted ∨ ∃ op, i = .jam op)

/-- The invariant is kept by every step: the memories stay canonical and in their sizes, the dot counter inside the
frame, the mapper's accumulator below five bits, the frame sequencer inside its sequence. -/
def Obligations.StepKeepsInvariant : Prop :=
  ∀ s t : State, s.wf = true → step s = .next t → t.wf = true

/-- The invariant holds right after reset, whatever the parameters, and at `State.reset`. -/
def Obligations.ResetMeetsInvariant : Prop :=
  State.reset.wf = true ∧ ∀ (p : Params) (s : State), s.wf = true → (resetWith p s).wf = true

/-! ## What every instruction leaves alone, and its cycles -/

/-- The flag-writer summary: a flag that the table does not list for an instruction is unchanged by it. -/
def Obligations.FlagWriterSummary : Prop :=
  ∀ (i : Instr) (s t : State), exec i s = .next t →
    (writesC i = false → t.p.c = s.p.c) ∧ (writesZN i = false → t.p.z = s.p.z ∧ t.p.n = s.p.n) ∧
    (writesV i = false → t.p.v = s.p.v) ∧ (writesI i = false → t.p.i = s.p.i) ∧ (writesD i = false → t.p.d = s.p.d)

/-- A register is written only by the instructions its rule names. -/
def Obligations.RegisterWriterSummary : Prop :=
  ∀ (i : Instr) (s t : State), i.wellFormed = true → exec i s = .next t →
    (writesA i = false → t.a = s.a) ∧ (writesX i = false → t.x = s.x) ∧ (writesY i = false → t.y = s.y) ∧
    (writesSp i = false → t.sp = s.sp) ∧ (writesPc i = false → t.pc = s.pc)

/-- The cycles of every instruction: the opcode map's base count, one more for the listed opcodes when the page is
crossed, and a branch's one or two when it is taken. -/
def Obligations.CyclesFollowOpcodeMap : Prop :=
  ∀ (i : Instr) (s t : State) (op : Byte) (operands : List Byte),
    i.wellFormed = true → encode i = op :: operands → exec i s = .next t →
    t.stepCycles = s.stepCycles + baseCycles op + extraCycles op i s

/-- Decimal mode has no effect: but for the instructions that push or write the status, the decimal flag changes nothing
that an instruction does; and the four that write it do the same whatever it was. -/
def Obligations.DecimalFlagHasNoEffect : Prop :=
  (∀ (i : Instr) (d : Bool) (s t : State), touchesD i = false → exec i s = .next t →
    exec i (s.withD d) = .next (t.withD d)) ∧
  (∀ (d : Bool) (s : State), exec .plp (s.withD d) = exec .plp s ∧ exec .rti (s.withD d) = exec .rti s ∧
    exec .sed (s.withD d) = exec .sed s ∧ exec .cld (s.withD d) = exec .cld s)

/-! ## The bus -/

/-- Work RAM: an access below `$2000` reaches cell `a & $07FF`, a read has no side effect, and a write changes that cell
and nothing else; a read of the cell or a mirror then gives the byte written. -/
def Obligations.WorkRamMirrors : Prop :=
  ∀ (s : State) (a : Word) (v : Byte), s.wf = true → a.toNat < 0x2000 →
    busRead a s = (s.ram.get (a.toNat &&& 0x07FF), s) ∧
    busWrite a v s = { s with ram := (busWrite a v s).ram } ∧ StoresByte a v s (busWrite a v s) ∧
    ∀ b : Word, b.toNat < 0x2000 →
      (busRead b (busWrite a v s)).1 =
        if b.toNat &&& 0x07FF = a.toNat &&& 0x07FF then v else (busRead b s).1

/-- A write to program ROM changes no byte of it: under the fixed mapping nothing at all, under the shift-register
variant at most the mapper's registers. -/
def Obligations.RomWritesDiscarded : Prop :=
  ∀ (s : State) (a : Word) (v : Byte), 0x8000 ≤ a.toNat →
    (s.cart.mapper = .fixed → busWrite a v s = s) ∧
    (busWrite a v s).cart.prgRom = s.cart.prgRom ∧
    busWrite a v s = { s with cart := (busWrite a v s).cart } ∧
    (busWrite a v s).cart =
      { s.cart with
        shift := (busWrite a v s).cart.shift, count := (busWrite a v s).cart.count
        control := (busWrite a v s).cart.control, chr0 := (busWrite a v s).cart.chr0
        chr1 := (busWrite a v s).cart.chr1, prg := (busWrite a v s).cart.prg
        controlCommitted := (busWrite a v s).cart.controlCommitted }

/-- An address no device drives reads as the next draw of `OPEN_BUS`, and the read changes nothing but the draw counter:
`$4018` to `$5FFF`, the write-only registers `$4000` to `$4014`, and the write-only picture-unit registers,
which the model takes to be `$2000`, `$2001`, `$2003`, `$2005` and `$2006` (log 40). -/
def Obligations.OpenBusReads : Prop :=
  ∀ (s : State) (a : Word),
    (0x4018 ≤ a.toNat ∧ a.toNat < 0x6000) ∨ (0x4000 ≤ a.toNat ∧ a.toNat ≤ 0x4014) ∨
      (0x2000 ≤ a.toNat ∧ a.toNat < 0x4000 ∧ a.toNat % 8 ∈ [0, 1, 3, 5, 6]) →
    busRead a s = (Config.openBus s.draws, { s with draws := s.draws + 1 })

/-- A read outside `SE_read` has no side effect (only the model's draw counter can move), and `SE_read` is the picture
unit's status and data registers with their mirrors, `$4015`, `$4016` and `$4017`. A write outside `SE_write` changes
nothing but a byte of work RAM or program RAM, and `SE_write` is `$2000` to `$4017` and, under the shift-register variant,
`$8000` to `$FFFF`. -/
def Obligations.ReadsWithSideEffects : Prop :=
  ∀ (s : State) (a : Word) (v : Byte),
    (seRead a = true ↔
      (0x2000 ≤ a.toNat ∧ a.toNat < 0x4000 ∧ (a.toNat % 8 = 2 ∨ a.toNat % 8 = 7)) ∨
        a.toNat = 0x4015 ∨ a.toNat = 0x4016 ∨ a.toNat = 0x4017) ∧
    (seRead a = false → (busRead a s).2 = { s with draws := (busRead a s).2.draws }) ∧
    (seWrite s.cart a = true ↔
      (0x2000 ≤ a.toNat ∧ a.toNat ≤ 0x4017) ∨ (s.cart.mapper = .shiftRegister ∧ 0x8000 ≤ a.toNat)) ∧
    (seWrite s.cart a = false →
      let t := busWrite a v s
      t = { s with ram := t.ram, cart := { s.cart with prgRam := t.cart.prgRam } } ∧
      (0x2000 ≤ a.toNat → t.ram = s.ram) ∧ (a.toNat < 0x6000 ∨ 0x8000 ≤ a.toNat → t.cart = s.cart))

/-- A 16-bit read is two one-byte accesses, low byte first, the second at the next address modulo `$10000`. -/
def Obligations.WordsAreLittleEndian : Prop :=
  ∀ (s : State) (a a' : Word), a'.toNat = (a.toNat + 1) % 0x10000 →
    (read16 a s).1.toNat = (busRead a s).1.toNat + 256 * (busRead a' (busRead a s).2).1.toNat ∧
    (read16 a s).2 = (busRead a' (busRead a s).2).2

/-- The effective address of every form, and when it crosses a page: the zero-page forms wrap within page zero, a
pointer's second byte too, an indexed absolute address carries into its high byte and wraps at `$10000`. -/
def Obligations.EffectiveAddresses : Prop :=
  ∀ (s : State) (b : Byte) (w : Word),
    let ea := fun o => (effectiveAddress o s).toNat
    let cell := fun n => (s.ram.get (n % 256)).toNat
    let x := s.x.toNat
    let y := s.y.toNat
    let crosses := fun (base sum : Nat) => decide (base / 256 ≠ sum % 65536 / 256)
    let px := b.toNat + x
    let indirect := cell b.toNat + 256 * cell (b.toNat + 1)
    (ea (.zp b) = b.toNat ∧ pageCrossed (.zp b) s = false) ∧
    (ea (.zpx b) = (b.toNat + x) % 256 ∧ pageCrossed (.zpx b) s = false) ∧
    (ea (.zpy b) = (b.toNat + y) % 256 ∧ pageCrossed (.zpy b) s = false) ∧
    (ea (.abs w) = w.toNat ∧ pageCrossed (.abs w) s = false) ∧
    (ea (.absx w) = (w.toNat + x) % 65536 ∧ pageCrossed (.absx w) s = crosses w.toNat (w.toNat + x)) ∧
    (ea (.absy w) = (w.toNat + y) % 65536 ∧ pageCrossed (.absy w) s = crosses w.toNat (w.toNat + y)) ∧
    (ea (.indx b) = cell px + 256 * cell (px + 1) ∧ pageCrossed (.indx b) s = false) ∧
    (ea (.indy b) = (indirect + y) % 65536 ∧ pageCrossed (.indy b) s = crosses indirect (indirect + y))

/-- The operand value: the immediate byte, the accumulator, or one bus read at the effective address. -/
def Obligations.OperandValues : Prop :=
  ∀ (s : State) (b : Byte) (o : Operand),
    readOperand (.imm b) s = (b, s) ∧ readOperand .acc s = (s.a, s) ∧
    (o.mode ≠ .imm → o.mode ≠ .acc →
      readOperand o s = busRead (effectiveAddress o s) s ∧
      ∀ v, s.peek (effectiveAddress o s) = some v → readOperand o s = (v, s))

/-! ## Loads, stores, transfers, stack -/

/-- Loads read `M` once, write their register, `Z` and `N`, and nothing else; every form, every operand. -/
def Obligations.LoadsWriteRegisterAndZN : Prop :=
  ∀ (s : State) (o : Operand),
    let m := (readOperand o s).1
    let u := { s.withDevices (readOperand o s).2 with
               p := s.p.withNZ m, stepCycles := s.stepCycles + readCycles o s }
    SameMemory s u ∧
    exec (.lda o) s = .next { u with a := m } ∧ exec (.ldx o) s = .next { u with x := m } ∧
    exec (.ldy o) s = .next { u with y := m } ∧ exec (.lax o) s = .next { u with a := m, x := m }

/-- Stores write their value at the effective address, once, and no register and no flag. -/
def Obligations.StoresWriteMemoryOnly : Prop :=
  ∀ (s : State) (o : Operand), s.wf = true →
    let stored := fun (i : Instr) (v : Byte) => i.wellFormed = true → ∃ t, exec i s = .next t ∧
      t = { s.withStore (busWrite (effectiveAddress o s) v s) with stepCycles := s.stepCycles + writeCycles o } ∧
      StoresByte (effectiveAddress o s) v s t
    stored (.sta o) s.a ∧ stored (.stx o) s.x ∧ stored (.sty o) s.y ∧ stored (.sax o) (s.a &&& s.x)

/-- Transfers and register increments write one register and, `TXS` excepted, `Z` and `N`. -/
def Obligations.RegisterTransfersAndIncrements : Prop :=
  ∀ s : State,
    let u := { s with stepCycles := s.stepCycles + 2 }
    exec .tax s = .next { u with x := s.a, p := s.p.withNZ s.a } ∧
    exec .tay s = .next { u with y := s.a, p := s.p.withNZ s.a } ∧
    exec .txa s = .next { u with a := s.x, p := s.p.withNZ s.x } ∧
    exec .tya s = .next { u with a := s.y, p := s.p.withNZ s.y } ∧
    exec .tsx s = .next { u with x := s.sp, p := s.p.withNZ s.sp } ∧
    exec .txs s = .next { u with sp := s.x } ∧
    exec .inx s = .next { u with x := s.x + 1, p := s.p.withNZ (s.x + 1) } ∧
    exec .iny s = .next { u with y := s.y + 1, p := s.p.withNZ (s.y + 1) } ∧
    exec .dex s = .next { u with x := s.x - 1, p := s.p.withNZ (s.x - 1) } ∧
    exec .dey s = .next { u with y := s.y - 1, p := s.p.withNZ (s.y - 1) } ∧
    SameMemory s u

/-- The byte image of the status, and the flags a pulled byte gives back: bits 4 and 5 are pushed, not stored. -/
def Obligations.StatusByteImage : Prop :=
  ∀ (p : Flags) (b : Bool) (v : Byte),
    (p.image b).toNat = 128 * p.n.toNat + 64 * p.v.toNat + 32 + 16 * b.toNat + 8 * p.d.toNat + 4 * p.i.toNat +
      2 * p.z.toNat + p.c.toNat ∧
    Flags.ofByte (p.image b) = p ∧
    Flags.ofByte v = ⟨v.getLsbD 0, v.getLsbD 1, v.getLsbD 2, v.getLsbD 3, v.getLsbD 6, v.getLsbD 7⟩ ∧
    (Flags.ofByte v).image b = (v &&& 0xCF) ||| (if b then 0x30 else 0x20)

/-- A push writes `$0100 | SP` and decrements `SP`; a pull increments `SP` and reads `$0100 | SP`; both modulo 256, within
page `$01`. `PHP` pushes break-marker 1; `PLA` writes `A`, `Z`, `N`; `PLP` writes every flag. -/
def Obligations.StackPushAndPull : Prop :=
  ∀ s : State, s.wf = true →
    let pushed := fun (i : Instr) (v : Byte) => ∃ t, exec i s = .next t ∧
      t = { s with ram := t.ram, sp := s.sp - 1, stepCycles := s.stepCycles + 3 } ∧ StoresByte (stackAddr s.sp) v s t
    pushed .pha s.a ∧ pushed .php (s.p.image true) ∧
    ∃ v, s.peek (stackAddr (s.sp + 1)) = some v ∧
      let u := { s with sp := s.sp + 1, stepCycles := s.stepCycles + 4 }
      SameMemory s u ∧
      exec .pla s = .next { u with a := v, p := s.p.withNZ v } ∧
      exec .plp s = .next { u with p := Flags.ofByte v }

/-! ## Arithmetic, logic, compare, shift -/

/-- `ADC`, `SBC` and the undocumented `SBC` add and subtract in binary whatever `D` holds: the 8-bit result in `A`, `C` the
carry or no-borrow, `V` the signed overflow, `Z` and `N` of the result. -/
def Obligations.AddAndSubtractWithCarry : Prop :=
  ∀ (s : State) (o : Operand) (b : Byte),
    let m := (readOperand o s).1
    let u := { s.withDevices (readOperand o s).2 with stepCycles := s.stepCycles + readCycles o s }
    SameMemory s u ∧
    exec (.adc o) s = .next { u with a := sumByte s.a m s.p.c, p := s.p.afterSum s.a m } ∧
    exec (.sbc o) s = .next { u with a := differenceByte s.a m s.p.c, p := s.p.afterDifference s.a m } ∧
    exec (.usbc b) s = .next { s with
      a := differenceByte s.a b s.p.c, p := s.p.afterDifference s.a b, stepCycles := s.stepCycles + 2 }

/-- `AND`, `ORA`, `EOR` write `A`, `Z` and `N`; `BIT` writes `Z` from `A & M`, `N` and `V` from `M` alone, and not `A`. -/
def Obligations.LogicAndBitTest : Prop :=
  ∀ (s : State) (o : Operand),
    let m := (readOperand o s).1
    let u := { s.withDevices (readOperand o s).2 with stepCycles := s.stepCycles + readCycles o s }
    SameMemory s u ∧
    exec (.and o) s = .next { u with a := s.a &&& m, p := s.p.withNZ (s.a &&& m) } ∧
    exec (.ora o) s = .next { u with a := s.a ||| m, p := s.p.withNZ (s.a ||| m) } ∧
    exec (.eor o) s = .next { u with a := s.a ^^^ m, p := s.p.withNZ (s.a ^^^ m) } ∧
    exec (.bit o) s = .next { u with
      p := { s.p with z := decide (s.a &&& m = 0), n := m.getLsbD 7, v := m.getLsbD 6 } }

/-- Compares are unsigned, write `C`, `Z`, `N` and no register; `V` is unchanged. -/
def Obligations.CompareIsUnsigned : Prop :=
  ∀ (s : State) (o : Operand),
    let m := (readOperand o s).1
    let u := { s.withDevices (readOperand o s).2 with stepCycles := s.stepCycles + readCycles o s }
    SameMemory s u ∧
    exec (.cmp o) s = .next { u with p := s.p.afterCompare s.a m } ∧
    exec (.cpx o) s = .next { u with p := s.p.afterCompare s.x m } ∧
    exec (.cpy o) s = .next { u with p := s.p.afterCompare s.y m }

/-- `INC` and `DEC` read the byte at the effective address, write it back plus or minus one modulo 256, and write `Z` and
`N` only. -/
def Obligations.IncrementAndDecrementMemory : Prop :=
  ∀ (s : State) (o : Operand), s.wf = true →
    let a := effectiveAddress o s
    let m := (readOperand o s).1
    let modified := fun (i : Instr) (r : Byte) => i.wellFormed = true → ∃ t, exec i s = .next t ∧
      t = { s.withStore (busWrite a r (readOperand o s).2) with
            p := s.p.withNZ r, stepCycles := s.stepCycles + rmwCycles o } ∧ StoresByte a r s t
    modified (.inc o) (m + 1) ∧ modified (.dec o) (m - 1)

/-- The four shifts and rotates, in memory and on the accumulator: the result and `C` as numbers, `Z` and `N` of the
result, `V` unchanged. -/
def Obligations.ShiftsAndRotates : Prop :=
  ∀ (s : State) (o : Operand), s.wf = true →
    let left := fun (m : Byte) (carry : Bool) => BitVec.ofNat 8 (2 * m.toNat + carry.toNat)
    let right := fun (m : Byte) (carry : Bool) => BitVec.ofNat 8 (m.toNat / 2 + 128 * carry.toNat)
    let a := effectiveAddress o s
    let m := (readOperand o s).1
    let flags := fun (r : Byte) (carry : Bool) => { s.p.withNZ r with c := carry }
    let inMemory := fun (i : Instr) (r : Byte) (carry : Bool) => i.wellFormed = true → o ≠ .acc → ∃ t, exec i s = .next t ∧
      t = { s.withStore (busWrite a r (readOperand o s).2) with
            p := flags r carry, stepCycles := s.stepCycles + rmwCycles o } ∧ StoresByte a r s t
    let inA := fun (i : Instr) (r : Byte) (carry : Bool) =>
      exec i s = .next { s with a := r, p := flags r carry, stepCycles := s.stepCycles + 2 }
    let high := fun (v : Byte) => decide (128 ≤ v.toNat)
    let low := fun (v : Byte) => decide (v.toNat % 2 = 1)
    (inMemory (.asl o) (left m false) (high m) ∧ inMemory (.lsr o) (right m false) (low m) ∧
      inMemory (.rol o) (left m s.p.c) (high m) ∧ inMemory (.ror o) (right m s.p.c) (low m)) ∧
    (inA (.asl .acc) (left s.a false) (high s.a) ∧ inA (.lsr .acc) (right s.a false) (low s.a) ∧
      inA (.rol .acc) (left s.a s.p.c) (high s.a) ∧ inA (.ror .acc) (right s.a s.p.c) (low s.a))

/-! ## Control transfer, flags, no operation -/

/-- `JMP` loads `PC` with its operand, or with the word at its pointer, whose high byte comes from the pointer's own page;
nothing else changes but what the pointer's reads do to devices. -/
def Obligations.JumpTargets : Prop :=
  ∀ (s : State) (w w' : Word),
    exec (.jmp (.abs w)) s = .next { s with pc := w, stepCycles := s.stepCycles + 3 } ∧
    (w'.toNat = w.toNat / 256 * 256 + (w.toNat + 1) % 256 →
      let lo := busRead w s
      let hi := busRead w' lo.2
      ∃ t, exec (.jmp (.ind w)) s = .next t ∧ SameMemory s t ∧
        t = { s.withDevices hi.2 with pc := mkWord hi.1 lo.1, stepCycles := s.stepCycles + 5 })

/-- `JSR` pushes the address of its last byte, high byte first, and jumps; `RTS` pulls an address and returns to the byte
after it; an `RTS` right after a `JSR` resumes behind it with `SP` restored. -/
def Obligations.SubroutineCallAndReturn : Prop :=
  ∀ (s : State) (w : Word), s.wf = true →
    (∃ t, exec (.jsr w) s = .next t ∧
      t = { s with ram := t.ram, sp := s.sp - 2, pc := w, stepCycles := s.stepCycles + 6 } ∧
      t.peek (stackAddr s.sp) = some (hiByte (s.pc - 1)) ∧ t.peek (stackAddr (s.sp - 1)) = some (loByte (s.pc - 1)) ∧
      (∀ b, sameStorage (stackAddr s.sp) b = false → sameStorage (stackAddr (s.sp - 1)) b = false →
        t.peek b = s.peek b) ∧
      ∃ r, exec .rts t = .next r ∧ r.pc = s.pc ∧ r.sp = s.sp) ∧
    (∃ lo hi, s.peek (stackAddr (s.sp + 1)) = some lo ∧ s.peek (stackAddr (s.sp + 2)) = some hi ∧
      ∃ t, exec .rts s = .next t ∧ SameMemory s t ∧
        t = { s with sp := s.sp + 2, pc := mkWord hi lo + 1, stepCycles := s.stepCycles + 6 })

/-- `RTI` pulls the status, then `PC` low and high, and resumes at the pulled `PC`; after an interrupt entry it restores
`PC`, every flag and `SP`. -/
def Obligations.ReturnFromInterrupt : Prop :=
  ∀ s : State, s.wf = true →
    (∃ st lo hi, s.peek (stackAddr (s.sp + 1)) = some st ∧ s.peek (stackAddr (s.sp + 2)) = some lo ∧
      s.peek (stackAddr (s.sp + 3)) = some hi ∧
      ∃ t, exec .rti s = .next t ∧ SameMemory s t ∧
        t = { s with p := Flags.ofByte st, sp := s.sp + 3, pc := mkWord hi lo, stepCycles := s.stepCycles + 6 }) ∧
    ∀ entry ∈ [irqEntry, nmiEntry],
      ∃ t, exec .rti (entry s) = .next t ∧ t.pc = s.pc ∧ t.p = s.p ∧ t.sp = s.sp

/-- `BRK` skips its signature byte, pushes `PC` high, `PC` low and the status image with break-marker 1, sets `I`, and loads
the vector it shares with IRQ; `D` and every other register are unchanged. -/
def Obligations.SoftwareBreak : Prop :=
  ∀ s : State, s.wf = true →
    ∃ t lo hi, exec .brk s = .next t ∧ s.peek 0xFFFE = some lo ∧ s.peek 0xFFFF = some hi ∧
      t = { s with
            ram := t.ram, sp := s.sp - 3, p := { s.p with i := true }, pc := mkWord hi lo
            stepCycles := s.stepCycles + 7 } ∧
      t.peek (stackAddr s.sp) = some (hiByte (s.pc + 1)) ∧
      t.peek (stackAddr (s.sp - 1)) = some (loByte (s.pc + 1)) ∧
      t.peek (stackAddr (s.sp - 2)) = some (s.p.image true) ∧
      ∀ b, sameStorage (stackAddr s.sp) b = false → sameStorage (stackAddr (s.sp - 1)) b = false →
        sameStorage (stackAddr (s.sp - 2)) b = false → t.peek b = s.peek b

/-- A branch whose condition holds adds its signed offset to the address after it, modulo `$10000`; one whose condition
does not changes nothing; no branch writes a flag. Cycles 2, 3 or 4. -/
def Obligations.ConditionalBranches : Prop :=
  ∀ (s : State) (d : Byte) (target : Word), (target.toNat : Int) = (s.pc.toNat + d.toInt) % 0x10000 →
    let branches := fun (i : Instr) (taken : Bool) =>
      exec i s = .next (if taken then
        { s with pc := target
                 stepCycles := s.stepCycles + (if s.pc.toNat / 256 = target.toNat / 256 then 3 else 4) }
        else { s with stepCycles := s.stepCycles + 2 })
    branches (.bpl d) (!s.p.n) ∧ branches (.bmi d) s.p.n ∧ branches (.bvc d) (!s.p.v) ∧ branches (.bvs d) s.p.v ∧
    branches (.bcc d) (!s.p.c) ∧ branches (.bcs d) s.p.c ∧ branches (.bne d) (!s.p.z) ∧ branches (.beq d) s.p.z

/-- The seven flag operations write their flag and nothing else. -/
def Obligations.FlagOperations : Prop :=
  ∀ s : State,
    let u := { s with stepCycles := s.stepCycles + 2 }
    exec .clc s = .next { u with p := { s.p with c := false } } ∧
    exec .sec s = .next { u with p := { s.p with c := true } } ∧
    exec .cli s = .next { u with p := { s.p with i := false } } ∧
    exec .sei s = .next { u with p := { s.p with i := true } } ∧
    exec .cld s = .next { u with p := { s.p with d := false } } ∧
    exec .sed s = .next { u with p := { s.p with d := true } } ∧
    exec .clv s = .next { u with p := { s.p with v := false } } ∧
    SameMemory s u

/-- The no-operations change nothing but the cycle count; the memory forms perform their read, with its device side
effect. A jam halts and changes nothing else. -/
def Obligations.NoOperationsAndJam : Prop :=
  ∀ (s : State) (op b : Byte) (o : Operand),
    let u := { s with stepCycles := s.stepCycles + 2 }
    exec .nop s = .next u ∧ exec (.nopImp op) s = .next u ∧ exec (.nopImm op b) s = .next u ∧
    exec (.jam op) s = .next { u with halted := true } ∧ SameMemory s u ∧
    ∃ t, exec (.nopRead op o) s = .next t ∧ SameMemory s t ∧
      t = { s.withDevices (readOperand o s).2 with stepCycles := s.stepCycles + readCycles o s }

/-! ## Undocumented opcodes -/

/-- The combined read-modify-write operations: the byte written back, then the operation it feeds. -/
def Obligations.UndocumentedReadModifyWrite : Prop :=
  ∀ (s : State) (o : Operand), s.wf = true →
    let left := fun (m : Byte) (carry : Bool) => BitVec.ofNat 8 (2 * m.toNat + carry.toNat)
    let right := fun (m : Byte) (carry : Bool) => BitVec.ofNat 8 (m.toNat / 2 + 128 * carry.toNat)
    let ea := effectiveAddress o s
    let m := (readOperand o s).1
    let high := decide (128 ≤ m.toNat)
    let low := decide (m.toNat % 2 = 1)
    let combined := fun (i : Instr) (r a : Byte) (p : Flags) => i.wellFormed = true → ∃ t, exec i s = .next t ∧
      t = { s.withStore (busWrite ea r (readOperand o s).2) with
            a := a, p := p, stepCycles := s.stepCycles + rmwCycles o } ∧ StoresByte ea r s t
    let slo := left m false
    let rla := left m s.p.c
    let sre := right m false
    let rra := right m s.p.c
    combined (.slo o) slo (s.a ||| slo) { s.p.withNZ (s.a ||| slo) with c := high } ∧
    combined (.rla o) rla (s.a &&& rla) { s.p.withNZ (s.a &&& rla) with c := high } ∧
    combined (.sre o) sre (s.a ^^^ sre) { s.p.withNZ (s.a ^^^ sre) with c := low } ∧
    combined (.rra o) rra (sumByte s.a rra low) (Flags.afterSum { s.p with c := low } s.a rra) ∧
    combined (.dcp o) (m - 1) s.a (s.p.afterCompare s.a (m - 1)) ∧
    combined (.isc o) (m + 1) (differenceByte s.a (m + 1) s.p.c) (s.p.afterDifference s.a (m + 1))

/-- The immediate combined operations `ANC`, `ALR`, `ARR` and `AXS`. -/
def Obligations.UndocumentedImmediate : Prop :=
  ∀ (s : State) (op m : Byte),
    let t := s.a &&& m
    let r := BitVec.ofNat 8 (t.toNat / 2)
    let rotated := BitVec.ofNat 8 (t.toNat / 2 + 128 * s.p.c.toNat)
    let ax := s.a &&& s.x
    let u := { s with stepCycles := s.stepCycles + 2 }
    SameMemory s u ∧
    exec (.anc op m) s = .next { u with a := t, p := { s.p.withNZ t with c := decide (128 ≤ t.toNat) } } ∧
    exec (.alr m) s = .next { u with a := r, p := { s.p.withNZ r with c := decide (t.toNat % 2 = 1) } } ∧
    exec (.arr m) s = .next { u with
      a := rotated
      p := { s.p.withNZ rotated with c := rotated.getLsbD 6, v := rotated.getLsbD 6 ^^ rotated.getLsbD 5 } } ∧
    exec (.axs m) s = .next { u with
      x := ax - m, p := { s.p.withNZ (ax - m) with c := decide (m.toNat ≤ ax.toNat) } }

/-- `LAS` writes `A`, `X` and `SP` with `M & SP`; `XAA` and `LXA` use the open constants `XAA_MAGIC` and `LXA_MAGIC`, and where
the immediate (for `XAA` also `X`) is 0 the result is 0 whatever they are. -/
def Obligations.UndocumentedLoadCombinations : Prop :=
  ∀ (s : State) (w : Word) (b : Byte),
    (let m := readOperand (.absy w) s
     let v := m.1 &&& s.sp
     ∃ t, exec (.las w) s = .next t ∧ SameMemory s t ∧
       t = { s.withDevices m.2 with
             a := v, x := v, sp := v, p := s.p.withNZ v, stepCycles := s.stepCycles + readCycles (.absy w) s }) ∧
    (let u := { s with stepCycles := s.stepCycles + 2 }
     let v := (s.a ||| Config.xaaMagic) &&& s.x &&& b
     let v' := (s.a ||| Config.lxaMagic) &&& b
     SameMemory s u ∧
     exec (.xaa b) s = .next { u with a := v, p := s.p.withNZ v } ∧
     exec (.lxa b) s = .next { u with a := v', x := v', p := s.p.withNZ v' } ∧
     ((b = 0 ∨ s.x = 0) → v = 0) ∧ (b = 0 → v' = 0))

/-- The `SH` family stores the source ANDed with the high byte of the base plus one; when the page is crossed the stored
value is the high byte of the address. No flag is written; `TAS` writes `SP` with `A & X`. -/
def Obligations.StoresOfHighByteFamily : Prop :=
  ∀ (s : State) (w : Word) (o : Operand), s.wf = true →
    let stored := fun (i : Instr) (o : Operand) (src sp : Byte) => i.wellFormed = true →
      let base := baseAddress o s
      let ea0 := effectiveAddress o s
      let v := src &&& (hiByte base + 1)
      let ea := if differentPage base ea0 then mkWord v (loByte ea0) else ea0
      ∃ t, exec i s = .next t ∧
        t = { s.withStore (busWrite ea v s) with sp := sp, stepCycles := s.stepCycles + writeCycles o } ∧
        StoresByte ea v s t
    stored (.sha o) o (s.a &&& s.x) s.sp ∧ stored (.shx w) (.absy w) s.x s.sp ∧ stored (.shy w) (.absx w) s.y s.sp ∧
    stored (.tas w) (.absy w) (s.a &&& s.x) (s.a &&& s.x)

/-! ## Devices -/

/-- A read of the picture unit's status register, at any of its mirrors: the blank flag in bit 7, the sprite flags in bits
6 and 5; it clears the blank flag and the write toggle. The sprite flags are the ones last reset or read until a dot is
worked; after that they are free (log 17). -/
def Obligations.PictureStatusRead : Prop :=
  ∀ (s : State) (a : Word), 0x2000 ≤ a.toNat → a.toNat < 0x4000 → a.toNat % 8 = 2 →
    let r := busRead a s
    r.1.getLsbD 7 = s.ppu.blank ∧ r.1.getLsbD 6 = r.2.ppu.sprite0 ∧ r.1.getLsbD 5 = r.2.ppu.overflow ∧
    r.2 = { s with
            ppu := { s.ppu with
              blank := false, toggle := false, sprite0 := r.2.ppu.sprite0, overflow := r.2.ppu.overflow
              spritesKnown := true }
            draws := s.draws + 1 } ∧
    (s.ppu.spritesKnown = true → r.2.ppu.sprite0 = s.ppu.sprite0 ∧ r.2.ppu.overflow = s.ppu.overflow) ∧
    s.ppu.tick.spritesKnown = false ∧ s.ppu.resetUnit.spritesKnown = true

/-- Writes to the picture unit's control, mask, OAM address, scroll and address registers, at any mirror: the first and
the second byte of the last two by the write toggle, which every such write flips. The data ports: `$2004` reads and writes
the OAM byte at the OAM address, which a write moves on (log 18); `$2007` reads and writes a cell of the picture unit's
own space, a read below the palette through the one-byte buffer; which cell is free (log 19), and a palette entry is a
byte (log 36). -/
def Obligations.PictureRegisterWrites : Prop :=
  ∀ (s : State) (a : Word) (v : Byte), 0x2000 ≤ a.toNat → a.toNat < 0x4000 →
    let t := busWrite a v s
    let u := t.ppu
    let r := busRead a s
    (a.toNat % 8 = 0 → u = { s.ppu with ctrl := v }) ∧
    (a.toNat % 8 = 1 → u = { s.ppu with mask := v }) ∧
    (a.toNat % 8 = 3 → u = { s.ppu with oamAddr := v }) ∧
    (a.toNat % 8 = 5 → s.ppu.toggle = false → u = { s.ppu with scroll1 := v, toggle := true }) ∧
    (a.toNat % 8 = 5 → s.ppu.toggle = true → u = { s.ppu with scroll2 := v, toggle := false }) ∧
    (a.toNat % 8 = 6 → s.ppu.toggle = false → u = { s.ppu with addr1 := v, toggle := true }) ∧
    (a.toNat % 8 = 6 → s.ppu.toggle = true → u = { s.ppu with addr2 := v, toggle := false }) ∧
    (a.toNat % 8 ≠ 7 → t = { s with ppu := u }) ∧
    (a.toNat % 8 = 4 → u = { s.ppu with oam := u.oam, oamAddr := s.ppu.oamAddr + 1 } ∧
      (s.wf = true → ∀ i : Byte, u.oam.get i.toNat = if i = s.ppu.oamAddr then v else s.ppu.oam.get i.toNat) ∧
      r = (s.ppu.oam.get s.ppu.oamAddr.toNat, s)) ∧
    (a.toNat % 8 = 7 → match Config.ppuTarget s.draws with
      | .nametable i =>
        t = { s with ppu := { s.ppu with nametable := u.nametable }, draws := s.draws + 1 } ∧
        (s.wf = true → ∀ j : BitVec 12,
          u.nametable.get j.toNat = if j = i then v else s.ppu.nametable.get j.toNat) ∧
        r = (s.ppu.readBuffer,
          { s with ppu := { s.ppu with readBuffer := s.ppu.nametable.get i.toNat }, draws := s.draws + 1 })
      | .palette i =>
        t = { s with ppu := { s.ppu with palette := u.palette }, draws := s.draws + 1 } ∧
        (s.wf = true → ∀ j : BitVec 5, u.palette.get j.toNat = if j = i then v else s.ppu.palette.get j.toNat) ∧
        r.1 = s.ppu.palette.get i.toNat ∧
        r.2 = { s with ppu := { s.ppu with readBuffer := r.2.ppu.readBuffer }, draws := s.draws + 1 }
      | .graphics off =>
        t = { s with cart := { s.cart with chr := t.cart.chr }, draws := s.draws + 1 } ∧
        (0 < s.cart.chrBanks → t.cart.chr = s.cart.chr) ∧
        (s.wf = true → s.cart.chrBanks = 0 → ∀ n,
          t.cart.chr.get n = if n = s.cart.chrOffset off then v else s.cart.chr.get n) ∧
        r = (s.ppu.readBuffer,
          { s with ppu := { s.ppu with readBuffer := s.cart.chr.get (s.cart.chrOffset off) }, draws := s.draws + 1 }))

/-- One frame: 262 scanlines of 341 dots, one dot fewer on an odd frame; the blank flag, if no read clears it, is set by
the work of scanline 241, dot 1, and cleared by that of scanline 261, dot 1; the NMI output is the blank flag while
enabled. The first dot after reset is scanline 0, dot 0, of frame 0. -/
def Obligations.FrameTiming : Prop :=
  (∀ u : Ppu, u.resetUnit.scanline = 0 ∧ u.resetUnit.dot = 0 ∧ u.resetUnit.frame = 0) ∧
  ∀ (u : Ppu) (k : Nat), u.scanline = 0 → u.dot = 0 →
    let frameDots := if u.frame % 2 = 1 then 341 * 262 - 1 else 341 * 262
    let v := Ppu.ticks k u
    v.nmiOut = (v.blank && u.ctrl.getLsbD 7) ∧
    (k < frameDots → v.frame = u.frame ∧ v.scanline = k / 341 ∧ v.dot = k % 341 ∧
      v.blank = (if k ≤ 341 * 241 + 1 then u.blank else decide (k ≤ 341 * 261 + 1))) ∧
    (k = frameDots → v.frame = u.frame + 1 ∧ v.scanline = 0 ∧ v.dot = 0 ∧ v.blank = false)

/-- Sprite DMA reads the 256 bytes of the selected page by ordinary bus reads, in order, each with its device's side
effect, writes byte `i` into OAM at the OAM address plus `i`, wrapping, leaves the OAM address, and stalls 513 cycles, or
514 from an odd cycle. From a page of memory it changes nothing else. The write of the page to `$4014` is what triggers
it. -/
def Obligations.SpriteDmaCopiesPage : Prop :=
  ∀ (s : State) (page : Byte) (byte : Byte → Byte), s.wf = true → s.oamDma = some page →
    let t := spriteDma s
    let stall := s.stall + (if (s.cyc + s.stepCycles) % 2 = 1 then 514 else 513)
    (t.stall = stall ∧ t.oamDma = none ∧ t.cyc = s.cyc ∧ t.stepCycles = s.stepCycles ∧
      t.ppu.oamAddr = s.ppu.oamAddr ∧ SameMemory s t) ∧
    (∃ after : Nat → State, after 0 = s ∧ t = { after 256 with oamDma := none, stall := stall } ∧
      ∀ i, i < 256 →
        let r := busRead (mkWord page (BitVec.ofNat 8 i)) (after i)
        let cell := (s.ppu.oamAddr.toNat + i) % 256
        after (i + 1) = { r.2 with ppu := { r.2.ppu with oam := r.2.ppu.oam.set cell r.1 } }) ∧
    ((∀ i : Byte, s.peek (mkWord page i) = some (byte i)) →
      (∀ i : Byte, t.ppu.oam.get (s.ppu.oamAddr + i).toNat = byte i) ∧
      t = { s with ppu := { s.ppu with oam := t.ppu.oam }, oamDma := none, stall := stall }) ∧
    busWrite 0x4014 page { s with oamDma := none } = s

/-- The shift-register mapper: five writes with bit 7 clear shift in their bits 0, the first one lowest, and the fifth
commits them to the register its address selects; a write with bit 7 set empties the accumulator and sets `control[3:2]`.
-/
def Obligations.MapperSerialWrites : Prop :=
  ∀ (c : Cart) (a1 a2 a3 a4 a5 : Word) (v1 v2 v3 v4 v5 : Byte),
    c.mapper = .shiftRegister → c.shift = 0 → c.count = 0 →
    (v1.getLsbD 7 = false ∧ v2.getLsbD 7 = false ∧ v3.getLsbD 7 = false ∧ v4.getLsbD 7 = false ∧
      v5.getLsbD 7 = false → 0x8000 ≤ a5.toNat →
      let t := ((((c.mapperWrite a1 v1).mapperWrite a2 v2).mapperWrite a3 v3).mapperWrite a4 v4).mapperWrite a5 v5
      let value : BitVec 5 := BitVec.ofBool (v5.getLsbD 0) ++ BitVec.ofBool (v4.getLsbD 0) ++
        BitVec.ofBool (v3.getLsbD 0) ++ BitVec.ofBool (v2.getLsbD 0) ++ BitVec.ofBool (v1.getLsbD 0)
      t = (if a5.toNat < 0xA000 then { c with control := value, controlCommitted := true }
           else if a5.toNat < 0xC000 then { c with chr0 := value }
           else if a5.toNat < 0xE000 then { c with chr1 := value } else { c with prg := value })) ∧
    ∀ (d : Cart) (a : Word) (v : Byte), d.mapper = .shiftRegister → v.getLsbD 7 = true →
      d.mapperWrite a v = { d with shift := 0, count := 0, control := d.control ||| 0x0C }

/-- What program space reads: banks 0 and 1 of the fixed mapping, or its one bank twice; the program modes of the
shift-register variant, bank indices reduced modulo the banks present. -/
def Obligations.ProgramWindows : Prop :=
  ∀ (s : State) (a : Word), 0x8000 ≤ a.toNat → 0 < s.cart.prgBanks →
    let c := s.cart
    let reads := fun (offset : Nat) => busRead a s = (c.prgRom.get offset, s)
    let bank := fun (n : Nat) => (n % c.prgBanks) * 0x4000 + a.toNat % 0x4000
    let mode := c.control.toNat / 4 % 4
    let prg := c.prg.toNat % 16
    (c.mapper = .fixed → c.prgBanks = 1 → reads (a.toNat % 0x4000)) ∧
    (c.mapper = .fixed → c.prgBanks = 2 → reads (a.toNat - 0x8000)) ∧
    (c.mapper = .shiftRegister → mode = 2 → reads (if a.toNat < 0xC000 then a.toNat % 0x4000 else bank prg)) ∧
    (c.mapper = .shiftRegister → mode = 3 → reads (if a.toNat < 0xC000 then bank prg else bank (c.prgBanks - 1))) ∧
    (c.mapper = .shiftRegister → mode < 2 → c.prgBanks % 2 = 0 →
      reads (prg / 2 % (c.prgBanks / 2) * 0x8000 + (a.toNat - 0x8000)))

/-- The controller: after a write of 1 and then 0 to the strobe bit, eight reads give the latched buttons in order, and
further reads give 1; while the strobe is 1 every read gives the first button. -/
def Obligations.ControllerReads : Prop :=
  ∀ (s : State) (v1 v0 : Byte) (n : Nat), v1.getLsbD 0 = true → v0.getLsbD 0 = false →
    let latched := busWrite 0x4016 v0 (busWrite 0x4016 v1 s)
    (busRead 0x4016 (padReads n latched)).1.getLsbD 0 = (if n < 8 then s.pad.buttons.getLsbD n else true) ∧
    (busRead 0x4016 (padReads n (busWrite 0x4016 v1 s))).1.getLsbD 0 = s.pad.buttons.getLsbD 0

/-- The audio unit's registers. A write of `$4000` to `$4013` keeps its byte. A read of `$4015` gives the frame interrupt
flag in bit 6 and the sample interrupt flag in bit 7, and clears the frame flag only; a write of `$4015` sets the channel
enables and clears the sample flag, and its bit 4 clear stops the sample, set starts one if none is playing (log 21). A
write of `$4017` sets mode and inhibit, and with bit 6 set clears the frame flag. A tick never raises the frame flag in the
5-step mode or while inhibited; a 4-step sequence that is not inhibited raises it, within the model's window of 14,500 to
15,330 ticks (log 23). -/
def Obligations.AudioStatusAndFrameInterrupt : Prop :=
  ∀ (s : State) (v : Byte),
    (∀ a : Word, 0x4000 ≤ a.toNat → a.toNat < 0x4014 →
      let t := busWrite a v s
      t = { s with apu := { s.apu with regs := t.apu.regs } } ∧
      (s.wf = true → ∀ n, t.apu.regs.get n = if n = a.toNat - 0x4000 then v else s.apu.regs.get n)) ∧
    (let r := busRead 0x4015 s
     r.1.getLsbD 7 = s.apu.dmcIrq ∧ r.1.getLsbD 6 = s.apu.frameIrq ∧
     r.2 = { s with apu := { s.apu with frameIrq := false }, draws := s.draws + 1 }) ∧
    (let u := (busWrite 0x4017 v s).apu
     u.fiveStep = v.getLsbD 7 ∧ u.inhibit = v.getLsbD 6 ∧ u.frameIrq = (s.apu.frameIrq && !v.getLsbD 6) ∧
     u.dmcIrq = s.apu.dmcIrq) ∧
    (let u := if v.getLsbD 4 = false then { s.apu with dmcRemaining := 0 }
        else if s.apu.dmcRemaining = 0 then s.apu.startSample else s.apu
     busWrite 0x4015 v s = { s with apu := { u with enable := BitVec.ofNat 5 v.toNat, dmcIrq := false } }) ∧
    ((s.apu.fiveStep = true ∨ s.apu.inhibit = true) → s.apu.tick.frameIrq = s.apu.frameIrq) ∧
    (s.apu.fiveStep = false → s.apu.inhibit = false → s.apu.frameTicks = 0 →
      (∀ n, n < 14500 → (Apu.ticks n s.apu).frameIrq = s.apu.frameIrq) ∧
      ∃ n, 14500 ≤ n ∧ n ≤ 15330 ∧ (Apu.ticks n s.apu).frameIrq = true)

/-- The sample channel: started, it takes `16 × $4013 + 1` bytes from `$C000 + 64 × $4012` on, from `$FFFF` to `$8000`, and
after the last one it loops, from the start again, or raises the interrupt when `$4010` bit 7 enables it. Whether it loops
is free (log 26). A cycle of the clock in which the active channel asks for a byte, which is free (log 25), reads it at the
fetch address and takes `DMC_STALL_CYCLES` cycles more; any other cycle leaves the channel. -/
def Obligations.SampleChannelFetches : Prop :=
  (∀ (u : Apu) (bytes : Nat → Byte) (n : Nat),
    let length := 16 * (u.regs.get 0x13).toNat + 1
    let start := 0xC000 + 64 * (u.regs.get 0x12).toNat
    let next := if start + n < 0x10000 then start + n else start + n - 0x8000
    let v := Apu.samples bytes n u.startSample
    u.startSample = { u with dmcAddr := BitVec.ofNat 16 start, dmcRemaining := length } ∧
    (n < length → v.dmcRemaining = length - n ∧ v.dmcIrq = u.dmcIrq ∧ v.dmcAddr.toNat = next) ∧
    (n = length →
      let loops := Config.dmcLoops (u.regs.get 0x10)
      v.dmcRemaining = (if loops then length else 0) ∧ v.dmcAddr.toNat = (if loops then start else next) ∧
      v.dmcIrq = (u.dmcIrq || (!loops && (u.regs.get 0x10).getLsbD 7)))) ∧
  ∀ (p : Params) (s : State) (byte : Byte), s.apu.dmcRemaining ≠ 0 → s.peek s.apu.dmcAddr = some byte →
    let requested := Config.dmcRequest s.draws
    let v := clock p 1 s
    let cycles := if requested then 1 + p.dmcStallCycles else 1
    let u := if requested then s.apu.takeSample byte else s.apu
    v.cyc = s.cyc + cycles ∧ v.stall + 1 = s.stall + cycles ∧ v.ppu = Ppu.ticks (3 * cycles) s.ppu ∧
    v.apu.dmcBuffer = (if requested then byte else s.apu.dmcBuffer) ∧
    v.apu.dmcAddr = u.dmcAddr ∧ v.apu.dmcRemaining = u.dmcRemaining ∧ v.apu.dmcIrq = u.dmcIrq

/-- A cartridge image whose header has the magic, a supported mapper and at least one program bank, and whose body holds
the banks, loads with exactly the values of its header; any of the four faults makes the load fail. -/
def Obligations.CartridgeLoad : Prop :=
  ∀ (prg chr f6 f7 : Byte) (rest body : List Byte), rest.length = 8 →
    let image := [0x4E, 0x45, 0x53, 0x1A, prg, chr, f6, f7] ++ rest ++ body
    let id := f7.toNat / 16 * 16 + f6.toNat / 16
    let skip := if f6.getLsbD 2 then 512 else 0
    let size := 0x4000 * prg.toNat + 0x2000 * chr.toNat
    (id ≤ 1 → prg ≠ 0 → skip + size ≤ body.length →
      ∃ c, Cart.load image = .ok c ∧
        c.mapper = (if id = 0 then .fixed else .shiftRegister) ∧
        c.prgBanks = prg.toNat ∧ c.chrBanks = chr.toNat ∧ c.battery = f6.getLsbD 1 ∧
        c.mirroringMode = (if f6.getLsbD 3 then .fourScreen else if f6.getLsbD 0 then .vertical else .horizontal) ∧
        (∀ n, n < 0x4000 * prg.toNat → c.prgRom.get n = body.getD (skip + n) 0) ∧
        (∀ n, n < 0x2000 * chr.toNat → c.chr.get n = body.getD (skip + 0x4000 * prg.toNat + n) 0)) ∧
    ((1 < id ∨ prg = 0 ∨ body.length < skip + size) → ∃ e, Cart.load image = .error e) ∧
    (∀ m0 m1 m2 m3 : Byte, (m0, m1, m2, m3) ≠ (0x4E, 0x45, 0x53, 0x1A) →
      Cart.load ([m0, m1, m2, m3, prg, chr, f6, f7] ++ rest ++ body) = .error .badMagic)

/-- Reset writes every register, the hidden state and the devices as the reset rules say (the sample interrupt disabled, the
sample channel, like every other, stopped), loads `PC` from the vector (or `ENTRY_PC`), leaves work RAM, and takes 7
cycles. `i_poll` is stated under `delayed` only, where the spec has it. -/
def Obligations.ResetWrites : Prop :=
  ∀ (p : Params) (s : State),
    let t := resetWith p s
    let mapper := { s.cart with
      shift := 0, count := 0, control := 0x0C, chr0 := 0, chr1 := 0, prg := 0, controlCommitted := false }
    (t.a = 0 ∧ t.x = 0 ∧ t.y = 0 ∧ t.sp = 0xFD ∧ t.p = ⟨false, false, true, false, false, false⟩) ∧
    (t.nmiPending = false ∧ t.nmiPrev = false ∧ t.irqLine = false ∧ t.halted = false ∧ t.refused = false ∧
      t.cyc = 7 ∧ t.stall = 0) ∧
    (p.irqPollISource = .delayed → t.iPoll = true) ∧
    (∀ entry, p.entryPc = some entry → t.pc = entry) ∧
    (p.entryPc = none → t.pc = mkWord (mapper.prgRom.get (mapper.prgOffset 0xFFFD))
      (mapper.prgRom.get (mapper.prgOffset 0xFFFC))) ∧
    (t.ram = s.ram ∧ t.cart.shift = 0 ∧ t.cart.count = 0 ∧ t.cart.control = 0x0C ∧ t.cart.chr0 = 0 ∧ t.cart.chr1 = 0 ∧
      t.cart.prg = 0) ∧
    (t.ppu.scanline = 0 ∧ t.ppu.dot = 0 ∧ t.ppu.frame = 0 ∧ t.ppu.ctrl = 0 ∧ t.ppu.mask = 0 ∧ t.ppu.blank = false ∧
      t.ppu.sprite0 = false ∧ t.ppu.overflow = false ∧ t.ppu.toggle = false) ∧
    (t.apu.enable = 0 ∧ t.apu.fiveStep = false ∧ t.apu.inhibit = false ∧ t.apu.frameIrq = false ∧
      t.apu.dmcIrq = false ∧ t.apu.dmcRemaining = 0 ∧ (s.wf = true → (t.apu.regs.get 0x10).getLsbD 7 = false)) ∧
    (t.pad.strobe = false ∧ t.pad.shift = 0)
end

