-- ==== Sys2Proof/Laws/Memory.lean ====
section
/-! SUPPORT. The laws of memories: read after write, and that every operation keeps the canonical form. -/

namespace Sys2Proof.Machine

theorem Memory.wfFrom_cons {size lo a : Nat} {v : Byte} {m : Memory} :
    Memory.wfFrom size lo ((a, v) :: m) = true ↔
      lo ≤ a ∧ a < size ∧ v ≠ Memory.unlisted ∧ Memory.wfFrom size (a + 1) m = true := by
  simp [Memory.wfFrom, and_assoc]

/-- A smaller lower bound is a weaker demand. -/
theorem Memory.wfFrom_mono {size lo lo' : Nat} {m : Memory} (h : lo' ≤ lo) (hm : Memory.wfFrom size lo m = true) :
    Memory.wfFrom size lo' m = true := by
  cases m with
  | nil => rfl
  | cons c m =>
    obtain ⟨a, v⟩ := c
    rw [Memory.wfFrom_cons] at hm ⊢
    exact ⟨h.trans hm.1, hm.2⟩

/-- Below its lower bound a memory lists nothing. -/
theorem Memory.get_below {size lo a : Nat} {m : Memory} (hm : Memory.wfFrom size lo m = true) (h : a < lo) :
    Memory.get m a = Memory.unlisted := by
  induction m generalizing lo with
  | nil => rfl
  | cons c m ih =>
    obtain ⟨b, w⟩ := c
    rw [Memory.wfFrom_cons] at hm
    have : a ≠ b := by omega
    simp only [Memory.get, this, if_false]
    exact ih hm.2.2.2 (by omega)

theorem Memory.get_cons {size a b : Nat} {v : Byte} {m : Memory} (hm : Memory.wfFrom size (a + 1) m = true) :
    Memory.get (Memory.cons a v m) b = if b = a then v else Memory.get m b := by
  by_cases hv : v = Memory.unlisted
  · by_cases hb : b = a
    · rw [Memory.cons, if_pos hv, if_pos hb, hb, Memory.get_below hm (by omega), hv]
    · rw [Memory.cons, if_pos hv, if_neg hb]
  · rw [Memory.cons, if_neg hv, Memory.get]

theorem Memory.wfFrom_consCell {size lo a : Nat} {v : Byte} {m : Memory} (hl : lo ≤ a) (ha : a < size)
    (hm : Memory.wfFrom size (a + 1) m = true) : Memory.wfFrom size lo (Memory.cons a v m) = true := by
  by_cases hv : v = Memory.unlisted
  · rw [Memory.cons, if_pos hv]; exact Memory.wfFrom_mono (by omega) hm
  · rw [Memory.cons, if_neg hv, Memory.wfFrom_cons]; exact ⟨hl, ha, hv, hm⟩

theorem Memory.wfFrom_set {size lo a : Nat} {v : Byte} {m : Memory} (hm : Memory.wfFrom size lo m = true)
    (hl : lo ≤ a) (ha : a < size) : Memory.wfFrom size lo (Memory.set m a v) = true := by
  induction m generalizing lo with
  | nil => exact Memory.wfFrom_consCell hl ha rfl
  | cons c m ih =>
    obtain ⟨b, w⟩ := c
    have hc := Memory.wfFrom_cons.1 hm
    rw [Memory.set]
    split
    · next h => exact Memory.wfFrom_consCell hl ha (Memory.wfFrom_cons.2 ⟨h, hc.2⟩)
    · next h =>
      split
      · next he => subst he; exact Memory.wfFrom_consCell hl ha hc.2.2.2
      · next he => exact Memory.wfFrom_cons.2 ⟨hc.1, hc.2.1, hc.2.2.1, ih hc.2.2.2 (by omega)⟩

theorem Memory.get_setFrom {size lo a b : Nat} {v : Byte} {m : Memory} (hm : Memory.wfFrom size lo m = true) :
    Memory.get (Memory.set m a v) b = if b = a then v else Memory.get m b := by
  induction m generalizing lo with
  | nil => exact Memory.get_cons (size := 0) rfl
  | cons c m ih =>
    obtain ⟨e, w⟩ := c
    have hc := Memory.wfFrom_cons.1 hm
    rw [Memory.set]
    split
    · next h => exact Memory.get_cons (Memory.wfFrom_cons.2 ⟨h, hc.2⟩)
    · next h =>
      split
      · next he =>
        subst he
        rw [Memory.get_cons hc.2.2.2]
        by_cases hb : b = a <;> simp [Memory.get, hb]
      · next he =>
        rw [Memory.get, Memory.get, ih hc.2.2.2]
        by_cases hb : b = e
        · simp [hb, Ne.symm he]
        · simp [hb]

/-- Read after write: the byte written at its address, the old byte at every other. -/
theorem Memory.get_set {size a b : Nat} {v : Byte} {m : Memory} (hm : Memory.wf size m = true) :
    Memory.get (Memory.set m a v) b = if b = a then v else Memory.get m b :=
  Memory.get_setFrom hm

/-- A write inside the memory keeps the canonical form. -/
theorem Memory.wf_set {size a : Nat} {v : Byte} {m : Memory} (hm : Memory.wf size m = true) (ha : a < size) :
    Memory.wf size (Memory.set m a v) = true :=
  Memory.wfFrom_set hm (Nat.zero_le _) ha

/-- The memory of listed bytes is canonical. -/
theorem Memory.wfFrom_ofBytesFrom {size a : Nat} {vs : List Byte} (h : a + vs.length ≤ size) :
    Memory.wfFrom size a (Memory.ofBytesFrom a vs) = true := by
  induction vs generalizing a with
  | nil => rfl
  | cons v vs ih =>
    simp only [List.length_cons] at h
    exact Memory.wfFrom_consCell (Nat.le_refl _) (by omega) (ih (by omega))

/-- The memory of listed bytes holds them, and nothing behind them. -/
theorem Memory.get_ofBytesFrom (a : Nat) (vs : List Byte) (b : Nat) :
    Memory.get (Memory.ofBytesFrom a vs) (a + b) = vs.getD b Memory.unlisted := by
  induction vs generalizing a b with
  | nil => rfl
  | cons v vs ih =>
    rw [Memory.ofBytesFrom, Memory.get_cons (Memory.wfFrom_ofBytesFrom (Nat.le_refl _))]
    cases b with
    | zero => simp
    | succ b =>
      have h : a + (b + 1) = a + 1 + b := by omega
      rw [if_neg (by omega), h, ih]
      simp

end Sys2Proof.Machine
end

