-- ==== Sys2Proof/Laws/State.lean ====
section
/-! SUPPORT. One lemma per field of State per register write, so that no proof unfolds a record update; and the flag
writes as writes of `P`. -/

namespace Sys2Proof.Machine

@[simp] theorem State.setA_a (s : State) (v : Byte) : (s.setA v).a = v := rfl
@[simp] theorem State.setA_x (s : State) (v : Byte) : (s.setA v).x = s.x := rfl
@[simp] theorem State.setA_y (s : State) (v : Byte) : (s.setA v).y = s.y := rfl
@[simp] theorem State.setA_sp (s : State) (v : Byte) : (s.setA v).sp = s.sp := rfl
@[simp] theorem State.setA_pc (s : State) (v : Byte) : (s.setA v).pc = s.pc := rfl
@[simp] theorem State.setA_p (s : State) (v : Byte) : (s.setA v).p = s.p := rfl
@[simp] theorem State.setA_nmiPending (s : State) (v : Byte) : (s.setA v).nmiPending = s.nmiPending := rfl
@[simp] theorem State.setA_nmiPrev (s : State) (v : Byte) : (s.setA v).nmiPrev = s.nmiPrev := rfl
@[simp] theorem State.setA_irqLine (s : State) (v : Byte) : (s.setA v).irqLine = s.irqLine := rfl
@[simp] theorem State.setA_iPoll (s : State) (v : Byte) : (s.setA v).iPoll = s.iPoll := rfl
@[simp] theorem State.setA_halted (s : State) (v : Byte) : (s.setA v).halted = s.halted := rfl
@[simp] theorem State.setA_refused (s : State) (v : Byte) : (s.setA v).refused = s.refused := rfl
@[simp] theorem State.setA_cyc (s : State) (v : Byte) : (s.setA v).cyc = s.cyc := rfl
@[simp] theorem State.setA_stall (s : State) (v : Byte) : (s.setA v).stall = s.stall := rfl
@[simp] theorem State.setA_stepCycles (s : State) (v : Byte) : (s.setA v).stepCycles = s.stepCycles := rfl
@[simp] theorem State.setA_oamDma (s : State) (v : Byte) : (s.setA v).oamDma = s.oamDma := rfl
@[simp] theorem State.setA_ram (s : State) (v : Byte) : (s.setA v).ram = s.ram := rfl
@[simp] theorem State.setA_ppu (s : State) (v : Byte) : (s.setA v).ppu = s.ppu := rfl
@[simp] theorem State.setA_apu (s : State) (v : Byte) : (s.setA v).apu = s.apu := rfl
@[simp] theorem State.setA_pad (s : State) (v : Byte) : (s.setA v).pad = s.pad := rfl
@[simp] theorem State.setA_cart (s : State) (v : Byte) : (s.setA v).cart = s.cart := rfl
@[simp] theorem State.setA_draws (s : State) (v : Byte) : (s.setA v).draws = s.draws := rfl

@[simp] theorem State.setX_a (s : State) (v : Byte) : (s.setX v).a = s.a := rfl
@[simp] theorem State.setX_x (s : State) (v : Byte) : (s.setX v).x = v := rfl
@[simp] theorem State.setX_y (s : State) (v : Byte) : (s.setX v).y = s.y := rfl
@[simp] theorem State.setX_sp (s : State) (v : Byte) : (s.setX v).sp = s.sp := rfl
@[simp] theorem State.setX_pc (s : State) (v : Byte) : (s.setX v).pc = s.pc := rfl
@[simp] theorem State.setX_p (s : State) (v : Byte) : (s.setX v).p = s.p := rfl
@[simp] theorem State.setX_nmiPending (s : State) (v : Byte) : (s.setX v).nmiPending = s.nmiPending := rfl
@[simp] theorem State.setX_nmiPrev (s : State) (v : Byte) : (s.setX v).nmiPrev = s.nmiPrev := rfl
@[simp] theorem State.setX_irqLine (s : State) (v : Byte) : (s.setX v).irqLine = s.irqLine := rfl
@[simp] theorem State.setX_iPoll (s : State) (v : Byte) : (s.setX v).iPoll = s.iPoll := rfl
@[simp] theorem State.setX_halted (s : State) (v : Byte) : (s.setX v).halted = s.halted := rfl
@[simp] theorem State.setX_refused (s : State) (v : Byte) : (s.setX v).refused = s.refused := rfl
@[simp] theorem State.setX_cyc (s : State) (v : Byte) : (s.setX v).cyc = s.cyc := rfl
@[simp] theorem State.setX_stall (s : State) (v : Byte) : (s.setX v).stall = s.stall := rfl
@[simp] theorem State.setX_stepCycles (s : State) (v : Byte) : (s.setX v).stepCycles = s.stepCycles := rfl
@[simp] theorem State.setX_oamDma (s : State) (v : Byte) : (s.setX v).oamDma = s.oamDma := rfl
@[simp] theorem State.setX_ram (s : State) (v : Byte) : (s.setX v).ram = s.ram := rfl
@[simp] theorem State.setX_ppu (s : State) (v : Byte) : (s.setX v).ppu = s.ppu := rfl
@[simp] theorem State.setX_apu (s : State) (v : Byte) : (s.setX v).apu = s.apu := rfl
@[simp] theorem State.setX_pad (s : State) (v : Byte) : (s.setX v).pad = s.pad := rfl
@[simp] theorem State.setX_cart (s : State) (v : Byte) : (s.setX v).cart = s.cart := rfl
@[simp] theorem State.setX_draws (s : State) (v : Byte) : (s.setX v).draws = s.draws := rfl

@[simp] theorem State.setY_a (s : State) (v : Byte) : (s.setY v).a = s.a := rfl
@[simp] theorem State.setY_x (s : State) (v : Byte) : (s.setY v).x = s.x := rfl
@[simp] theorem State.setY_y (s : State) (v : Byte) : (s.setY v).y = v := rfl
@[simp] theorem State.setY_sp (s : State) (v : Byte) : (s.setY v).sp = s.sp := rfl
@[simp] theorem State.setY_pc (s : State) (v : Byte) : (s.setY v).pc = s.pc := rfl
@[simp] theorem State.setY_p (s : State) (v : Byte) : (s.setY v).p = s.p := rfl
@[simp] theorem State.setY_nmiPending (s : State) (v : Byte) : (s.setY v).nmiPending = s.nmiPending := rfl
@[simp] theorem State.setY_nmiPrev (s : State) (v : Byte) : (s.setY v).nmiPrev = s.nmiPrev := rfl
@[simp] theorem State.setY_irqLine (s : State) (v : Byte) : (s.setY v).irqLine = s.irqLine := rfl
@[simp] theorem State.setY_iPoll (s : State) (v : Byte) : (s.setY v).iPoll = s.iPoll := rfl
@[simp] theorem State.setY_halted (s : State) (v : Byte) : (s.setY v).halted = s.halted := rfl
@[simp] theorem State.setY_refused (s : State) (v : Byte) : (s.setY v).refused = s.refused := rfl
@[simp] theorem State.setY_cyc (s : State) (v : Byte) : (s.setY v).cyc = s.cyc := rfl
@[simp] theorem State.setY_stall (s : State) (v : Byte) : (s.setY v).stall = s.stall := rfl
@[simp] theorem State.setY_stepCycles (s : State) (v : Byte) : (s.setY v).stepCycles = s.stepCycles := rfl
@[simp] theorem State.setY_oamDma (s : State) (v : Byte) : (s.setY v).oamDma = s.oamDma := rfl
@[simp] theorem State.setY_ram (s : State) (v : Byte) : (s.setY v).ram = s.ram := rfl
@[simp] theorem State.setY_ppu (s : State) (v : Byte) : (s.setY v).ppu = s.ppu := rfl
@[simp] theorem State.setY_apu (s : State) (v : Byte) : (s.setY v).apu = s.apu := rfl
@[simp] theorem State.setY_pad (s : State) (v : Byte) : (s.setY v).pad = s.pad := rfl
@[simp] theorem State.setY_cart (s : State) (v : Byte) : (s.setY v).cart = s.cart := rfl
@[simp] theorem State.setY_draws (s : State) (v : Byte) : (s.setY v).draws = s.draws := rfl

@[simp] theorem State.setSp_a (s : State) (v : Byte) : (s.setSp v).a = s.a := rfl
@[simp] theorem State.setSp_x (s : State) (v : Byte) : (s.setSp v).x = s.x := rfl
@[simp] theorem State.setSp_y (s : State) (v : Byte) : (s.setSp v).y = s.y := rfl
@[simp] theorem State.setSp_sp (s : State) (v : Byte) : (s.setSp v).sp = v := rfl
@[simp] theorem State.setSp_pc (s : State) (v : Byte) : (s.setSp v).pc = s.pc := rfl
@[simp] theorem State.setSp_p (s : State) (v : Byte) : (s.setSp v).p = s.p := rfl
@[simp] theorem State.setSp_nmiPending (s : State) (v : Byte) : (s.setSp v).nmiPending = s.nmiPending := rfl
@[simp] theorem State.setSp_nmiPrev (s : State) (v : Byte) : (s.setSp v).nmiPrev = s.nmiPrev := rfl
@[simp] theorem State.setSp_irqLine (s : State) (v : Byte) : (s.setSp v).irqLine = s.irqLine := rfl
@[simp] theorem State.setSp_iPoll (s : State) (v : Byte) : (s.setSp v).iPoll = s.iPoll := rfl
@[simp] theorem State.setSp_halted (s : State) (v : Byte) : (s.setSp v).halted = s.halted := rfl
@[simp] theorem State.setSp_refused (s : State) (v : Byte) : (s.setSp v).refused = s.refused := rfl
@[simp] theorem State.setSp_cyc (s : State) (v : Byte) : (s.setSp v).cyc = s.cyc := rfl
@[simp] theorem State.setSp_stall (s : State) (v : Byte) : (s.setSp v).stall = s.stall := rfl
@[simp] theorem State.setSp_stepCycles (s : State) (v : Byte) : (s.setSp v).stepCycles = s.stepCycles := rfl
@[simp] theorem State.setSp_oamDma (s : State) (v : Byte) : (s.setSp v).oamDma = s.oamDma := rfl
@[simp] theorem State.setSp_ram (s : State) (v : Byte) : (s.setSp v).ram = s.ram := rfl
@[simp] theorem State.setSp_ppu (s : State) (v : Byte) : (s.setSp v).ppu = s.ppu := rfl
@[simp] theorem State.setSp_apu (s : State) (v : Byte) : (s.setSp v).apu = s.apu := rfl
@[simp] theorem State.setSp_pad (s : State) (v : Byte) : (s.setSp v).pad = s.pad := rfl
@[simp] theorem State.setSp_cart (s : State) (v : Byte) : (s.setSp v).cart = s.cart := rfl
@[simp] theorem State.setSp_draws (s : State) (v : Byte) : (s.setSp v).draws = s.draws := rfl

@[simp] theorem State.setPc_a (s : State) (v : Word) : (s.setPc v).a = s.a := rfl
@[simp] theorem State.setPc_x (s : State) (v : Word) : (s.setPc v).x = s.x := rfl
@[simp] theorem State.setPc_y (s : State) (v : Word) : (s.setPc v).y = s.y := rfl
@[simp] theorem State.setPc_sp (s : State) (v : Word) : (s.setPc v).sp = s.sp := rfl
@[simp] theorem State.setPc_pc (s : State) (v : Word) : (s.setPc v).pc = v := rfl
@[simp] theorem State.setPc_p (s : State) (v : Word) : (s.setPc v).p = s.p := rfl
@[simp] theorem State.setPc_nmiPending (s : State) (v : Word) : (s.setPc v).nmiPending = s.nmiPending := rfl
@[simp] theorem State.setPc_nmiPrev (s : State) (v : Word) : (s.setPc v).nmiPrev = s.nmiPrev := rfl
@[simp] theorem State.setPc_irqLine (s : State) (v : Word) : (s.setPc v).irqLine = s.irqLine := rfl
@[simp] theorem State.setPc_iPoll (s : State) (v : Word) : (s.setPc v).iPoll = s.iPoll := rfl
@[simp] theorem State.setPc_halted (s : State) (v : Word) : (s.setPc v).halted = s.halted := rfl
@[simp] theorem State.setPc_refused (s : State) (v : Word) : (s.setPc v).refused = s.refused := rfl
@[simp] theorem State.setPc_cyc (s : State) (v : Word) : (s.setPc v).cyc = s.cyc := rfl
@[simp] theorem State.setPc_stall (s : State) (v : Word) : (s.setPc v).stall = s.stall := rfl
@[simp] theorem State.setPc_stepCycles (s : State) (v : Word) : (s.setPc v).stepCycles = s.stepCycles := rfl
@[simp] theorem State.setPc_oamDma (s : State) (v : Word) : (s.setPc v).oamDma = s.oamDma := rfl
@[simp] theorem State.setPc_ram (s : State) (v : Word) : (s.setPc v).ram = s.ram := rfl
@[simp] theorem State.setPc_ppu (s : State) (v : Word) : (s.setPc v).ppu = s.ppu := rfl
@[simp] theorem State.setPc_apu (s : State) (v : Word) : (s.setPc v).apu = s.apu := rfl
@[simp] theorem State.setPc_pad (s : State) (v : Word) : (s.setPc v).pad = s.pad := rfl
@[simp] theorem State.setPc_cart (s : State) (v : Word) : (s.setPc v).cart = s.cart := rfl
@[simp] theorem State.setPc_draws (s : State) (v : Word) : (s.setPc v).draws = s.draws := rfl

@[simp] theorem State.setP_a (s : State) (v : Flags) : (s.setP v).a = s.a := rfl
@[simp] theorem State.setP_x (s : State) (v : Flags) : (s.setP v).x = s.x := rfl
@[simp] theorem State.setP_y (s : State) (v : Flags) : (s.setP v).y = s.y := rfl
@[simp] theorem State.setP_sp (s : State) (v : Flags) : (s.setP v).sp = s.sp := rfl
@[simp] theorem State.setP_pc (s : State) (v : Flags) : (s.setP v).pc = s.pc := rfl
@[simp] theorem State.setP_p (s : State) (v : Flags) : (s.setP v).p = v := rfl
@[simp] theorem State.setP_nmiPending (s : State) (v : Flags) : (s.setP v).nmiPending = s.nmiPending := rfl
@[simp] theorem State.setP_nmiPrev (s : State) (v : Flags) : (s.setP v).nmiPrev = s.nmiPrev := rfl
@[simp] theorem State.setP_irqLine (s : State) (v : Flags) : (s.setP v).irqLine = s.irqLine := rfl
@[simp] theorem State.setP_iPoll (s : State) (v : Flags) : (s.setP v).iPoll = s.iPoll := rfl
@[simp] theorem State.setP_halted (s : State) (v : Flags) : (s.setP v).halted = s.halted := rfl
@[simp] theorem State.setP_refused (s : State) (v : Flags) : (s.setP v).refused = s.refused := rfl
@[simp] theorem State.setP_cyc (s : State) (v : Flags) : (s.setP v).cyc = s.cyc := rfl
@[simp] theorem State.setP_stall (s : State) (v : Flags) : (s.setP v).stall = s.stall := rfl
@[simp] theorem State.setP_stepCycles (s : State) (v : Flags) : (s.setP v).stepCycles = s.stepCycles := rfl
@[simp] theorem State.setP_oamDma (s : State) (v : Flags) : (s.setP v).oamDma = s.oamDma := rfl
@[simp] theorem State.setP_ram (s : State) (v : Flags) : (s.setP v).ram = s.ram := rfl
@[simp] theorem State.setP_ppu (s : State) (v : Flags) : (s.setP v).ppu = s.ppu := rfl
@[simp] theorem State.setP_apu (s : State) (v : Flags) : (s.setP v).apu = s.apu := rfl
@[simp] theorem State.setP_pad (s : State) (v : Flags) : (s.setP v).pad = s.pad := rfl
@[simp] theorem State.setP_cart (s : State) (v : Flags) : (s.setP v).cart = s.cart := rfl
@[simp] theorem State.setP_draws (s : State) (v : Flags) : (s.setP v).draws = s.draws := rfl

@[simp] theorem State.addCycles_a (s : State) (k : Nat) : (s.addCycles k).a = s.a := rfl
@[simp] theorem State.addCycles_x (s : State) (k : Nat) : (s.addCycles k).x = s.x := rfl
@[simp] theorem State.addCycles_y (s : State) (k : Nat) : (s.addCycles k).y = s.y := rfl
@[simp] theorem State.addCycles_sp (s : State) (k : Nat) : (s.addCycles k).sp = s.sp := rfl
@[simp] theorem State.addCycles_pc (s : State) (k : Nat) : (s.addCycles k).pc = s.pc := rfl
@[simp] theorem State.addCycles_p (s : State) (k : Nat) : (s.addCycles k).p = s.p := rfl
@[simp] theorem State.addCycles_nmiPending (s : State) (k : Nat) : (s.addCycles k).nmiPending = s.nmiPending := rfl
@[simp] theorem State.addCycles_nmiPrev (s : State) (k : Nat) : (s.addCycles k).nmiPrev = s.nmiPrev := rfl
@[simp] theorem State.addCycles_irqLine (s : State) (k : Nat) : (s.addCycles k).irqLine = s.irqLine := rfl
@[simp] theorem State.addCycles_iPoll (s : State) (k : Nat) : (s.addCycles k).iPoll = s.iPoll := rfl
@[simp] theorem State.addCycles_halted (s : State) (k : Nat) : (s.addCycles k).halted = s.halted := rfl
@[simp] theorem State.addCycles_refused (s : State) (k : Nat) : (s.addCycles k).refused = s.refused := rfl
@[simp] theorem State.addCycles_cyc (s : State) (k : Nat) : (s.addCycles k).cyc = s.cyc := rfl
@[simp] theorem State.addCycles_stall (s : State) (k : Nat) : (s.addCycles k).stall = s.stall := rfl
@[simp] theorem State.addCycles_stepCycles (s : State) (k : Nat) : (s.addCycles k).stepCycles = s.stepCycles + k := rfl
@[simp] theorem State.addCycles_oamDma (s : State) (k : Nat) : (s.addCycles k).oamDma = s.oamDma := rfl
@[simp] theorem State.addCycles_ram (s : State) (k : Nat) : (s.addCycles k).ram = s.ram := rfl
@[simp] theorem State.addCycles_ppu (s : State) (k : Nat) : (s.addCycles k).ppu = s.ppu := rfl
@[simp] theorem State.addCycles_apu (s : State) (k : Nat) : (s.addCycles k).apu = s.apu := rfl
@[simp] theorem State.addCycles_pad (s : State) (k : Nat) : (s.addCycles k).pad = s.pad := rfl
@[simp] theorem State.addCycles_cart (s : State) (k : Nat) : (s.addCycles k).cart = s.cart := rfl
@[simp] theorem State.addCycles_draws (s : State) (k : Nat) : (s.addCycles k).draws = s.draws := rfl

@[simp] theorem State.halt_a (s : State) : (s.halt).a = s.a := rfl
@[simp] theorem State.halt_x (s : State) : (s.halt).x = s.x := rfl
@[simp] theorem State.halt_y (s : State) : (s.halt).y = s.y := rfl
@[simp] theorem State.halt_sp (s : State) : (s.halt).sp = s.sp := rfl
@[simp] theorem State.halt_pc (s : State) : (s.halt).pc = s.pc := rfl
@[simp] theorem State.halt_p (s : State) : (s.halt).p = s.p := rfl
@[simp] theorem State.halt_nmiPending (s : State) : (s.halt).nmiPending = s.nmiPending := rfl
@[simp] theorem State.halt_nmiPrev (s : State) : (s.halt).nmiPrev = s.nmiPrev := rfl
@[simp] theorem State.halt_irqLine (s : State) : (s.halt).irqLine = s.irqLine := rfl
@[simp] theorem State.halt_iPoll (s : State) : (s.halt).iPoll = s.iPoll := rfl
@[simp] theorem State.halt_halted (s : State) : (s.halt).halted = true := rfl
@[simp] theorem State.halt_refused (s : State) : (s.halt).refused = s.refused := rfl
@[simp] theorem State.halt_cyc (s : State) : (s.halt).cyc = s.cyc := rfl
@[simp] theorem State.halt_stall (s : State) : (s.halt).stall = s.stall := rfl
@[simp] theorem State.halt_stepCycles (s : State) : (s.halt).stepCycles = s.stepCycles := rfl
@[simp] theorem State.halt_oamDma (s : State) : (s.halt).oamDma = s.oamDma := rfl
@[simp] theorem State.halt_ram (s : State) : (s.halt).ram = s.ram := rfl
@[simp] theorem State.halt_ppu (s : State) : (s.halt).ppu = s.ppu := rfl
@[simp] theorem State.halt_apu (s : State) : (s.halt).apu = s.apu := rfl
@[simp] theorem State.halt_pad (s : State) : (s.halt).pad = s.pad := rfl
@[simp] theorem State.halt_cart (s : State) : (s.halt).cart = s.cart := rfl
@[simp] theorem State.halt_draws (s : State) : (s.halt).draws = s.draws := rfl

@[simp] theorem setNZ_eq (v : Byte) (s : State) : setNZ v s = s.setP { s.p with z := v == 0, n := v.msb } := rfl
@[simp] theorem setC_eq (c : Bool) (s : State) : setC c s = s.setP { s.p with c := c } := rfl
@[simp] theorem setI_eq (i : Bool) (s : State) : setI i s = s.setP { s.p with i := i } := rfl
@[simp] theorem setD_eq (d : Bool) (s : State) : setD d s = s.setP { s.p with d := d } := rfl
@[simp] theorem setV_eq (v : Bool) (s : State) : setV v s = s.setP { s.p with v := v } := rfl
@[simp] theorem loadA_eq (v : Byte) (s : State) : loadA v s = setNZ v (s.setA v) := rfl
@[simp] theorem loadX_eq (v : Byte) (s : State) : loadX v s = setNZ v (s.setX v) := rfl
@[simp] theorem loadY_eq (v : Byte) (s : State) : loadY v s = setNZ v (s.setY v) := rfl
@[simp] theorem loadP_eq (v : Byte) (s : State) : loadP v s = s.setP (Flags.ofByte v) := rfl

/-- What a storage address holds depends on work RAM and the cartridge only. -/
theorem State.peek_congr {s t : State} (hr : t.ram = s.ram) (hc : t.cart = s.cart) (a : Word) :
    t.peek a = s.peek a := by
  unfold State.peek; rw [hr, hc]

/-- The invariant depends on the memories and devices only. -/
theorem State.wf_congr {s t : State} (hr : t.ram = s.ram) (hc : t.cart = s.cart) (hp : t.ppu = s.ppu)
    (ha : t.apu = s.apu) : t.wf = s.wf := by
  unfold State.wf State.memoryWf; rw [hr, hc, hp, ha]

@[simp] theorem State.setA_peek (s : State) (v : Byte) (w : Word) : (s.setA v).peek w = s.peek w := rfl
@[simp] theorem State.setA_wf (s : State) (v : Byte) : (s.setA v).wf = s.wf := rfl
@[simp] theorem State.setX_peek (s : State) (v : Byte) (w : Word) : (s.setX v).peek w = s.peek w := rfl
@[simp] theorem State.setX_wf (s : State) (v : Byte) : (s.setX v).wf = s.wf := rfl
@[simp] theorem State.setY_peek (s : State) (v : Byte) (w : Word) : (s.setY v).peek w = s.peek w := rfl
@[simp] theorem State.setY_wf (s : State) (v : Byte) : (s.setY v).wf = s.wf := rfl
@[simp] theorem State.setSp_peek (s : State) (v : Byte) (w : Word) : (s.setSp v).peek w = s.peek w := rfl
@[simp] theorem State.setSp_wf (s : State) (v : Byte) : (s.setSp v).wf = s.wf := rfl
@[simp] theorem State.setPc_peek (s : State) (v : Word) (w : Word) : (s.setPc v).peek w = s.peek w := rfl
@[simp] theorem State.setPc_wf (s : State) (v : Word) : (s.setPc v).wf = s.wf := rfl
@[simp] theorem State.setP_peek (s : State) (v : Flags) (w : Word) : (s.setP v).peek w = s.peek w := rfl
@[simp] theorem State.setP_wf (s : State) (v : Flags) : (s.setP v).wf = s.wf := rfl
@[simp] theorem State.addCycles_peek (s : State) (k : Nat) (w : Word) : (s.addCycles k).peek w = s.peek w := rfl
@[simp] theorem State.addCycles_wf (s : State) (k : Nat) : (s.addCycles k).wf = s.wf := rfl
@[simp] theorem State.halt_peek (s : State) (w : Word) : (s.halt).peek w = s.peek w := rfl
@[simp] theorem State.halt_wf (s : State) : (s.halt).wf = s.wf := rfl

end Sys2Proof.Machine
end

