-- ==== Sys2Proof/Laws/Bus.lean ====
section
/-! SUPPORT. What a bus access can do: everything a read or a write can change, its value at a storage address, and that
it keeps the invariant. -/

namespace Sys2Proof.Machine

/-- A device read changes at most the devices and the draw counter. -/
theorem readDevice_frame (a : Word) (s : State) :
    ∃ ppu apu pad draws,
      (readDevice a s).2 = { s with ppu := ppu, apu := apu, pad := pad, draws := draws } := by
  unfold readDevice
  split
  · unfold readPpu
    split <;> exact ⟨_, _, _, _, rfl⟩
  · split
    · exact ⟨_, _, _, _, rfl⟩
    · split
      · exact ⟨_, _, _, _, rfl⟩
      · split <;> exact ⟨_, _, _, _, rfl⟩

/-- Everything a bus read can do to the state. -/
theorem busRead_frame (a : Word) (s : State) :
    ∃ ppu apu pad draws, (busRead a s).2 = { s with ppu := ppu, apu := apu, pad := pad, draws := draws } := by
  unfold busRead
  split
  · exact ⟨_, _, _, _, rfl⟩
  · exact readDevice_frame a s

/-- A read of storage gives the byte held there and has no side effect. -/
theorem busRead_of_peek {a : Word} {s : State} {v : Byte} (h : s.peek a = some v) : busRead a s = (v, s) := by
  unfold busRead; rw [h]

/-- Everything a bus write can do to the state. -/
theorem busWrite_frame (a : Word) (v : Byte) (s : State) :
    ∃ ram ppu apu pad cart oamDma draws,
      busWrite a v s =
        { s with ram := ram, ppu := ppu, apu := apu, pad := pad, cart := cart, oamDma := oamDma, draws := draws } := by
  unfold busWrite
  split
  · exact ⟨_, _, _, _, _, _, _, rfl⟩
  · split
    · unfold writeDevice
      split
      · unfold writePpu
        split <;> first
          | exact ⟨_, _, _, _, _, _, _, rfl⟩
          | (unfold writePpuData State.setPpuCell; split <;> exact ⟨_, _, _, _, _, _, _, rfl⟩)
      · split
        · exact ⟨_, _, _, _, _, _, _, rfl⟩
        · split
          · exact ⟨_, _, _, _, _, _, _, rfl⟩
          · split
            · exact ⟨_, _, _, _, _, _, _, rfl⟩
            · split
              · exact ⟨_, _, _, _, _, _, _, rfl⟩
              · split
                · unfold writeFrameControl
                  split <;> exact ⟨_, _, _, _, _, _, _, rfl⟩
                · exact ⟨_, _, _, _, _, _, _, rfl⟩
    · split <;> exact ⟨_, _, _, _, _, _, _, rfl⟩

@[simp] theorem busRead_a (a : Word) (s : State) : (busRead a s).2.a = s.a := by
  obtain ⟨_, _, _, _, h⟩ := busRead_frame a s; rw [h]
@[simp] theorem busRead_x (a : Word) (s : State) : (busRead a s).2.x = s.x := by
  obtain ⟨_, _, _, _, h⟩ := busRead_frame a s; rw [h]
@[simp] theorem busRead_y (a : Word) (s : State) : (busRead a s).2.y = s.y := by
  obtain ⟨_, _, _, _, h⟩ := busRead_frame a s; rw [h]
@[simp] theorem busRead_sp (a : Word) (s : State) : (busRead a s).2.sp = s.sp := by
  obtain ⟨_, _, _, _, h⟩ := busRead_frame a s; rw [h]
@[simp] theorem busRead_pc (a : Word) (s : State) : (busRead a s).2.pc = s.pc := by
  obtain ⟨_, _, _, _, h⟩ := busRead_frame a s; rw [h]
@[simp] theorem busRead_p (a : Word) (s : State) : (busRead a s).2.p = s.p := by
  obtain ⟨_, _, _, _, h⟩ := busRead_frame a s; rw [h]
@[simp] theorem busRead_nmiPending (a : Word) (s : State) : (busRead a s).2.nmiPending = s.nmiPending := by
  obtain ⟨_, _, _, _, h⟩ := busRead_frame a s; rw [h]
@[simp] theorem busRead_nmiPrev (a : Word) (s : State) : (busRead a s).2.nmiPrev = s.nmiPrev := by
  obtain ⟨_, _, _, _, h⟩ := busRead_frame a s; rw [h]
@[simp] theorem busRead_irqLine (a : Word) (s : State) : (busRead a s).2.irqLine = s.irqLine := by
  obtain ⟨_, _, _, _, h⟩ := busRead_frame a s; rw [h]
@[simp] theorem busRead_iPoll (a : Word) (s : State) : (busRead a s).2.iPoll = s.iPoll := by
  obtain ⟨_, _, _, _, h⟩ := busRead_frame a s; rw [h]
@[simp] theorem busRead_halted (a : Word) (s : State) : (busRead a s).2.halted = s.halted := by
  obtain ⟨_, _, _, _, h⟩ := busRead_frame a s; rw [h]
@[simp] theorem busRead_refused (a : Word) (s : State) : (busRead a s).2.refused = s.refused := by
  obtain ⟨_, _, _, _, h⟩ := busRead_frame a s; rw [h]
@[simp] theorem busRead_cyc (a : Word) (s : State) : (busRead a s).2.cyc = s.cyc := by
  obtain ⟨_, _, _, _, h⟩ := busRead_frame a s; rw [h]
@[simp] theorem busRead_stall (a : Word) (s : State) : (busRead a s).2.stall = s.stall := by
  obtain ⟨_, _, _, _, h⟩ := busRead_frame a s; rw [h]
@[simp] theorem busRead_stepCycles (a : Word) (s : State) : (busRead a s).2.stepCycles = s.stepCycles := by
  obtain ⟨_, _, _, _, h⟩ := busRead_frame a s; rw [h]
@[simp] theorem busRead_oamDma (a : Word) (s : State) : (busRead a s).2.oamDma = s.oamDma := by
  obtain ⟨_, _, _, _, h⟩ := busRead_frame a s; rw [h]
@[simp] theorem busRead_ram (a : Word) (s : State) : (busRead a s).2.ram = s.ram := by
  obtain ⟨_, _, _, _, h⟩ := busRead_frame a s; rw [h]
@[simp] theorem busRead_cart (a : Word) (s : State) : (busRead a s).2.cart = s.cart := by
  obtain ⟨_, _, _, _, h⟩ := busRead_frame a s; rw [h]

@[simp] theorem busRead_peek (a b : Word) (s : State) : (busRead a s).2.peek b = s.peek b :=
  State.peek_congr (busRead_ram a s) (busRead_cart a s) b

@[simp] theorem busWrite_a (a : Word) (v : Byte) (s : State) : (busWrite a v s).a = s.a := by
  obtain ⟨_, _, _, _, _, _, _, h⟩ := busWrite_frame a v s; rw [h]
@[simp] theorem busWrite_x (a : Word) (v : Byte) (s : State) : (busWrite a v s).x = s.x := by
  obtain ⟨_, _, _, _, _, _, _, h⟩ := busWrite_frame a v s; rw [h]
@[simp] theorem busWrite_y (a : Word) (v : Byte) (s : State) : (busWrite a v s).y = s.y := by
  obtain ⟨_, _, _, _, _, _, _, h⟩ := busWrite_frame a v s; rw [h]
@[simp] theorem busWrite_sp (a : Word) (v : Byte) (s : State) : (busWrite a v s).sp = s.sp := by
  obtain ⟨_, _, _, _, _, _, _, h⟩ := busWrite_frame a v s; rw [h]
@[simp] theorem busWrite_pc (a : Word) (v : Byte) (s : State) : (busWrite a v s).pc = s.pc := by
  obtain ⟨_, _, _, _, _, _, _, h⟩ := busWrite_frame a v s; rw [h]
@[simp] theorem busWrite_p (a : Word) (v : Byte) (s : State) : (busWrite a v s).p = s.p := by
  obtain ⟨_, _, _, _, _, _, _, h⟩ := busWrite_frame a v s; rw [h]
@[simp] theorem busWrite_nmiPending (a : Word) (v : Byte) (s : State) : (busWrite a v s).nmiPending = s.nmiPending := by
  obtain ⟨_, _, _, _, _, _, _, h⟩ := busWrite_frame a v s; rw [h]
@[simp] theorem busWrite_nmiPrev (a : Word) (v : Byte) (s : State) : (busWrite a v s).nmiPrev = s.nmiPrev := by
  obtain ⟨_, _, _, _, _, _, _, h⟩ := busWrite_frame a v s; rw [h]
@[simp] theorem busWrite_irqLine (a : Word) (v : Byte) (s : State) : (busWrite a v s).irqLine = s.irqLine := by
  obtain ⟨_, _, _, _, _, _, _, h⟩ := busWrite_frame a v s; rw [h]
@[simp] theorem busWrite_iPoll (a : Word) (v : Byte) (s : State) : (busWrite a v s).iPoll = s.iPoll := by
  obtain ⟨_, _, _, _, _, _, _, h⟩ := busWrite_frame a v s; rw [h]
@[simp] theorem busWrite_halted (a : Word) (v : Byte) (s : State) : (busWrite a v s).halted = s.halted := by
  obtain ⟨_, _, _, _, _, _, _, h⟩ := busWrite_frame a v s; rw [h]
@[simp] theorem busWrite_refused (a : Word) (v : Byte) (s : State) : (busWrite a v s).refused = s.refused := by
  obtain ⟨_, _, _, _, _, _, _, h⟩ := busWrite_frame a v s; rw [h]
@[simp] theorem busWrite_cyc (a : Word) (v : Byte) (s : State) : (busWrite a v s).cyc = s.cyc := by
  obtain ⟨_, _, _, _, _, _, _, h⟩ := busWrite_frame a v s; rw [h]
@[simp] theorem busWrite_stall (a : Word) (v : Byte) (s : State) : (busWrite a v s).stall = s.stall := by
  obtain ⟨_, _, _, _, _, _, _, h⟩ := busWrite_frame a v s; rw [h]
@[simp] theorem busWrite_stepCycles (a : Word) (v : Byte) (s : State) : (busWrite a v s).stepCycles = s.stepCycles := by
  obtain ⟨_, _, _, _, _, _, _, h⟩ := busWrite_frame a v s; rw [h]

/-! ## Page zero and the stack page -/

theorem zext_toNat (b : Byte) : (zext b).toNat = b.toNat := by
  have := b.isLt
  simp only [zext, BitVec.toNat_setWidth]; omega

theorem mkWord_toNat (hi lo : Byte) : (mkWord hi lo).toNat = hi.toNat * 256 + lo.toNat := by
  have := lo.isLt
  simp only [mkWord, BitVec.toNat_append]
  rw [Nat.shiftLeft_eq, Nat.mul_comm, ← Nat.two_pow_add_eq_or_of_lt (by omega)]

theorem stackAddr_toNat (sp : Byte) : (stackAddr sp).toNat = 0x100 + sp.toNat := by
  simp [stackAddr, mkWord_toNat]

@[simp] theorem ramCell_zext (b : Byte) : ramCell (zext b) = b.toNat := by
  have := b.isLt
  simp only [ramCell, zext_toNat]; omega

@[simp] theorem ramCell_stackAddr (sp : Byte) : ramCell (stackAddr sp) = 0x100 + sp.toNat := by
  have := sp.isLt
  simp only [ramCell, stackAddr_toNat]; omega

theorem State.peek_ram {a : Word} (s : State) (h : a.toNat < 0x2000) : s.peek a = some (s.ram.get (ramCell a)) := by
  unfold State.peek; rw [if_pos h]

theorem busRead_ramAddr {a : Word} (s : State) (h : a.toNat < 0x2000) :
    busRead a s = (s.ram.get (ramCell a), s) :=
  busRead_of_peek (s.peek_ram h)

@[simp] theorem busRead_zext (b : Byte) (s : State) : busRead (zext b) s = (s.ram.get b.toNat, s) := by
  have := b.isLt
  rw [busRead_ramAddr s (by rw [zext_toNat]; omega), ramCell_zext]

@[simp] theorem busRead_stackAddr (sp : Byte) (s : State) :
    busRead (stackAddr sp) s = (s.ram.get (0x100 + sp.toNat), s) := by
  have := sp.isLt
  rw [busRead_ramAddr s (by rw [stackAddr_toNat]; omega), ramCell_stackAddr]

theorem busWrite_ramAddr {a : Word} (v : Byte) (s : State) (h : a.toNat < 0x2000) :
    busWrite a v s = { s with ram := s.ram.set (ramCell a) v } := by
  unfold busWrite; rw [if_pos h]

@[simp] theorem busWrite_stackAddr (sp v : Byte) (s : State) :
    busWrite (stackAddr sp) v s = { s with ram := s.ram.set (0x100 + sp.toNat) v } := by
  have := sp.isLt
  rw [busWrite_ramAddr v s (by rw [stackAddr_toNat]; omega), ramCell_stackAddr]

/-- A zero-page read is the work-RAM cell. -/
@[simp] theorem readZeroPage_eq (b : Byte) (s : State) : readZeroPage b s = s.ram.get b.toNat := by
  simp [readZeroPage]

/-- The word at a zero-page pointer, from work RAM (30 R103, R104). -/
@[simp] theorem pointer_eq (b : Byte) (s : State) :
    pointer b s = mkWord (s.ram.get (b + 1).toNat) (s.ram.get b.toNat) := by
  simp [pointer]

/-! ## The invariant -/

theorem wf_iff (s : State) : s.wf = true ↔
    (Memory.wf 0x800 s.ram = true ∧ Memory.wf 0x2000 s.cart.prgRam = true ∧
      Memory.wf (0x4000 * s.cart.prgBanks) s.cart.prgRom = true ∧ Memory.wf s.cart.chrSize s.cart.chr = true ∧
      Memory.wf 0x100 s.ppu.oam = true ∧ Memory.wf 0x1000 s.ppu.nametable = true ∧
      Memory.wf 0x20 s.ppu.palette = true ∧ Memory.wf 0x20 s.apu.regs = true) ∧
      s.ppu.wf = true ∧ s.cart.wf = true ∧ s.apu.wf = true := by
  simp [State.wf, State.memoryWf, and_assoc]

/-- What the invariant says of work RAM. -/
theorem State.wf.ram {s : State} (h : s.wf = true) : Memory.wf 0x800 s.ram = true := ((wf_iff s).1 h).1.1

theorem readDevice_wf {a : Word} {s : State} (h : s.wf = true) : (readDevice a s).2.wf = true := by
  have hs := (wf_iff s).1 h
  unfold readDevice
  split
  · unfold readPpu
    split
    · exact (wf_iff _).2 hs
    · exact h
    · exact (wf_iff _).2 hs
    · exact (wf_iff _).2 hs
  · split
    · exact (wf_iff _).2 hs
    · split
      · exact (wf_iff _).2 hs
      · split <;> exact (wf_iff _).2 hs

/-- A bus read keeps the invariant. -/
theorem busRead_wf {a : Word} {s : State} (h : s.wf = true) : (busRead a s).2.wf = true := by
  unfold busRead
  split
  · exact h
  · exact readDevice_wf h

theorem chrOffset_lt (c : Cart) (h : c.chrBanks = 0) (off : BitVec 13) : c.chrOffset off < c.chrSize := by
  have hs : c.chrSize = 0x2000 := by simp [Cart.chrSize, h]
  have := off.isLt
  rw [hs]
  unfold Cart.chrOffset
  rw [hs]
  split
  · omega
  · omega
  · have : ∀ n : Nat, n % 2 ≤ 1 := fun n => by omega
    have := this (if off.getLsbD 12 then c.chr1 else c.chr0).toNat
    simp only [Nat.reduceDiv]
    omega

theorem Cart.chrWrite_wf {c : Cart} {off : BitVec 13} {v : Byte} (h : Memory.wf c.chrSize c.chr = true) :
    Memory.wf (c.chrWrite off v).chrSize (c.chrWrite off v).chr = true := by
  unfold Cart.chrWrite
  split
  · next hb => exact Memory.wf_set h (chrOffset_lt c hb off)
  · exact h

@[simp] theorem Cart.chrWrite_prgRam (c : Cart) (off : BitVec 13) (v : Byte) :
    (c.chrWrite off v).prgRam = c.prgRam := by
  unfold Cart.chrWrite; split <;> rfl
@[simp] theorem Cart.chrWrite_prgRom (c : Cart) (off : BitVec 13) (v : Byte) :
    (c.chrWrite off v).prgRom = c.prgRom := by
  unfold Cart.chrWrite; split <;> rfl
@[simp] theorem Cart.chrWrite_prgBanks (c : Cart) (off : BitVec 13) (v : Byte) :
    (c.chrWrite off v).prgBanks = c.prgBanks := by
  unfold Cart.chrWrite; split <;> rfl
@[simp] theorem Cart.chrWrite_wf' (c : Cart) (off : BitVec 13) (v : Byte) : (c.chrWrite off v).wf = c.wf := by
  unfold Cart.chrWrite; split <;> rfl

theorem setPpuCell_wf {s : State} (t : PpuTarget) (v : Byte) (h : s.wf = true) :
    (s.setPpuCell t v).wf = true := by
  obtain ⟨⟨h1, h2, h3, h4, h5, h6, h7, h8⟩, hp, hc, ha⟩ := (wf_iff s).1 h
  cases t with
  | graphics off =>
    refine (wf_iff _).2 ⟨⟨h1, ?_, ?_, Cart.chrWrite_wf h4, h5, h6, h7, h8⟩, hp, ?_, ha⟩
    · simpa [State.setPpuCell] using h2
    · simpa [State.setPpuCell] using h3
    · simpa [State.setPpuCell] using hc
  | nametable i => exact (wf_iff _).2 ⟨⟨h1, h2, h3, h4, h5, Memory.wf_set h6 i.isLt, h7, h8⟩, hp, hc, ha⟩
  | palette i => exact (wf_iff _).2 ⟨⟨h1, h2, h3, h4, h5, h6, Memory.wf_set h7 i.isLt, h8⟩, hp, hc, ha⟩

theorem writePpu_wf {a : Word} {v : Byte} {s : State} (h : s.wf = true) : (writePpu a v s).wf = true := by
  have hs := (wf_iff s).1 h
  obtain ⟨⟨h1, h2, h3, h4, h5, h6, h7, h8⟩, hp, hc, ha⟩ := hs
  unfold writePpu
  split
  · exact (wf_iff _).2 ⟨⟨h1, h2, h3, h4, h5, h6, h7, h8⟩, hp, hc, ha⟩
  · exact (wf_iff _).2 ⟨⟨h1, h2, h3, h4, h5, h6, h7, h8⟩, hp, hc, ha⟩
  · exact h
  · exact (wf_iff _).2 ⟨⟨h1, h2, h3, h4, h5, h6, h7, h8⟩, hp, hc, ha⟩
  · exact (wf_iff _).2 ⟨⟨h1, h2, h3, h4, Memory.wf_set h5 s.ppu.oamAddr.isLt, h6, h7, h8⟩, hp, hc, ha⟩
  · unfold Ppu.writeScroll
    split <;> exact (wf_iff _).2 ⟨⟨h1, h2, h3, h4, h5, h6, h7, h8⟩, hp, hc, ha⟩
  · unfold Ppu.writeAddr
    split <;> exact (wf_iff _).2 ⟨⟨h1, h2, h3, h4, h5, h6, h7, h8⟩, hp, hc, ha⟩
  · exact setPpuCell_wf (Config.ppuTarget s.draws) v h

theorem writeEnable_wf {u : Apu} {v : Byte} (h : u.wf = true) : (u.writeEnable v).wf = true := by
  unfold Apu.writeEnable
  simp only
  split
  · split <;> exact h
  · exact h

@[simp] theorem writeEnable_regs (u : Apu) (v : Byte) : (u.writeEnable v).regs = u.regs := by
  unfold Apu.writeEnable
  simp only
  split
  · split <;> rfl
  · rfl

theorem writeFrameControl_wf {v : Byte} {s : State} (h : s.wf = true) : (writeFrameControl v s).wf = true := by
  obtain ⟨hm, hp, hc, ha⟩ := (wf_iff s).1 h
  unfold writeFrameControl
  simp only
  split
  · exact (wf_iff _).2 ⟨hm, hp, hc, by simp [Apu.wf, frameEarliest]⟩
  · refine (wf_iff _).2 ⟨hm, hp, hc, ?_⟩
    simp only [Apu.wf, decide_eq_true_eq]
    exact Nat.mod_lt _ (by simp [frameEarliest])

theorem writeDevice_wf {a : Word} {v : Byte} {s : State} (h : s.wf = true) : (writeDevice a v s).wf = true := by
  obtain ⟨⟨h1, h2, h3, h4, h5, h6, h7, h8⟩, hp, hc, ha⟩ := (wf_iff s).1 h
  unfold writeDevice
  split
  · exact writePpu_wf h
  · split
    · exact (wf_iff _).2 ⟨⟨h1, h2, h3, h4, h5, h6, h7, Memory.wf_set h8 (Nat.mod_lt _ (by omega))⟩, hp, hc, ha⟩
    · split
      · exact (wf_iff _).2 ⟨⟨h1, h2, h3, h4, h5, h6, h7, h8⟩, hp, hc, ha⟩
      · split
        · exact (wf_iff _).2 ⟨⟨h1, h2, h3, h4, h5, h6, h7, by simpa using h8⟩, hp, hc, writeEnable_wf ha⟩
        · split
          · exact (wf_iff _).2 ⟨⟨h1, h2, h3, h4, h5, h6, h7, h8⟩, hp, hc, ha⟩
          · split
            · exact writeFrameControl_wf h
            · exact h

/-- A serial write touches the mapper's registers only. -/
theorem mapperWrite_frame (c : Cart) (a : Word) (v : Byte) :
    ∃ shift count control chr0 chr1 prg committed,
      c.mapperWrite a v =
        { c with shift := shift, count := count, control := control, chr0 := chr0, chr1 := chr1, prg := prg
                 controlCommitted := committed } := by
  unfold Cart.mapperWrite
  split
  · exact ⟨_, _, _, _, _, _, _, rfl⟩
  · split
    · exact ⟨_, _, _, _, _, _, _, rfl⟩
    · simp only
      split
      · unfold Cart.commit
        split <;> exact ⟨_, _, _, _, _, _, _, rfl⟩
      · exact ⟨_, _, _, _, _, _, _, rfl⟩

/-- The accumulator holds as many bits as the count says after a serial write too (60 R346). -/
theorem mapperWrite_wf {c : Cart} {a : Word} {v : Byte} (h : c.wf = true) : (c.mapperWrite a v).wf = true := by
  unfold Cart.mapperWrite
  split
  · exact h
  · split
    · simp [Cart.wf]
    · simp only
      split
      · unfold Cart.commit
        split <;> simp [Cart.wf]
      · next hne =>
        simp only [Cart.wf, Bool.and_eq_true, decide_eq_true_eq] at h ⊢
        refine ⟨by omega, ?_⟩
        rw [BitVec.toNat_or]
        have hb : ((v.extractLsb' 0 1).setWidth 5 <<< c.count).toNat < 2 ^ (c.count + 1) := by
          rw [BitVec.toNat_shiftLeft, BitVec.toNat_setWidth]
          have h1 := (v.extractLsb' 0 1).isLt
          have h2 : (v.extractLsb' 0 1).toNat % 2 ^ 5 ≤ 1 := by omega
          refine Nat.lt_of_le_of_lt (Nat.mod_le _ _) ?_
          rw [Nat.shiftLeft_eq, Nat.pow_succ, Nat.mul_comm]
          have := Nat.pow_pos (n := c.count) (show 0 < 2 by omega)
          calc 2 ^ c.count * ((v.extractLsb' 0 1).toNat % 2 ^ 5) ≤ 2 ^ c.count * 1 :=
                Nat.mul_le_mul_left _ h2
            _ < 2 ^ c.count * 2 := by omega
        exact Nat.or_lt_two_pow (Nat.lt_trans h.2 (Nat.pow_lt_pow_right (by omega) (by omega))) hb

/-- A bus write keeps the invariant. -/
theorem busWrite_wf {a : Word} {v : Byte} {s : State} (h : s.wf = true) : (busWrite a v s).wf = true := by
  obtain ⟨⟨h1, h2, h3, h4, h5, h6, h7, h8⟩, hp, hc, ha⟩ := (wf_iff s).1 h
  unfold busWrite
  split
  · exact (wf_iff _).2 ⟨⟨Memory.wf_set h1 (Nat.mod_lt _ (by omega)), h2, h3, h4, h5, h6, h7, h8⟩, hp, hc, ha⟩
  · split
    · exact writeDevice_wf h
    · split
      · exact (wf_iff _).2
          ⟨⟨h1, Memory.wf_set h2 (Nat.mod_lt _ (by omega)), h3, h4, h5, h6, h7, h8⟩, hp, hc, ha⟩
      · have hw := mapperWrite_wf (a := a) (v := v) hc
        obtain ⟨_, _, _, _, _, _, _, e⟩ := mapperWrite_frame s.cart a v
        refine (wf_iff _).2 ⟨?_, hp, hw, ha⟩
        rw [e]
        exact ⟨h1, h2, h3, h4, h5, h6, h7, h8⟩

end Sys2Proof.Machine
end

