-- ==== Sys2Proof/Laws/Ops.lean ====
section
/-! SUPPORT. What the shared operations can do: the stack, interrupt entry and return, operands, fetch; and that each
keeps the invariant. -/

namespace Sys2Proof.Machine

/-! ## A bus access neither reads nor writes the CPU's registers -/

/-- A bus read in a state with other CPU registers gives the same byte, and the same state with those registers. -/
theorem busRead_cpu (a : Word) (s : State) (ra rx ry rsp : Byte) (rpc : Word) (rp : Flags) (k : Nat) (h : Bool) :
    busRead a { s with a := ra, x := rx, y := ry, sp := rsp, pc := rpc, p := rp, stepCycles := k, halted := h } =
      ((busRead a s).1,
        { (busRead a s).2 with
            a := ra, x := rx, y := ry, sp := rsp, pc := rpc, p := rp, stepCycles := k, halted := h }) := by
  have hp : State.peek { s with a := ra, x := rx, y := ry, sp := rsp, pc := rpc, p := rp, stepCycles := k, halted := h } a
      = s.peek a := rfl
  unfold busRead
  rw [hp]
  cases s.peek a with
  | some v => rfl
  | none =>
    simp only [readDevice]
    split
    · unfold readPpu; split <;> rfl
    · split
      · rfl
      · split
        · rfl
        · split <;> rfl

/-- A bus write in a state with other CPU registers does the same to everything else. -/
theorem busWrite_cpu (a : Word) (v : Byte) (s : State) (ra rx ry rsp : Byte) (rpc : Word) (rp : Flags) (k : Nat)
    (h : Bool) :
    busWrite a v { s with a := ra, x := rx, y := ry, sp := rsp, pc := rpc, p := rp, stepCycles := k, halted := h } =
      { busWrite a v s with
          a := ra, x := rx, y := ry, sp := rsp, pc := rpc, p := rp, stepCycles := k, halted := h } := by
  unfold busWrite
  split
  · rfl
  · split
    · unfold writeDevice
      split
      · unfold writePpu
        split <;> first
          | rfl
          | (simp only [writePpuData, State.setPpuCell]; cases Config.ppuTarget s.draws <;> rfl)
      · split
        · rfl
        · split
          · rfl
          · split
            · rfl
            · split
              · rfl
              · split
                · unfold writeFrameControl; simp only; split <;> rfl
                · rfl
    · split <;> rfl

@[simp] theorem busWrite_setP (a : Word) (v : Byte) (s : State) (p : Flags) :
    busWrite a v (s.setP p) = (busWrite a v s).setP p := by
  have h := busWrite_cpu a v s s.a s.x s.y s.sp s.pc p s.stepCycles s.halted
  refine Eq.trans h ?_
  obtain ⟨_, _, _, _, _, _, _, e⟩ := busWrite_frame a v s
  rw [e]; rfl

@[simp] theorem busWrite_setSp (a : Word) (v : Byte) (s : State) (sp : Byte) :
    busWrite a v (s.setSp sp) = (busWrite a v s).setSp sp := by
  have h := busWrite_cpu a v s s.a s.x s.y sp s.pc s.p s.stepCycles s.halted
  refine Eq.trans h ?_
  obtain ⟨_, _, _, _, _, _, _, e⟩ := busWrite_frame a v s
  rw [e]; rfl

/-! ## The stack (10_state.md R24) -/

/-- A push writes one byte of page `$01` and moves `SP`; nothing else. -/
theorem push_eq (v : Byte) (s : State) :
    push v s = { s with ram := s.ram.set (0x100 + s.sp.toNat) v, sp := s.sp - 1 } := by
  simp [push, State.setSp]

/-- A pull reads one byte of page `$01` and moves `SP`; nothing else. -/
theorem pull_eq (s : State) : pull s = (s.ram.get (0x100 + (s.sp + 1).toNat), s.setSp (s.sp + 1)) := by
  simp [pull]

/-- A 16-bit push: the high byte at the first cell, the low byte below it. -/
theorem pushWord_eq (w : Word) (s : State) :
    pushWord w s =
      { s with
        ram := (s.ram.set (0x100 + s.sp.toNat) (hiByte w)).set (0x100 + (s.sp - 1).toNat) (loByte w)
        sp := s.sp - 1 - 1 } := by
  simp [pushWord, push_eq]

/-- A 16-bit pull: the low byte from the first cell, the high byte from the one above it. -/
theorem pullWord_eq (s : State) :
    pullWord s =
      (mkWord (s.ram.get (0x100 + (s.sp + 1 + 1).toNat)) (s.ram.get (0x100 + (s.sp + 1).toNat)),
        s.setSp (s.sp + 1 + 1)) := by
  simp [pullWord, pull_eq, State.setSp]

/-! ## Words in memory (20_memory.md R51, R55) -/

/-- A 16-bit read of storage: low byte first, no side effect. -/
theorem read16_of_peek {a : Word} {s : State} {lo hi : Byte} (hl : s.peek a = some lo)
    (hh : s.peek (a + 1) = some hi) : read16 a s = (mkWord hi lo, s) := by
  rw [read16, busRead_of_peek hl]
  simp only
  rw [busRead_of_peek hh]

/-- The byte a program address reads. -/
theorem State.peek_rom {a : Word} (s : State) (h : 0x8000 ≤ a.toNat) :
    s.peek a = some (s.cart.prgRom.get (s.cart.prgOffset a)) := by
  unfold State.peek
  rw [if_neg (by omega), if_neg (by omega), if_neg (by omega)]

/-- The word at a vector: a read of program ROM, which changes nothing (60 R301). -/
def State.vectorWord (s : State) (vec : Word) : Word :=
  mkWord (s.cart.prgRom.get (s.cart.prgOffset (vec + 1))) (s.cart.prgRom.get (s.cart.prgOffset vec))

theorem read16_vector {vec : Word} {s : State} (h : 0x8000 ≤ vec.toNat) (h' : 0x8000 ≤ (vec + 1).toNat) :
    read16 vec s = (s.vectorWord vec, s) :=
  read16_of_peek (s.peek_rom h) (s.peek_rom h')

/-- Everything an interrupt entry does (60 R309). -/
theorem interruptEntry_eq {vec : Word} {b : Bool} {s : State} (h : 0x8000 ≤ vec.toNat)
    (h' : 0x8000 ≤ (vec + 1).toNat) :
    interruptEntry vec b s =
      { s with
        ram := ((s.ram.set (0x100 + s.sp.toNat) (hiByte s.pc)).set (0x100 + (s.sp - 1).toNat) (loByte s.pc)).set
          (0x100 + (s.sp - 1 - 1).toNat) (s.p.image b)
        sp := s.sp - 1 - 1 - 1
        p := { s.p with i := true }
        pc := s.vectorWord vec
        stepCycles := s.stepCycles + 7 } := by
  simp only [interruptEntry, push_eq, pushWord_eq, read16_vector h h']
  rfl

/-- Everything a return from interrupt does (60 R314). -/
theorem interruptReturn_eq (s : State) :
    interruptReturn s =
      { s with
        p := Flags.ofByte (s.ram.get (0x100 + (s.sp + 1).toNat))
        pc := mkWord (s.ram.get (0x100 + (s.sp + 1 + 1 + 1).toNat)) (s.ram.get (0x100 + (s.sp + 1 + 1).toNat))
        sp := s.sp + 1 + 1 + 1 } := by
  simp [interruptReturn, pull_eq, pullWord_eq, State.setSp, State.setP, State.setPc]

/-! ## Operands -/

/-- Everything reading an operand can do to the state. -/
theorem readOperand_frame (o : Operand) (s : State) :
    ∃ ppu apu pad draws,
      (readOperand o s).2 = { s with ppu := ppu, apu := apu, pad := pad, draws := draws } := by
  cases o <;> first | exact ⟨_, _, _, _, rfl⟩ | exact busRead_frame _ _

/-- Everything writing an operand can do to the state. -/
theorem writeOperand_frame (o : Operand) (a : Word) (v : Byte) (s : State) :
    ∃ ra ram ppu apu pad cart oamDma draws,
      writeOperand o a v s =
        { s with a := ra, ram := ram, ppu := ppu, apu := apu, pad := pad, cart := cart, oamDma := oamDma,
                 draws := draws } := by
  cases o <;> first
    | exact ⟨_, _, _, _, _, _, _, _, rfl⟩
    | (obtain ⟨_, _, _, _, _, _, _, h⟩ := busWrite_frame a v s
       exact ⟨s.a, _, _, _, _, _, _, _, h⟩)

theorem readOperand_wf {o : Operand} {s : State} (h : s.wf = true) : (readOperand o s).2.wf = true := by
  cases o <;> first | exact h | exact busRead_wf h

theorem writeOperand_wf {o : Operand} {a : Word} {v : Byte} {s : State} (h : s.wf = true) :
    (writeOperand o a v s).wf = true := by
  cases o <;> first | exact h | exact busWrite_wf h

theorem push_wf {v : Byte} {s : State} (h : s.wf = true) : (push v s).wf = true := busWrite_wf h

theorem pull_wf {s : State} (h : s.wf = true) : (pull s).2.wf = true := busRead_wf h

theorem pushWord_wf {w : Word} {s : State} (h : s.wf = true) : (pushWord w s).wf = true := push_wf (push_wf h)

theorem pullWord_wf {s : State} (h : s.wf = true) : (pullWord s).2.wf = true :=
  pull_wf (s := (pull s).2) (pull_wf h)

theorem read16_wf {a : Word} {s : State} (h : s.wf = true) : (read16 a s).2.wf = true :=
  busRead_wf (s := (busRead a s).2) (busRead_wf h)

theorem interruptEntry_wf {vec : Word} {b : Bool} {s : State} (h : s.wf = true) :
    (interruptEntry vec b s).wf = true :=
  read16_wf (s := (push (s.p.image b) (pushWord s.pc s)).setP _) (push_wf (pushWord_wf h))

theorem interruptReturn_wf {s : State} (h : s.wf = true) : (interruptReturn s).wf = true :=
  pullWord_wf (s := loadP (pull s).1 (pull s).2) (pull_wf h)

theorem jumpTarget_wf {t : JumpTarget} {s : State} (h : s.wf = true) : (jumpTarget t s).2.wf = true := by
  cases t with
  | abs w => exact h
  | ind w => exact busRead_wf (s := (busRead w s).2) (busRead_wf h)

/-! ## The shared shapes of the instructions -/

theorem withRead_wf {o : Operand} {f : Byte → State → State} {s : State}
    (hf : ∀ m t, t.wf = true → (f m t).wf = true) (h : s.wf = true) : (withRead o f s).wf = true :=
  hf _ _ (readOperand_wf h)

theorem store_wf {o : Operand} {v : Byte} {s : State} (h : s.wf = true) : (store o v s).wf = true :=
  writeOperand_wf h

theorem storeHigh_wf {o : Operand} {v : Byte} {s : State} (h : s.wf = true) : (storeHigh o v s).wf = true :=
  busWrite_wf h

theorem readModifyWrite_wf {o : Operand} {f : Byte → State → Byte × State} {after : Byte → State → State} {s : State}
    (hf : ∀ m t, t.wf = true → (f m t).2.wf = true) (ha : ∀ r t, t.wf = true → (after r t).wf = true)
    (h : s.wf = true) : (readModifyWrite o f after s).wf = true :=
  ha _ _ (writeOperand_wf (hf _ _ (readOperand_wf h)))

theorem branch_wf {c : Bool} {d : Byte} {s : State} (h : s.wf = true) : (branch c d s).wf = true := by
  unfold branch; split <;> exact h

theorem exec_wf_next (i : Instr) {s : State} (h : s.wf = true) : ∃ t, exec i s = .next t ∧ t.wf = true := by
  cases i with
  | lda _ => exact ⟨_, rfl, withRead_wf (fun _ _ ht => ht) h⟩
  | ldx _ => exact ⟨_, rfl, withRead_wf (fun _ _ ht => ht) h⟩
  | ldy _ => exact ⟨_, rfl, withRead_wf (fun _ _ ht => ht) h⟩
  | sta _ => exact ⟨_, rfl, store_wf h⟩
  | stx _ => exact ⟨_, rfl, store_wf h⟩
  | sty _ => exact ⟨_, rfl, store_wf h⟩
  | tax => exact ⟨_, rfl, h⟩
  | tay => exact ⟨_, rfl, h⟩
  | txa => exact ⟨_, rfl, h⟩
  | tya => exact ⟨_, rfl, h⟩
  | tsx => exact ⟨_, rfl, h⟩
  | txs => exact ⟨_, rfl, h⟩
  | pha => exact ⟨_, rfl, push_wf h⟩
  | php => exact ⟨_, rfl, push_wf h⟩
  | pla => exact ⟨_, rfl, pull_wf h⟩
  | plp => exact ⟨_, rfl, pull_wf h⟩
  | adc _ => exact ⟨_, rfl, withRead_wf (fun _ _ ht => ht) h⟩
  | sbc _ => exact ⟨_, rfl, withRead_wf (fun _ _ ht => ht) h⟩
  | and _ => exact ⟨_, rfl, withRead_wf (fun _ _ ht => ht) h⟩
  | ora _ => exact ⟨_, rfl, withRead_wf (fun _ _ ht => ht) h⟩
  | eor _ => exact ⟨_, rfl, withRead_wf (fun _ _ ht => ht) h⟩
  | bit _ => exact ⟨_, rfl, withRead_wf (fun _ _ ht => ht) h⟩
  | cmp _ => exact ⟨_, rfl, withRead_wf (fun _ _ ht => ht) h⟩
  | cpx _ => exact ⟨_, rfl, withRead_wf (fun _ _ ht => ht) h⟩
  | cpy _ => exact ⟨_, rfl, withRead_wf (fun _ _ ht => ht) h⟩
  | inc _ => exact ⟨_, rfl, readModifyWrite_wf (fun _ _ ht => ht) (fun _ _ ht => ht) h⟩
  | dec _ => exact ⟨_, rfl, readModifyWrite_wf (fun _ _ ht => ht) (fun _ _ ht => ht) h⟩
  | inx => exact ⟨_, rfl, h⟩
  | iny => exact ⟨_, rfl, h⟩
  | dex => exact ⟨_, rfl, h⟩
  | dey => exact ⟨_, rfl, h⟩
  | asl _ => exact ⟨_, rfl, readModifyWrite_wf (fun _ _ ht => ht) (fun _ _ ht => ht) h⟩
  | lsr _ => exact ⟨_, rfl, readModifyWrite_wf (fun _ _ ht => ht) (fun _ _ ht => ht) h⟩
  | rol _ => exact ⟨_, rfl, readModifyWrite_wf (fun _ _ ht => ht) (fun _ _ ht => ht) h⟩
  | ror _ => exact ⟨_, rfl, readModifyWrite_wf (fun _ _ ht => ht) (fun _ _ ht => ht) h⟩
  | jmp _ => exact ⟨_, rfl, jumpTarget_wf h⟩
  | jsr _ => exact ⟨_, rfl, pushWord_wf h⟩
  | rts => exact ⟨_, rfl, pullWord_wf h⟩
  | rti => exact ⟨_, rfl, interruptReturn_wf h⟩
  | brk => exact ⟨_, rfl, interruptEntry_wf (s := s.setPc _) h⟩
  | bpl _ => exact ⟨_, rfl, branch_wf h⟩
  | bmi _ => exact ⟨_, rfl, branch_wf h⟩
  | bvc _ => exact ⟨_, rfl, branch_wf h⟩
  | bvs _ => exact ⟨_, rfl, branch_wf h⟩
  | bcc _ => exact ⟨_, rfl, branch_wf h⟩
  | bcs _ => exact ⟨_, rfl, branch_wf h⟩
  | bne _ => exact ⟨_, rfl, branch_wf h⟩
  | beq _ => exact ⟨_, rfl, branch_wf h⟩
  | clc => exact ⟨_, rfl, h⟩
  | sec => exact ⟨_, rfl, h⟩
  | cli => exact ⟨_, rfl, h⟩
  | sei => exact ⟨_, rfl, h⟩
  | cld => exact ⟨_, rfl, h⟩
  | sed => exact ⟨_, rfl, h⟩
  | clv => exact ⟨_, rfl, h⟩
  | nop => exact ⟨_, rfl, h⟩
  | jam _ => exact ⟨_, rfl, h⟩
  | nopImp _ => exact ⟨_, rfl, h⟩
  | nopImm _ _ => exact ⟨_, rfl, h⟩
  | nopRead _ _ => exact ⟨_, rfl, withRead_wf (fun _ _ ht => ht) h⟩
  | slo _ => exact ⟨_, rfl, readModifyWrite_wf (fun _ _ ht => ht) (fun _ _ ht => ht) h⟩
  | rla _ => exact ⟨_, rfl, readModifyWrite_wf (fun _ _ ht => ht) (fun _ _ ht => ht) h⟩
  | sre _ => exact ⟨_, rfl, readModifyWrite_wf (fun _ _ ht => ht) (fun _ _ ht => ht) h⟩
  | rra _ => exact ⟨_, rfl, readModifyWrite_wf (fun _ _ ht => ht) (fun _ _ ht => ht) h⟩
  | sax _ => exact ⟨_, rfl, store_wf h⟩
  | lax _ => exact ⟨_, rfl, withRead_wf (fun _ _ ht => ht) h⟩
  | dcp _ => exact ⟨_, rfl, readModifyWrite_wf (fun _ _ ht => ht) (fun _ _ ht => ht) h⟩
  | isc _ => exact ⟨_, rfl, readModifyWrite_wf (fun _ _ ht => ht) (fun _ _ ht => ht) h⟩
  | anc _ _ => exact ⟨_, rfl, h⟩
  | alr _ => exact ⟨_, rfl, h⟩
  | arr _ => exact ⟨_, rfl, h⟩
  | axs _ => exact ⟨_, rfl, h⟩
  | usbc _ => exact ⟨_, rfl, h⟩
  | las _ => exact ⟨_, rfl, withRead_wf (fun _ _ ht => ht) h⟩
  | xaa _ => exact ⟨_, rfl, h⟩
  | lxa _ => exact ⟨_, rfl, h⟩
  | sha _ => exact ⟨_, rfl, storeHigh_wf h⟩
  | shx _ => exact ⟨_, rfl, storeHigh_wf h⟩
  | shy _ => exact ⟨_, rfl, storeHigh_wf h⟩
  | tas _ => exact ⟨_, rfl, storeHigh_wf (s := State.setSp _ s) h⟩

/-- No instruction leaves the invariant. -/
theorem exec_wf {i : Instr} {s t : State} (h : s.wf = true) (he : exec i s = .next t) : t.wf = true := by
  obtain ⟨u, hu, hw⟩ := exec_wf_next i h
  rw [hu] at he
  injection he with he
  exact he ▸ hw

/-- Every instruction answers a next state (60 R300). -/
theorem exec_next (i : Instr) (s : State) : ∃ t, exec i s = .next t := by cases i <;> exact ⟨_, rfl⟩

/-! ## Fetch (30_encoding.md R93) -/

theorem fetchByte_wf {s : State} (h : s.wf = true) : (fetchByte s).2.wf = true :=
  busRead_wf (a := s.pc) h

theorem fetch_wf {s : State} (h : s.wf = true) : (fetch s).2.wf = true := by
  unfold fetch
  simp only
  split
  · exact fetchByte_wf h
  · exact fetchByte_wf (fetchByte_wf h)
  · exact fetchByte_wf (fetchByte_wf (fetchByte_wf h))

/-- Fetching a byte of storage moves `PC` past it and changes nothing else. -/
theorem fetchByte_of_peek {s : State} {v : Byte} (h : s.peek s.pc = some v) :
    fetchByte s = (v, s.setPc (s.pc + 1)) := by
  simp [fetchByte, busRead_of_peek h]

end Sys2Proof.Machine
end

