-- ==== Sys2Proof/Laws/Hidden.lean ====
section
/-! SUPPORT. No instruction writes the hidden state: the interrupt latches, the `refused` mark, `cyc`, `stall`. -/

namespace Sys2Proof.Machine

theorem busRead_hidden (a : Word) (s : State) : (busRead a s).2.hidden = s.hidden := by simp [State.hidden]

theorem busWrite_hidden (a : Word) (v : Byte) (s : State) : (busWrite a v s).hidden = s.hidden := by simp [State.hidden]

theorem push_hidden (v : Byte) (s : State) : (push v s).hidden = s.hidden := busWrite_hidden _ v s

theorem pull_hidden (s : State) : (pull s).2.hidden = s.hidden := busRead_hidden _ (s.setSp (s.sp + 1))

theorem pushWord_hidden (w : Word) (s : State) : (pushWord w s).hidden = s.hidden :=
  (push_hidden _ _).trans (push_hidden _ s)

theorem pullWord_hidden (s : State) : (pullWord s).2.hidden = s.hidden := (pull_hidden (pull s).2).trans (pull_hidden s)

theorem readOperand_hidden (o : Operand) (s : State) : (readOperand o s).2.hidden = s.hidden := by
  cases o <;> first | exact rfl | exact busRead_hidden _ s

theorem writeOperand_hidden (o : Operand) (a : Word) (v : Byte) (s : State) : (writeOperand o a v s).hidden = s.hidden := by
  cases o <;> first | exact rfl | exact busWrite_hidden _ _ s

theorem read16_hidden (a : Word) (s : State) : (read16 a s).2.hidden = s.hidden :=
  (busRead_hidden _ _).trans (busRead_hidden a s)

theorem interruptEntry_hidden (vec : Word) (b : Bool) (s : State) : (interruptEntry vec b s).hidden = s.hidden :=
  (read16_hidden vec ((push (s.p.image b) (pushWord s.pc s)).setP _)).trans
    ((push_hidden (s.p.image b) _).trans (pushWord_hidden s.pc s))

theorem interruptReturn_hidden (s : State) : (interruptReturn s).hidden = s.hidden :=
  (pullWord_hidden (loadP (pull s).1 (pull s).2)).trans (pull_hidden s)

theorem jumpTarget_hidden (t : JumpTarget) (s : State) : (jumpTarget t s).2.hidden = s.hidden := by
  cases t with
  | abs w => exact rfl
  | ind w => exact (busRead_hidden _ _).trans (busRead_hidden w s)

theorem withRead_hidden {o : Operand} {f : Byte → State → State} (s : State) (hf : ∀ m t, (f m t).hidden = t.hidden) :
    (withRead o f s).hidden = s.hidden :=
  (hf _ _).trans (readOperand_hidden o s)

theorem readModifyWrite_hidden {o : Operand} {f : Byte → State → Byte × State} {after : Byte → State → State} (s : State)
    (hf : ∀ m t, (f m t).2.hidden = t.hidden) (ha : ∀ r t, (after r t).hidden = t.hidden) :
    (readModifyWrite o f after s).hidden = s.hidden :=
  ((ha _ _).trans (writeOperand_hidden o _ _ _)).trans ((hf _ _).trans (readOperand_hidden o s))

theorem branch_hidden (c : Bool) (d : Byte) (s : State) : (branch c d s).hidden = s.hidden := by
  unfold branch; split <;> exact rfl

theorem exec_hidden_next (i : Instr) (s : State) : ∃ t, exec i s = .next t ∧ t.hidden = s.hidden := by
  cases i with
  | lda _ => exact ⟨_, rfl, withRead_hidden s (fun _ _ => rfl)⟩
  | ldx _ => exact ⟨_, rfl, withRead_hidden s (fun _ _ => rfl)⟩
  | ldy _ => exact ⟨_, rfl, withRead_hidden s (fun _ _ => rfl)⟩
  | sta _ => exact ⟨_, rfl, writeOperand_hidden _ _ _ s⟩
  | stx _ => exact ⟨_, rfl, writeOperand_hidden _ _ _ s⟩
  | sty _ => exact ⟨_, rfl, writeOperand_hidden _ _ _ s⟩
  | tax => exact ⟨_, rfl, rfl⟩
  | tay => exact ⟨_, rfl, rfl⟩
  | txa => exact ⟨_, rfl, rfl⟩
  | tya => exact ⟨_, rfl, rfl⟩
  | tsx => exact ⟨_, rfl, rfl⟩
  | txs => exact ⟨_, rfl, rfl⟩
  | pha => exact ⟨_, rfl, push_hidden _ s⟩
  | php => exact ⟨_, rfl, push_hidden _ s⟩
  | pla => exact ⟨_, rfl, pull_hidden s⟩
  | plp => exact ⟨_, rfl, pull_hidden s⟩
  | adc _ => exact ⟨_, rfl, withRead_hidden s (fun _ _ => rfl)⟩
  | sbc _ => exact ⟨_, rfl, withRead_hidden s (fun _ _ => rfl)⟩
  | and _ => exact ⟨_, rfl, withRead_hidden s (fun _ _ => rfl)⟩
  | ora _ => exact ⟨_, rfl, withRead_hidden s (fun _ _ => rfl)⟩
  | eor _ => exact ⟨_, rfl, withRead_hidden s (fun _ _ => rfl)⟩
  | bit _ => exact ⟨_, rfl, withRead_hidden s (fun _ _ => rfl)⟩
  | cmp _ => exact ⟨_, rfl, withRead_hidden s (fun _ _ => rfl)⟩
  | cpx _ => exact ⟨_, rfl, withRead_hidden s (fun _ _ => rfl)⟩
  | cpy _ => exact ⟨_, rfl, withRead_hidden s (fun _ _ => rfl)⟩
  | inc _ => exact ⟨_, rfl, readModifyWrite_hidden s (fun _ _ => rfl) (fun _ _ => rfl)⟩
  | dec _ => exact ⟨_, rfl, readModifyWrite_hidden s (fun _ _ => rfl) (fun _ _ => rfl)⟩
  | inx => exact ⟨_, rfl, rfl⟩
  | iny => exact ⟨_, rfl, rfl⟩
  | dex => exact ⟨_, rfl, rfl⟩
  | dey => exact ⟨_, rfl, rfl⟩
  | asl _ => exact ⟨_, rfl, readModifyWrite_hidden s (fun _ _ => rfl) (fun _ _ => rfl)⟩
  | lsr _ => exact ⟨_, rfl, readModifyWrite_hidden s (fun _ _ => rfl) (fun _ _ => rfl)⟩
  | rol _ => exact ⟨_, rfl, readModifyWrite_hidden s (fun _ _ => rfl) (fun _ _ => rfl)⟩
  | ror _ => exact ⟨_, rfl, readModifyWrite_hidden s (fun _ _ => rfl) (fun _ _ => rfl)⟩
  | jmp _ => exact ⟨_, rfl, jumpTarget_hidden _ s⟩
  | jsr _ => exact ⟨_, rfl, pushWord_hidden _ s⟩
  | rts => exact ⟨_, rfl, pullWord_hidden s⟩
  | rti => exact ⟨_, rfl, interruptReturn_hidden s⟩
  | brk => exact ⟨_, rfl, interruptEntry_hidden _ _ (s.setPc (s.pc + 1))⟩
  | bpl _ => exact ⟨_, rfl, branch_hidden _ _ s⟩
  | bmi _ => exact ⟨_, rfl, branch_hidden _ _ s⟩
  | bvc _ => exact ⟨_, rfl, branch_hidden _ _ s⟩
  | bvs _ => exact ⟨_, rfl, branch_hidden _ _ s⟩
  | bcc _ => exact ⟨_, rfl, branch_hidden _ _ s⟩
  | bcs _ => exact ⟨_, rfl, branch_hidden _ _ s⟩
  | bne _ => exact ⟨_, rfl, branch_hidden _ _ s⟩
  | beq _ => exact ⟨_, rfl, branch_hidden _ _ s⟩
  | clc => exact ⟨_, rfl, rfl⟩
  | sec => exact ⟨_, rfl, rfl⟩
  | cli => exact ⟨_, rfl, rfl⟩
  | sei => exact ⟨_, rfl, rfl⟩
  | cld => exact ⟨_, rfl, rfl⟩
  | sed => exact ⟨_, rfl, rfl⟩
  | clv => exact ⟨_, rfl, rfl⟩
  | nop => exact ⟨_, rfl, rfl⟩
  | jam _ => exact ⟨_, rfl, rfl⟩
  | nopImp _ => exact ⟨_, rfl, rfl⟩
  | nopImm _ _ => exact ⟨_, rfl, rfl⟩
  | nopRead _ _ => exact ⟨_, rfl, withRead_hidden s (fun _ _ => rfl)⟩
  | slo _ => exact ⟨_, rfl, readModifyWrite_hidden s (fun _ _ => rfl) (fun _ _ => rfl)⟩
  | rla _ => exact ⟨_, rfl, readModifyWrite_hidden s (fun _ _ => rfl) (fun _ _ => rfl)⟩
  | sre _ => exact ⟨_, rfl, readModifyWrite_hidden s (fun _ _ => rfl) (fun _ _ => rfl)⟩
  | rra _ => exact ⟨_, rfl, readModifyWrite_hidden s (fun _ _ => rfl) (fun _ _ => rfl)⟩
  | sax _ => exact ⟨_, rfl, writeOperand_hidden _ _ _ s⟩
  | lax _ => exact ⟨_, rfl, withRead_hidden s (fun _ _ => rfl)⟩
  | dcp _ => exact ⟨_, rfl, readModifyWrite_hidden s (fun _ _ => rfl) (fun _ _ => rfl)⟩
  | isc _ => exact ⟨_, rfl, readModifyWrite_hidden s (fun _ _ => rfl) (fun _ _ => rfl)⟩
  | anc _ _ => exact ⟨_, rfl, rfl⟩
  | alr _ => exact ⟨_, rfl, rfl⟩
  | arr _ => exact ⟨_, rfl, rfl⟩
  | axs _ => exact ⟨_, rfl, rfl⟩
  | usbc _ => exact ⟨_, rfl, rfl⟩
  | las _ => exact ⟨_, rfl, withRead_hidden s (fun _ _ => rfl)⟩
  | xaa _ => exact ⟨_, rfl, rfl⟩
  | lxa _ => exact ⟨_, rfl, rfl⟩
  | sha _ => exact ⟨_, rfl, busWrite_hidden _ _ s⟩
  | shx _ => exact ⟨_, rfl, busWrite_hidden _ _ s⟩
  | shy _ => exact ⟨_, rfl, busWrite_hidden _ _ s⟩
  | tas _ => exact ⟨_, rfl, busWrite_hidden _ _ (State.setSp _ s)⟩

/-- No instruction writes the hidden state. -/
theorem exec_hidden {i : Instr} {s t : State} (he : exec i s = .next t) : t.hidden = s.hidden := by
  obtain ⟨u, hu, hw⟩ := exec_hidden_next i s
  rw [hu] at he
  injection he with he
  exact he ▸ hw

end Sys2Proof.Machine
end

