-- ==== Sys2Proof/Laws/Clock.lean ====
section
/-! SUPPORT. What happens after the instruction of a step, and the step itself: each part keeps the invariant, and the
cycles add up. -/

namespace Sys2Proof.Machine

/-! ## The picture unit's dot counter (60_exceptions.md R334, R335) -/

theorem Ppu.tick_wf {u : Ppu} (h : u.wf = true) : u.tick.wf = true := by
  simp only [Ppu.wf, Bool.and_eq_true, Bool.not_eq_true', Bool.and_eq_false_iff, decide_eq_true_eq,
    decide_eq_false_iff_not] at h ⊢
  unfold Ppu.tick Ppu.work Ppu.advance
  simp only
  by_cases hl : u.scanline = 261 ∧ u.frame % 2 = 1
  · simp only [hl, and_self, if_true]
    split
    · simp only; omega
    · split
      · omega
      · simp only; omega
  · simp only [hl, if_false]
    split
    · simp only; omega
    · split
      · simp only; omega
      · simp only; omega

/-- A tick changes the counter, the blank flag and the mark of the sprite flags only. -/
theorem Ppu.tick_frame (u : Ppu) :
    ∃ line dot frame blank,
      u.tick = { u with
        scanline := line, dot := dot, frame := frame, blank := blank, spritesKnown := false } := by
  unfold Ppu.tick Ppu.advance
  simp only
  generalize (if u.work.scanline = 261 ∧ u.work.frame % 2 = 1 then 339 else 340) = last
  split
  · exact ⟨_, _, _, _, rfl⟩
  · split <;> exact ⟨_, _, _, _, rfl⟩

@[simp] theorem Ppu.tick_oam (u : Ppu) : u.tick.oam = u.oam := by
  obtain ⟨_, _, _, _, h⟩ := u.tick_frame; rw [h]
@[simp] theorem Ppu.tick_nametable (u : Ppu) : u.tick.nametable = u.nametable := by
  obtain ⟨_, _, _, _, h⟩ := u.tick_frame; rw [h]
@[simp] theorem Ppu.tick_palette (u : Ppu) : u.tick.palette = u.palette := by
  obtain ⟨_, _, _, _, h⟩ := u.tick_frame; rw [h]
@[simp] theorem Ppu.tick_ctrl (u : Ppu) : u.tick.ctrl = u.ctrl := by
  obtain ⟨_, _, _, _, h⟩ := u.tick_frame; rw [h]

/-! ## The audio unit (60_exceptions.md R336, R337) -/

theorem Apu.tick_wf {u : Apu} (h : u.wf = true) : u.tick.wf = true := by
  simp only [Apu.wf, decide_eq_true_eq] at h ⊢
  unfold Apu.tick
  split
  · exact h
  · split
    · simp only; omega
    · split
      · simp only; unfold frameEarliest; omega
      · next hn =>
        simp only
        have := Nat.mod_lt (Config.frameJitter u.frameCount) (show 0 < frameSlack by unfold frameSlack; omega)
        omega

@[simp] theorem Apu.tick_regs (u : Apu) : u.tick.regs = u.regs := by
  unfold Apu.tick; split <;> [rfl; (split <;> [rfl; split <;> rfl])]

theorem Apu.takeSample_wf {u : Apu} {v : Byte} (h : u.wf = true) : (u.takeSample v).wf = true := by
  unfold Apu.takeSample; simp only; split <;> [exact h; (split <;> exact h)]

@[simp] theorem Apu.takeSample_regs (u : Apu) (v : Byte) : (u.takeSample v).regs = u.regs := by
  unfold Apu.takeSample; simp only; split <;> [rfl; (split <;> rfl)]

/-! ## One cycle -/

theorem advanceDevices_wf {s : State} (h : s.wf = true) : (advanceDevices s).wf = true := by
  obtain ⟨⟨h1, h2, h3, h4, h5, h6, h7, h8⟩, hp, hc, ha⟩ := (wf_iff s).1 h
  refine (wf_iff _).2 ⟨⟨h1, h2, h3, h4, ?_, ?_, ?_, ?_⟩, Ppu.tick_wf (Ppu.tick_wf (Ppu.tick_wf hp)), hc, ?_⟩
  · simpa [advanceDevices] using h5
  · simpa [advanceDevices] using h6
  · simpa [advanceDevices] using h7
  · unfold advanceDevices; simp only; split <;> simpa using h8
  · unfold advanceDevices; simp only; split <;> [exact Apu.tick_wf ha; exact ha]

@[simp] theorem sampleLines_wf (s : State) : (sampleLines s).wf = s.wf := rfl

theorem plainCycle_wf {s : State} (h : s.wf = true) : (plainCycle s).wf = true := by
  rw [plainCycle, sampleLines_wf]; exact advanceDevices_wf h

theorem plainCycles_wf {n : Nat} {s : State} (h : s.wf = true) : (plainCycles n s).wf = true := by
  induction n generalizing s with
  | zero => exact h
  | succ n ih => exact ih (plainCycle_wf h)

theorem drawRequest_wf {s : State} (h : s.wf = true) : (drawRequest s).wf = true := by
  unfold drawRequest; split <;> exact h

theorem sampleFetch_wf {p : Params} {s : State} (h : s.wf = true) : (sampleFetch p s).wf = true := by
  have hr := busRead_wf (a := s.apu.dmcAddr) h
  obtain ⟨⟨h1, h2, h3, h4, h5, h6, h7, h8⟩, hp, hc, ha⟩ := (wf_iff _).1 hr
  refine (wf_iff _).2 ⟨⟨h1, h2, h3, h4, h5, h6, h7, ?_⟩, hp, hc, Apu.takeSample_wf ha⟩
  simpa [sampleFetch] using h8

theorem clock_wf {p : Params} {k : Nat} {s : State} (h : s.wf = true) : (clock p k s).wf = true := by
  induction k generalizing s with
  | zero => exact h
  | succ k ih =>
    unfold clock
    simp only
    split
    · refine ih (plainCycles_wf ?_)
      rw [sampleLines_wf]
      exact sampleFetch_wf (p := p) (drawRequest_wf (advanceDevices_wf h))
    · refine ih ?_
      rw [sampleLines_wf]
      exact drawRequest_wf (advanceDevices_wf h)

/-! ## The cycle count (70_reset_and_hazards.md R382) -/

theorem plainCycles_count (n : Nat) (s : State) :
    (plainCycles n s).cyc = s.cyc + n ∧ (plainCycles n s).stall = s.stall ∧
      (plainCycles n s).stepCycles = s.stepCycles := by
  induction n generalizing s with
  | zero => exact ⟨rfl, rfl, rfl⟩
  | succ n ih =>
    obtain ⟨h1, h2, h3⟩ := ih (plainCycle s)
    refine ⟨?_, h2.trans rfl, h3.trans rfl⟩
    rw [plainCycles, h1]
    have : (plainCycle s).cyc = s.cyc + 1 := rfl
    omega

@[simp] theorem drawRequest_cyc (s : State) : (drawRequest s).cyc = s.cyc := by
  unfold drawRequest; split <;> rfl
@[simp] theorem drawRequest_stall (s : State) : (drawRequest s).stall = s.stall := by
  unfold drawRequest; split <;> rfl
@[simp] theorem drawRequest_stepCycles (s : State) : (drawRequest s).stepCycles = s.stepCycles := by
  unfold drawRequest; split <;> rfl

/-- `Clock(k)` adds `k` cycles and the stall of its sample fetches to `cyc`, and only that stall to `stall`. -/
theorem clock_count (p : Params) (k : Nat) (s : State) :
    (clock p k s).cyc + s.stall = s.cyc + k + (clock p k s).stall ∧ s.stall ≤ (clock p k s).stall ∧
      (clock p k s).stepCycles = s.stepCycles := by
  induction k generalizing s with
  | zero => exact ⟨rfl, Nat.le_refl _, rfl⟩
  | succ k ih =>
    unfold clock
    simp only
    split
    · obtain ⟨h1, h2, h3⟩ := ih (plainCycles p.dmcStallCycles
        (sampleLines (sampleFetch p (drawRequest (advanceDevices s)))))
      obtain ⟨g1, g2, g3⟩ := plainCycles_count p.dmcStallCycles
        (sampleLines (sampleFetch p (drawRequest (advanceDevices s))))
      have e1 : (sampleLines (sampleFetch p (drawRequest (advanceDevices s)))).cyc = s.cyc + 1 := by
        simp [sampleLines, sampleFetch, advanceDevices]
      have e2 : (sampleLines (sampleFetch p (drawRequest (advanceDevices s)))).stall = s.stall + p.dmcStallCycles := by
        simp [sampleLines, sampleFetch, advanceDevices]
      have e3 : (sampleLines (sampleFetch p (drawRequest (advanceDevices s)))).stepCycles = s.stepCycles := by
        simp [sampleLines, sampleFetch, advanceDevices]
      exact ⟨by omega, by omega, by omega⟩
    · obtain ⟨h1, h2, h3⟩ := ih (sampleLines (drawRequest (advanceDevices s)))
      have e1 : (sampleLines (drawRequest (advanceDevices s))).cyc = s.cyc + 1 := by
        simp [sampleLines, advanceDevices]
      have e2 : (sampleLines (drawRequest (advanceDevices s))).stall = s.stall := by
        simp [sampleLines, advanceDevices]
      have e3 : (sampleLines (drawRequest (advanceDevices s))).stepCycles = s.stepCycles := by
        simp [sampleLines, advanceDevices]
      exact ⟨by omega, by omega, by omega⟩

/-! ## Sprite DMA (60_exceptions.md R340 to R342) -/

theorem dmaCopy_wf {page : Byte} {n : Nat} {s : State} (h : s.wf = true) : (dmaCopy page n s).wf = true := by
  induction n with
  | zero => exact h
  | succ n ih =>
    have hr := busRead_wf (a := mkWord page (BitVec.ofNat 8 n)) ih
    obtain ⟨⟨h1, h2, h3, h4, h5, h6, h7, h8⟩, hp, hc, ha⟩ := (wf_iff _).1 hr
    exact (wf_iff _).2 ⟨⟨h1, h2, h3, h4, Memory.wf_set h5 (BitVec.isLt _), h6, h7, h8⟩, hp, hc, ha⟩

theorem dmaCopy_hidden (page : Byte) (n : Nat) (s : State) : (dmaCopy page n s).hidden = s.hidden := by
  induction n with
  | zero => rfl
  | succ n ih => exact (busRead_hidden (mkWord page (BitVec.ofNat 8 n)) _).trans ih

theorem dmaCopy_stepCycles (page : Byte) (n : Nat) (s : State) : (dmaCopy page n s).stepCycles = s.stepCycles := by
  induction n with
  | zero => rfl
  | succ n ih => exact (busRead_stepCycles (mkWord page (BitVec.ofNat 8 n)) _).trans ih

theorem spriteDma_wf {s : State} (h : s.wf = true) : (spriteDma s).wf = true := by
  unfold spriteDma
  split
  · exact h
  · exact dmaCopy_wf h

theorem spriteDma_count (s : State) :
    (spriteDma s).cyc = s.cyc ∧ (spriteDma s).stepCycles = s.stepCycles := by
  unfold spriteDma
  split
  · exact ⟨rfl, rfl⟩
  · exact ⟨congrArg Hidden.cyc (dmaCopy_hidden _ _ s), dmaCopy_stepCycles _ _ s⟩

/-! ## The step (70_reset_and_hazards.md R380) -/

theorem updateIPoll_wf {p : Params} {i : Instr} {b : Bool} {s : State} (h : s.wf = true) :
    (updateIPoll p i b s).wf = true := by
  unfold updateIPoll; split <;> exact h

theorem beginStep_wf {p : Params} {s : State} (h : s.wf = true) : (beginStep p s).wf = true := by
  unfold beginStep enterInterrupt
  split
  · exact h
  · exact interruptEntry_wf (s := { s with stall := 0, stepCycles := 0, oamDma := none, nmiPending := false }) h
  · exact interruptEntry_wf (s := { s with stall := 0, stepCycles := 0, oamDma := none }) h

theorem endStep_wf {p : Params} {i : Instr} {b : Bool} {s : State} (h : s.wf = true) :
    (endStep p i b s).wf = true :=
  updateIPoll_wf (clock_wf (spriteDma_wf h))

end Sys2Proof.Machine
end

