-- ==== Sys2Proof/Laws/Flags.lean ====
section
/-! SUPPORT. What the flag computations do, in the terms of Safety.lean: sums, differences, comparisons and shifts as
numbers. -/

namespace Sys2Proof.Machine

theorem setNZ_withNZ (v : Byte) (s : State) : setNZ v s = s.setP (s.p.withNZ v) := by
  simp only [setNZ_eq, Flags.withNZ, BitVec.msb_eq_decide]; rfl

theorem toNat_complement (m : Byte) : (m ^^^ 0xFF).toNat = 255 - m.toNat := by
  rw [show (0xFF : Byte) = BitVec.allOnes 8 from rfl, BitVec.xor_allOnes, BitVec.toNat_not]

/-- The overflow formula of 41_arith_logic.md R170 is signed overflow (10_state.md R32). -/
theorem addOverflow_eq (a m : Byte) (c : Bool) :
    addOverflow a m (sumByte a m c) = decide (signedSum a m c < -128 ∨ 127 < signedSum a m c) := by
  have h (x : Byte) : (x &&& 0x80 != 0) = x.msb := by revert x; decide
  have := a.isLt
  have := m.isLt
  have hx (p q : Bool) : (p ^^ q) = true ↔ ¬(p = q) := by cases p <;> cases q <;> decide
  rw [addOverflow, h, Bool.eq_iff_iff, BitVec.msb_and, BitVec.msb_xor, BitVec.msb_xor, Bool.and_eq_true, hx, hx,
    decide_eq_true_iff]
  simp only [BitVec.msb_eq_decide, sumByte, unsignedSum, BitVec.toNat_ofNat, signedSum, BitVec.toInt_eq_toNat_cond,
    decide_eq_decide]
  cases c <;> simp only [Bool.toNat_false, Bool.toNat_true] <;> split <;> split <;> omega

/-- `AddWithCarry(m)` (41_arith_logic.md R170). -/
theorem addWithCarry_eq (m : Byte) (s : State) :
    addWithCarry m s = { s with a := sumByte s.a m s.p.c, p := s.p.afterSum s.a m } := by
  have h := addOverflow_eq s.a m s.p.c
  simp only [sumByte, unsignedSum] at h
  simp only [addWithCarry, Flags.afterSum, setNZ_withNZ, setV_eq, setC_eq, sumByte, unsignedSum, addSum, h]
  rfl

theorem sumByte_complement (a m : Byte) (c : Bool) : sumByte a (m ^^^ 0xFF) c = differenceByte a m c := by
  have := a.isLt
  have := m.isLt
  apply BitVec.eq_of_toNat_eq
  cases c <;> simp only [sumByte, unsignedSum, toNat_complement, differenceByte, BitVec.toNat_sub, BitVec.toNat_ofNat,
    Bool.toNat_false, Bool.toNat_true, Bool.not_false, Bool.not_true] <;> omega

theorem signedSum_complement (a m : Byte) (c : Bool) : signedSum a (m ^^^ 0xFF) c = signedDifference a m c := by
  have := a.isLt
  have := m.isLt
  simp only [signedSum, signedDifference, BitVec.toInt_eq_toNat_cond, toNat_complement]
  cases c <;> simp only [Bool.toNat_false, Bool.toNat_true, Bool.not_false, Bool.not_true] <;> split <;> split <;> omega

/-- `AddWithCarry(m ^ $FF)` is subtraction with borrow (41_arith_logic.md R172). -/
theorem subtractWithCarry_eq (m : Byte) (s : State) :
    addWithCarry (m ^^^ 0xFF) s =
      { s with a := differenceByte s.a m s.p.c, p := s.p.afterDifference s.a m } := by
  have h : (255 < unsignedSum s.a (m ^^^ 0xFF) s.p.c) = (m.toNat + (!s.p.c).toNat ≤ s.a.toNat) := by
    have := s.a.isLt
    have := m.isLt
    simp only [unsignedSum, toNat_complement]
    cases s.p.c <;> simp only [Bool.toNat_false, Bool.toNat_true, Bool.not_false, Bool.not_true, eq_iff_iff] <;> omega
  rw [addWithCarry_eq]
  simp only [Flags.afterSum, Flags.afterDifference, signedSum_complement, sumByte_complement, h]

/-- `Compare(reg, m)` (41_arith_logic.md R170). -/
theorem compareWith_eq (reg m : Byte) (s : State) :
    compareWith reg m s = s.setP (s.p.afterCompare reg m) := by
  have h : (decide (reg - m = 0)) = decide (reg = m) := by
    rw [decide_eq_decide, BitVec.sub_eq_iff_eq_add]
    rw [show (0 : Byte) + m = m from BitVec.zero_add m]
  simp only [compareWith, setNZ_withNZ, setC_eq, Flags.withNZ, Flags.afterCompare, h]
  rfl

/-- `ShiftLeft(v, cin)` as numbers (41_arith_logic.md R170). -/
theorem shiftLeft_eq (v : Byte) (cin : Bool) (s : State) :
    shiftLeft v cin s = (BitVec.ofNat 8 (2 * v.toNat + cin.toNat), setC (decide (128 ≤ v.toNat)) s) := by
  have h : ((v <<< 1) ||| (BitVec.ofBool cin).setWidth 8) = BitVec.ofNat 8 (2 * v.toNat + cin.toNat) := by
    revert v; cases cin <;> decide
  simp only [shiftLeft, h, BitVec.msb_eq_decide]

/-- `ShiftRight(v, cin)` as numbers (41_arith_logic.md R170). -/
theorem shiftRight_eq (v : Byte) (cin : Bool) (s : State) :
    shiftRight v cin s = (BitVec.ofNat 8 (v.toNat / 2 + 128 * cin.toNat), setC (decide (v.toNat % 2 = 1)) s) := by
  have h : ((v >>> 1) ||| ((BitVec.ofBool cin).setWidth 8 <<< 7)) = BitVec.ofNat 8 (v.toNat / 2 + 128 * cin.toNat) := by
    revert v; cases cin <;> decide
  have h' : v.getLsbD 0 = decide (v.toNat % 2 = 1) := by clear h; revert v; decide
  simp only [shiftRight, h, h']

end Sys2Proof.Machine
end

