-- ==== Sys2Proof/Laws/PerInstr.lean ====
section
/-! SUPPORT. What is said of every instruction as syntax: a well-formed one takes one to three bytes (30_encoding.md
R91). -/

namespace Sys2Proof.Laws.EncodedLength

/-- A well-formed instruction is encoded in one, two or three bytes (30_encoding.md R91). -/
def Statement (i : Instr) : Prop :=
  i.wellFormed = true → 1 ≤ (encode i).length ∧ (encode i).length ≤ 3

theorem lda (o : Operand) : Statement (.lda o) := by
  intro h
  cases o <;> first | exact ⟨Nat.le_of_ble_eq_true rfl, Nat.le_of_ble_eq_true rfl⟩ | exact absurd h Bool.false_ne_true
theorem ldx (o : Operand) : Statement (.ldx o) := by
  intro h
  cases o <;> first | exact ⟨Nat.le_of_ble_eq_true rfl, Nat.le_of_ble_eq_true rfl⟩ | exact absurd h Bool.false_ne_true
theorem ldy (o : Operand) : Statement (.ldy o) := by
  intro h
  cases o <;> first | exact ⟨Nat.le_of_ble_eq_true rfl, Nat.le_of_ble_eq_true rfl⟩ | exact absurd h Bool.false_ne_true
theorem sta (o : Operand) : Statement (.sta o) := by
  intro h
  cases o <;> first | exact ⟨Nat.le_of_ble_eq_true rfl, Nat.le_of_ble_eq_true rfl⟩ | exact absurd h Bool.false_ne_true
theorem stx (o : Operand) : Statement (.stx o) := by
  intro h
  cases o <;> first | exact ⟨Nat.le_of_ble_eq_true rfl, Nat.le_of_ble_eq_true rfl⟩ | exact absurd h Bool.false_ne_true
theorem sty (o : Operand) : Statement (.sty o) := by
  intro h
  cases o <;> first | exact ⟨Nat.le_of_ble_eq_true rfl, Nat.le_of_ble_eq_true rfl⟩ | exact absurd h Bool.false_ne_true
theorem tax : Statement .tax := fun _ => ⟨Nat.le_of_ble_eq_true rfl, Nat.le_of_ble_eq_true rfl⟩
theorem tay : Statement .tay := fun _ => ⟨Nat.le_of_ble_eq_true rfl, Nat.le_of_ble_eq_true rfl⟩
theorem txa : Statement .txa := fun _ => ⟨Nat.le_of_ble_eq_true rfl, Nat.le_of_ble_eq_true rfl⟩
theorem tya : Statement .tya := fun _ => ⟨Nat.le_of_ble_eq_true rfl, Nat.le_of_ble_eq_true rfl⟩
theorem tsx : Statement .tsx := fun _ => ⟨Nat.le_of_ble_eq_true rfl, Nat.le_of_ble_eq_true rfl⟩
theorem txs : Statement .txs := fun _ => ⟨Nat.le_of_ble_eq_true rfl, Nat.le_of_ble_eq_true rfl⟩
theorem pha : Statement .pha := fun _ => ⟨Nat.le_of_ble_eq_true rfl, Nat.le_of_ble_eq_true rfl⟩
theorem php : Statement .php := fun _ => ⟨Nat.le_of_ble_eq_true rfl, Nat.le_of_ble_eq_true rfl⟩
theorem pla : Statement .pla := fun _ => ⟨Nat.le_of_ble_eq_true rfl, Nat.le_of_ble_eq_true rfl⟩
theorem plp : Statement .plp := fun _ => ⟨Nat.le_of_ble_eq_true rfl, Nat.le_of_ble_eq_true rfl⟩
theorem adc (o : Operand) : Statement (.adc o) := by
  intro h
  cases o <;> first | exact ⟨Nat.le_of_ble_eq_true rfl, Nat.le_of_ble_eq_true rfl⟩ | exact absurd h Bool.false_ne_true
theorem sbc (o : Operand) : Statement (.sbc o) := by
  intro h
  cases o <;> first | exact ⟨Nat.le_of_ble_eq_true rfl, Nat.le_of_ble_eq_true rfl⟩ | exact absurd h Bool.false_ne_true
theorem and (o : Operand) : Statement (.and o) := by
  intro h
  cases o <;> first | exact ⟨Nat.le_of_ble_eq_true rfl, Nat.le_of_ble_eq_true rfl⟩ | exact absurd h Bool.false_ne_true
theorem ora (o : Operand) : Statement (.ora o) := by
  intro h
  cases o <;> first | exact ⟨Nat.le_of_ble_eq_true rfl, Nat.le_of_ble_eq_true rfl⟩ | exact absurd h Bool.false_ne_true
theorem eor (o : Operand) : Statement (.eor o) := by
  intro h
  cases o <;> first | exact ⟨Nat.le_of_ble_eq_true rfl, Nat.le_of_ble_eq_true rfl⟩ | exact absurd h Bool.false_ne_true
theorem bit (o : Operand) : Statement (.bit o) := by
  intro h
  cases o <;> first | exact ⟨Nat.le_of_ble_eq_true rfl, Nat.le_of_ble_eq_true rfl⟩ | exact absurd h Bool.false_ne_true
theorem cmp (o : Operand) : Statement (.cmp o) := by
  intro h
  cases o <;> first | exact ⟨Nat.le_of_ble_eq_true rfl, Nat.le_of_ble_eq_true rfl⟩ | exact absurd h Bool.false_ne_true
theorem cpx (o : Operand) : Statement (.cpx o) := by
  intro h
  cases o <;> first | exact ⟨Nat.le_of_ble_eq_true rfl, Nat.le_of_ble_eq_true rfl⟩ | exact absurd h Bool.false_ne_true
theorem cpy (o : Operand) : Statement (.cpy o) := by
  intro h
  cases o <;> first | exact ⟨Nat.le_of_ble_eq_true rfl, Nat.le_of_ble_eq_true rfl⟩ | exact absurd h Bool.false_ne_true
theorem inc (o : Operand) : Statement (.inc o) := by
  intro h
  cases o <;> first | exact ⟨Nat.le_of_ble_eq_true rfl, Nat.le_of_ble_eq_true rfl⟩ | exact absurd h Bool.false_ne_true
theorem dec (o : Operand) : Statement (.dec o) := by
  intro h
  cases o <;> first | exact ⟨Nat.le_of_ble_eq_true rfl, Nat.le_of_ble_eq_true rfl⟩ | exact absurd h Bool.false_ne_true
theorem inx : Statement .inx := fun _ => ⟨Nat.le_of_ble_eq_true rfl, Nat.le_of_ble_eq_true rfl⟩
theorem iny : Statement .iny := fun _ => ⟨Nat.le_of_ble_eq_true rfl, Nat.le_of_ble_eq_true rfl⟩
theorem dex : Statement .dex := fun _ => ⟨Nat.le_of_ble_eq_true rfl, Nat.le_of_ble_eq_true rfl⟩
theorem dey : Statement .dey := fun _ => ⟨Nat.le_of_ble_eq_true rfl, Nat.le_of_ble_eq_true rfl⟩
theorem asl (o : Operand) : Statement (.asl o) := by
  intro h
  cases o <;> first | exact ⟨Nat.le_of_ble_eq_true rfl, Nat.le_of_ble_eq_true rfl⟩ | exact absurd h Bool.false_ne_true
theorem lsr (o : Operand) : Statement (.lsr o) := by
  intro h
  cases o <;> first | exact ⟨Nat.le_of_ble_eq_true rfl, Nat.le_of_ble_eq_true rfl⟩ | exact absurd h Bool.false_ne_true
theorem rol (o : Operand) : Statement (.rol o) := by
  intro h
  cases o <;> first | exact ⟨Nat.le_of_ble_eq_true rfl, Nat.le_of_ble_eq_true rfl⟩ | exact absurd h Bool.false_ne_true
theorem ror (o : Operand) : Statement (.ror o) := by
  intro h
  cases o <;> first | exact ⟨Nat.le_of_ble_eq_true rfl, Nat.le_of_ble_eq_true rfl⟩ | exact absurd h Bool.false_ne_true
theorem jmp (t : JumpTarget) : Statement (.jmp t) := by
  intro _
  cases t <;> exact ⟨Nat.le_of_ble_eq_true rfl, Nat.le_of_ble_eq_true rfl⟩
theorem jsr (w : Word) : Statement (.jsr w) := fun _ => ⟨Nat.le_of_ble_eq_true rfl, Nat.le_of_ble_eq_true rfl⟩
theorem rts : Statement .rts := fun _ => ⟨Nat.le_of_ble_eq_true rfl, Nat.le_of_ble_eq_true rfl⟩
theorem rti : Statement .rti := fun _ => ⟨Nat.le_of_ble_eq_true rfl, Nat.le_of_ble_eq_true rfl⟩
theorem brk : Statement .brk := fun _ => ⟨Nat.le_of_ble_eq_true rfl, Nat.le_of_ble_eq_true rfl⟩
theorem bpl (d : Byte) : Statement (.bpl d) := fun _ => ⟨Nat.le_of_ble_eq_true rfl, Nat.le_of_ble_eq_true rfl⟩
theorem bmi (d : Byte) : Statement (.bmi d) := fun _ => ⟨Nat.le_of_ble_eq_true rfl, Nat.le_of_ble_eq_true rfl⟩
theorem bvc (d : Byte) : Statement (.bvc d) := fun _ => ⟨Nat.le_of_ble_eq_true rfl, Nat.le_of_ble_eq_true rfl⟩
theorem bvs (d : Byte) : Statement (.bvs d) := fun _ => ⟨Nat.le_of_ble_eq_true rfl, Nat.le_of_ble_eq_true rfl⟩
theorem bcc (d : Byte) : Statement (.bcc d) := fun _ => ⟨Nat.le_of_ble_eq_true rfl, Nat.le_of_ble_eq_true rfl⟩
theorem bcs (d : Byte) : Statement (.bcs d) := fun _ => ⟨Nat.le_of_ble_eq_true rfl, Nat.le_of_ble_eq_true rfl⟩
theorem bne (d : Byte) : Statement (.bne d) := fun _ => ⟨Nat.le_of_ble_eq_true rfl, Nat.le_of_ble_eq_true rfl⟩
theorem beq (d : Byte) : Statement (.beq d) := fun _ => ⟨Nat.le_of_ble_eq_true rfl, Nat.le_of_ble_eq_true rfl⟩
theorem clc : Statement .clc := fun _ => ⟨Nat.le_of_ble_eq_true rfl, Nat.le_of_ble_eq_true rfl⟩
theorem sec : Statement .sec := fun _ => ⟨Nat.le_of_ble_eq_true rfl, Nat.le_of_ble_eq_true rfl⟩
theorem cli : Statement .cli := fun _ => ⟨Nat.le_of_ble_eq_true rfl, Nat.le_of_ble_eq_true rfl⟩
theorem sei : Statement .sei := fun _ => ⟨Nat.le_of_ble_eq_true rfl, Nat.le_of_ble_eq_true rfl⟩
theorem cld : Statement .cld := fun _ => ⟨Nat.le_of_ble_eq_true rfl, Nat.le_of_ble_eq_true rfl⟩
theorem sed : Statement .sed := fun _ => ⟨Nat.le_of_ble_eq_true rfl, Nat.le_of_ble_eq_true rfl⟩
theorem clv : Statement .clv := fun _ => ⟨Nat.le_of_ble_eq_true rfl, Nat.le_of_ble_eq_true rfl⟩
theorem nop : Statement .nop := fun _ => ⟨Nat.le_of_ble_eq_true rfl, Nat.le_of_ble_eq_true rfl⟩
theorem jam (op : Byte) : Statement (.jam op) := fun _ => ⟨Nat.le_of_ble_eq_true rfl, Nat.le_of_ble_eq_true rfl⟩
theorem nopImp (op : Byte) : Statement (.nopImp op) := fun _ => ⟨Nat.le_of_ble_eq_true rfl, Nat.le_of_ble_eq_true rfl⟩
theorem nopImm (op : Byte) (b : Byte) : Statement (.nopImm op b) := fun _ => ⟨Nat.le_of_ble_eq_true rfl, Nat.le_of_ble_eq_true rfl⟩
theorem nopRead (op : Byte) (o : Operand) : Statement (.nopRead op o) := by
  intro _
  cases o <;> exact ⟨Nat.le_of_ble_eq_true rfl, Nat.le_of_ble_eq_true rfl⟩
theorem slo (o : Operand) : Statement (.slo o) := by
  intro h
  cases o <;> first | exact ⟨Nat.le_of_ble_eq_true rfl, Nat.le_of_ble_eq_true rfl⟩ | exact absurd h Bool.false_ne_true
theorem rla (o : Operand) : Statement (.rla o) := by
  intro h
  cases o <;> first | exact ⟨Nat.le_of_ble_eq_true rfl, Nat.le_of_ble_eq_true rfl⟩ | exact absurd h Bool.false_ne_true
theorem sre (o : Operand) : Statement (.sre o) := by
  intro h
  cases o <;> first | exact ⟨Nat.le_of_ble_eq_true rfl, Nat.le_of_ble_eq_true rfl⟩ | exact absurd h Bool.false_ne_true
theorem rra (o : Operand) : Statement (.rra o) := by
  intro h
  cases o <;> first | exact ⟨Nat.le_of_ble_eq_true rfl, Nat.le_of_ble_eq_true rfl⟩ | exact absurd h Bool.false_ne_true
theorem sax (o : Operand) : Statement (.sax o) := by
  intro h
  cases o <;> first | exact ⟨Nat.le_of_ble_eq_true rfl, Nat.le_of_ble_eq_true rfl⟩ | exact absurd h Bool.false_ne_true
theorem lax (o : Operand) : Statement (.lax o) := by
  intro h
  cases o <;> first | exact ⟨Nat.le_of_ble_eq_true rfl, Nat.le_of_ble_eq_true rfl⟩ | exact absurd h Bool.false_ne_true
theorem dcp (o : Operand) : Statement (.dcp o) := by
  intro h
  cases o <;> first | exact ⟨Nat.le_of_ble_eq_true rfl, Nat.le_of_ble_eq_true rfl⟩ | exact absurd h Bool.false_ne_true
theorem isc (o : Operand) : Statement (.isc o) := by
  intro h
  cases o <;> first | exact ⟨Nat.le_of_ble_eq_true rfl, Nat.le_of_ble_eq_true rfl⟩ | exact absurd h Bool.false_ne_true
theorem anc (op : Byte) (b : Byte) : Statement (.anc op b) := fun _ => ⟨Nat.le_of_ble_eq_true rfl, Nat.le_of_ble_eq_true rfl⟩
theorem alr (b : Byte) : Statement (.alr b) := fun _ => ⟨Nat.le_of_ble_eq_true rfl, Nat.le_of_ble_eq_true rfl⟩
theorem arr (b : Byte) : Statement (.arr b) := fun _ => ⟨Nat.le_of_ble_eq_true rfl, Nat.le_of_ble_eq_true rfl⟩
theorem axs (b : Byte) : Statement (.axs b) := fun _ => ⟨Nat.le_of_ble_eq_true rfl, Nat.le_of_ble_eq_true rfl⟩
theorem usbc (b : Byte) : Statement (.usbc b) := fun _ => ⟨Nat.le_of_ble_eq_true rfl, Nat.le_of_ble_eq_true rfl⟩
theorem las (w : Word) : Statement (.las w) := fun _ => ⟨Nat.le_of_ble_eq_true rfl, Nat.le_of_ble_eq_true rfl⟩
theorem xaa (b : Byte) : Statement (.xaa b) := fun _ => ⟨Nat.le_of_ble_eq_true rfl, Nat.le_of_ble_eq_true rfl⟩
theorem lxa (b : Byte) : Statement (.lxa b) := fun _ => ⟨Nat.le_of_ble_eq_true rfl, Nat.le_of_ble_eq_true rfl⟩
theorem sha (o : Operand) : Statement (.sha o) := by
  intro h
  cases o <;> first | exact ⟨Nat.le_of_ble_eq_true rfl, Nat.le_of_ble_eq_true rfl⟩ | exact absurd h Bool.false_ne_true
theorem shx (w : Word) : Statement (.shx w) := fun _ => ⟨Nat.le_of_ble_eq_true rfl, Nat.le_of_ble_eq_true rfl⟩
theorem shy (w : Word) : Statement (.shy w) := fun _ => ⟨Nat.le_of_ble_eq_true rfl, Nat.le_of_ble_eq_true rfl⟩
theorem tas (w : Word) : Statement (.tas w) := fun _ => ⟨Nat.le_of_ble_eq_true rfl, Nat.le_of_ble_eq_true rfl⟩

end Sys2Proof.Laws.EncodedLength
end

