-- ==== Sys2Proof/Laws/Store.lean ====
section
/-! SUPPORT. What a store leaves of memory, and the stack's cells, in the terms of Safety.lean. -/

namespace Sys2Proof.Machine

theorem ramCell_lt (a : Word) : ramCell a < 0x800 := Nat.mod_lt _ (by omega)

/-- Outside the store's own byte and its mirrors every address reads as before. -/
theorem busWrite_storesByte {a : Word} {v : Byte} {s : State} (h : s.wf = true) : StoresByte a v s (busWrite a v s) := by
  obtain ⟨⟨h1, h2, _⟩, _⟩ := (wf_iff s).1 h
  have key (b : Word) : sameStorage a b = true ↔
      (a.toNat < 0x2000 ∧ b.toNat < 0x2000 ∧ a.toNat % 0x800 = b.toNat % 0x800) ∨
        (0x6000 ≤ a.toNat ∧ a.toNat < 0x8000 ∧ a.toNat = b.toNat) := by
    simp [sameStorage, and_assoc, BitVec.toNat_eq]
  by_cases hr : a.toNat < 0x2000
  · rw [busWrite_ramAddr v s hr]
    refine ⟨fun b hb => ?_, fun b hb _ => ?_, fun ha => by omega⟩
    · have hb' := (key b).1 hb
      rw [State.peek_ram _ (by omega)]
      simp only
      rw [Memory.get_set h1, if_pos (by unfold ramCell; omega)]
    · have hb' := mt (key b).2 (by simp [hb])
      by_cases hbr : b.toNat < 0x2000
      · rw [State.peek_ram _ hbr, State.peek_ram _ hbr]
        simp only
        rw [Memory.get_set h1, if_neg (by unfold ramCell; omega)]
      · unfold State.peek; rw [if_neg hbr, if_neg hbr]
  · by_cases hd : a.toNat < 0x6000
    · have hm : ∀ b, sameStorage a b = false := fun b => by
        rw [Bool.eq_false_iff]; exact fun hb => by have := (key b).1 hb; omega
      have hw : busWrite a v s = writeDevice a v s := by unfold busWrite; rw [if_neg hr, if_pos hd]
      rw [hw]
      refine ⟨fun b hb => ?_, fun b _ _ => ?_, fun ha => by omega⟩
      · rw [hm b] at hb; exact absurd hb (by decide)
      · unfold writeDevice
        split
        · unfold writePpu
          split <;> first
            | rfl
            | (simp only [writePpuData, State.setPpuCell]
               cases Config.ppuTarget s.draws with
               | graphics off =>
                 simp only [Cart.chrWrite]
                 split <;> rfl
               | nametable i => rfl
               | palette i => rfl)
        · split
          · rfl
          · split
            · rfl
            · split
              · rfl
              · split
                · rfl
                · split
                  · unfold writeFrameControl; simp only; split <;> rfl
                  · rfl
    · by_cases hp : a.toNat < 0x8000
      · have hw : busWrite a v s =
            { s with cart := { s.cart with prgRam := s.cart.prgRam.set (prgRamOffset a) v } } := by
          unfold busWrite; rw [if_neg hr, if_neg hd, if_pos hp]
        rw [hw]
        refine ⟨fun b hb => ?_, fun b hb _ => ?_, fun ha => by omega⟩
        · have hb' := (key b).1 hb
          unfold State.peek
          rw [if_neg (by omega), if_neg (by omega), if_pos (by omega)]
          simp only
          rw [Memory.get_set h2, if_pos (by unfold prgRamOffset; omega)]
        · have hb' := mt (key b).2 (by simp [hb])
          unfold State.peek
          by_cases b1 : b.toNat < 0x2000
          · rw [if_pos b1, if_pos b1]
          · rw [if_neg b1, if_neg b1]
            by_cases b2 : b.toNat < 0x6000
            · rw [if_pos b2, if_pos b2]
            · rw [if_neg b2, if_neg b2]
              by_cases b3 : b.toNat < 0x8000
              · rw [if_pos b3, if_pos b3]
                simp only
                rw [Memory.get_set h2, if_neg (by unfold prgRamOffset; omega)]
              · rw [if_neg b3, if_neg b3]; rfl
      · have hw : busWrite a v s = { s with cart := s.cart.mapperWrite a v } := by
          unfold busWrite; rw [if_neg hr, if_neg hd, if_neg hp]
        rw [hw]
        refine ⟨fun b hb => ?_, fun b _ hor => ?_, fun _ => rfl⟩
        · have hb' := (key b).1 hb; omega
        · obtain ⟨_, _, _, _, _, _, _, e⟩ := mapperWrite_frame s.cart a v
          unfold State.peek
          simp only [e]
          by_cases b1 : b.toNat < 0x2000
          · rw [if_pos b1, if_pos b1]
          · rw [if_neg b1, if_neg b1]
            by_cases b2 : b.toNat < 0x6000
            · rw [if_pos b2, if_pos b2]
            · rw [if_neg b2, if_neg b2, if_pos (by omega), if_pos (by omega)]

/-- What a store leaves depends on work RAM and the cartridge only. -/
theorem StoresByte.congr {a : Word} {v : Byte} {s s' t t' : State} (h : StoresByte a v s t) (hr : t'.ram = t.ram)
    (hc : t'.cart = t.cart) (hr' : s'.ram = s.ram) (hc' : s'.cart = s.cart) : StoresByte a v s' t' := by
  refine ⟨fun b hb => ?_, fun b hb ho => ?_, fun ha => ?_⟩
  · rw [State.peek_congr hr hc]; exact h.1 b hb
  · rw [State.peek_congr hr hc, State.peek_congr hr' hc']; exact h.2.1 b hb ho
  · rw [hc, hc']; exact h.2.2 ha

/-! ## Operands in memory -/

/-- Writing to an operand in memory is one bus write. -/
theorem writeOperand_memory {o : Operand} (ha : o.mode ≠ .acc) (hi : o.mode ≠ .imm) (a : Word) (v : Byte) (s : State) :
    writeOperand o a v s = busWrite a v s := by
  cases o <;> first | rfl | exact absurd rfl ha | exact absurd rfl hi

/-- A form that is not in the list is not the operand's. -/
theorem Operand.mode_ne {o : Operand} {ms : List Mode} {m : Mode} (h : o.is ms = true) (hm : m ∉ ms) : o.mode ≠ m :=
  fun e => hm (e ▸ of_decide_eq_true h)

/-- What a read of the operand changes are devices. -/
theorem readOperand_withDevices (o : Operand) (s : State) : s.withDevices (readOperand o s).2 = (readOperand o s).2 := by
  obtain ⟨_, _, _, _, e⟩ := readOperand_frame o s
  rw [e]; rfl

/-- What a write changes are memories and devices. -/
theorem busWrite_withStore (a : Word) (v : Byte) (s : State) : s.withStore (busWrite a v s) = busWrite a v s := by
  obtain ⟨_, _, _, _, _, _, _, e⟩ := busWrite_frame a v s
  rw [e]; rfl

/-- The same of a write after the read of the operand. -/
theorem busWrite_read_withStore (a : Word) (v : Byte) (o : Operand) (s : State) :
    s.withStore (busWrite a v (readOperand o s).2) = busWrite a v (readOperand o s).2 := by
  obtain ⟨_, _, _, _, e⟩ := readOperand_frame o s
  obtain ⟨_, _, _, _, _, _, _, e'⟩ := busWrite_frame a v (readOperand o s).2
  rw [e', e]; rfl

/-- What a read changes are devices. -/
theorem busRead_withDevices (a : Word) (s : State) : s.withDevices (busRead a s).2 = (busRead a s).2 := by
  obtain ⟨_, _, _, _, e⟩ := busRead_frame a s
  rw [e]; rfl

/-- The same of two reads. -/
theorem busRead_busRead_withDevices (a b : Word) (s : State) :
    s.withDevices (busRead b (busRead a s).2).2 = (busRead b (busRead a s).2).2 := by
  obtain ⟨_, _, _, _, e⟩ := busRead_frame a s
  obtain ⟨_, _, _, _, e'⟩ := busRead_frame b (busRead a s).2
  rw [e', e]; rfl

@[simp] theorem readOperand_a (o : Operand) (s : State) : (readOperand o s).2.a = s.a := by
  obtain ⟨_, _, _, _, e⟩ := readOperand_frame o s; rw [e]
@[simp] theorem readOperand_x (o : Operand) (s : State) : (readOperand o s).2.x = s.x := by
  obtain ⟨_, _, _, _, e⟩ := readOperand_frame o s; rw [e]
@[simp] theorem readOperand_y (o : Operand) (s : State) : (readOperand o s).2.y = s.y := by
  obtain ⟨_, _, _, _, e⟩ := readOperand_frame o s; rw [e]
@[simp] theorem readOperand_sp (o : Operand) (s : State) : (readOperand o s).2.sp = s.sp := by
  obtain ⟨_, _, _, _, e⟩ := readOperand_frame o s; rw [e]
@[simp] theorem readOperand_pc (o : Operand) (s : State) : (readOperand o s).2.pc = s.pc := by
  obtain ⟨_, _, _, _, e⟩ := readOperand_frame o s; rw [e]
@[simp] theorem readOperand_p (o : Operand) (s : State) : (readOperand o s).2.p = s.p := by
  obtain ⟨_, _, _, _, e⟩ := readOperand_frame o s; rw [e]
@[simp] theorem readOperand_stepCycles (o : Operand) (s : State) : (readOperand o s).2.stepCycles = s.stepCycles := by
  obtain ⟨_, _, _, _, e⟩ := readOperand_frame o s; rw [e]
@[simp] theorem readOperand_ram (o : Operand) (s : State) : (readOperand o s).2.ram = s.ram := by
  obtain ⟨_, _, _, _, e⟩ := readOperand_frame o s; rw [e]
@[simp] theorem readOperand_cart (o : Operand) (s : State) : (readOperand o s).2.cart = s.cart := by
  obtain ⟨_, _, _, _, e⟩ := readOperand_frame o s; rw [e]

/-- A store after the read of an operand stores its byte and nothing else. -/
theorem busWrite_read_storesByte {a : Word} {v : Byte} {o : Operand} {s : State} (h : s.wf = true) :
    StoresByte a v s (busWrite a v (readOperand o s).2) :=
  (busWrite_storesByte (readOperand_wf h)).congr rfl rfl (readOperand_ram o s).symm (readOperand_cart o s).symm

/-- A read-modify-write form in memory whose computation gives `r` and writes at most flags: one read, one write of `r`,
then what follows. -/
theorem readModifyWrite_memory {o : Operand} {f : Byte → State → Byte × State} {after : Byte → State → State}
    {s : State} {r : Byte} {q : Flags} (ha : o.mode ≠ .acc) (hi : o.mode ≠ .imm)
    (hf : f (readOperand o s).1 (readOperand o s).2 = (r, (readOperand o s).2.setP q)) :
    readModifyWrite o f after s =
      (after r ((busWrite (effectiveAddress o s) r (readOperand o s).2).setP q)).addCycles (rmwCycles o) := by
  simp only [readModifyWrite, hf, writeOperand_memory ha hi, busWrite_setP]

/-! ## The stack's cells -/

theorem State.peek_stack (s : State) (sp : Byte) : s.peek (stackAddr sp) = some (s.ram.get (0x100 + sp.toNat)) := by
  have := sp.isLt
  rw [State.peek_ram _ (by rw [stackAddr_toNat]; omega), ramCell_stackAddr]

theorem sameStorage_stack {sp : Byte} {b : Word} : sameStorage (stackAddr sp) b = false →
    b.toNat < 0x2000 → ramCell b ≠ 0x100 + sp.toNat := by
  intro h hb he
  have := sp.isLt
  have : sameStorage (stackAddr sp) b = true := by
    unfold sameStorage
    unfold ramCell at he
    have h1 : (stackAddr sp).toNat % 0x800 = b.toNat % 0x800 := by rw [stackAddr_toNat, he]; omega
    have h2 : (stackAddr sp).toNat < 0x2000 := by rw [stackAddr_toNat]; omega
    simp [h1, h2, hb]
  rw [this] at h
  exact absurd h (by decide)

theorem stackCell_lt (sp : Byte) : 0x100 + sp.toNat < 0x800 := by
  have := sp.isLt; omega

/-- The cells of three pushes in a row are three cells. -/
theorem stackCell_ne (sp : Byte) :
    0x100 + sp.toNat ≠ 0x100 + (sp - 1).toNat ∧ 0x100 + sp.toNat ≠ 0x100 + (sp - 1 - 1).toNat ∧
      0x100 + (sp - 1).toNat ≠ 0x100 + (sp - 1 - 1).toNat := by
  have := sp.isLt
  have h1 : (1 : Byte).toNat = 1 := rfl
  simp only [BitVec.toNat_sub, h1]
  omega

/-! ## Words, bytes and pages -/

/-- A word is its two bytes. -/
theorem mkWord_hiByte_loByte (w : Word) : mkWord (hiByte w) (loByte w) = w := by
  have := w.isLt
  apply BitVec.eq_of_toNat_eq
  rw [mkWord_toNat]
  simp only [hiByte, loByte, BitVec.extractLsb'_toNat, Nat.shiftRight_eq_div_pow]
  omega

theorem pageOf_toNat (w : Word) : (pageOf w).toNat = w.toNat / 256 * 256 := by
  have h : pageOf w = (w >>> 8) <<< 8 := by
    ext i hi
    simp only [pageOf, BitVec.getElem_and, BitVec.getElem_shiftLeft]
    rcases i with _ | _ | _ | _ | _ | _ | _ | _ | _ | _ | _ | _ | _ | _ | _ | _ | i
    all_goals first
      | (simp; done)
      | (exfalso; omega)
  have := w.isLt
  rw [h, BitVec.toNat_shiftLeft, BitVec.toNat_ushiftRight, Nat.shiftRight_eq_div_pow, Nat.shiftLeft_eq]
  omega

/-- An address with the page of one and the low byte of another. -/
theorem inPage_toNat (page low : Word) : (inPage page low).toNat = page.toNat / 256 * 256 + low.toNat % 256 := by
  have h : (low &&& 0x00FF).toNat = low.toNat % 256 := by
    rw [BitVec.toNat_and]; exact Nat.and_two_pow_sub_one_eq_mod low.toNat 8
  rw [inPage, BitVec.toNat_or, pageOf_toNat, h, Nat.mul_comm]
  exact (Nat.two_pow_add_eq_or_of_lt (i := 8) (Nat.mod_lt _ (by omega)) _).symm

end Sys2Proof.Machine
end

