-- ==== Sys2Proof/Tests/Slice0.lean ====
section
/-! SUPPORT. The model's own tests. Expected results are from the spec: the opcode table and 30_encoding.md for decoding,
the vectors V<n> and scenarios S<n> of 95_test_vectors.md for steps, the rules cited beside the others. The last part
gives, for each statement with hypotheses, a state that meets them. -/

namespace Sys2Proof.Tests

open Sys2Proof Sys2Proof.Machine

/-! ## Helpers -/

/-- The start of 95_test_vectors.md: right after reset, `PC` at `$8000`. -/
def cpu : State := { State.reset with pc := 0x8000 }

/-- Bytes at `PC`. -/
def code (bytes : List Byte) (s : State) : State := placeBytes s.pc bytes s

/-- A byte of storage. -/
def cell (a : Word) (v : Byte) (s : State) : State := placeByte a v s

/-- One step, with given parameters, answers a next state of which `check` is true. -/
def ranWith (p : Params) (s : State) (check : State → Bool) : Bool :=
  match stepWith p s with
  | .next t => check t
  | .fault _ | .refused _ => false

/-- The same with the default parameters. -/
def ranTo (s : State) (check : State → Bool) : Bool := ranWith params s check

/-- One step is refused for this reason. -/
def refusedWith (p : Params) (s : State) (r : Refusal) : Bool := stepReport p s == (.refused r, { s with refused := true })

/-- The bytes are exactly one instruction. -/
def decodesTo (bytes : List Byte) (i : Instr) : Bool :=
  match decode bytes with
  | .ok (j, []) => j == i
  | .ok _ | .error _ => false

/-- A load fails for this reason. -/
def loadFails (image : List Byte) (e : LoadError) : Bool :=
  match Cart.load image with
  | .ok _ => false
  | .error f => f == e

/-! ## Well-formedness: a term each check refuses -/

theorem test_illformed_lda : (Instr.lda .acc).wellFormed = false := by decide
theorem test_illformed_ldx : (Instr.ldx (.zpx 0)).wellFormed = false := by decide
theorem test_illformed_ldy : (Instr.ldy (.zpy 0)).wellFormed = false := by decide
theorem test_illformed_sta : (Instr.sta (.imm 0)).wellFormed = false := by decide
theorem test_illformed_stx : (Instr.stx (.zpx 0)).wellFormed = false := by decide
theorem test_illformed_sty : (Instr.sty (.zpy 0)).wellFormed = false := by decide
theorem test_illformed_adc : (Instr.adc (.zpy 0)).wellFormed = false := by decide
theorem test_illformed_sbc : (Instr.sbc .acc).wellFormed = false := by decide
theorem test_illformed_and : (Instr.and .acc).wellFormed = false := by decide
theorem test_illformed_ora : (Instr.ora (.zpy 0)).wellFormed = false := by decide
theorem test_illformed_eor : (Instr.eor .acc).wellFormed = false := by decide
theorem test_illformed_cmp : (Instr.cmp (.zpy 0)).wellFormed = false := by decide
theorem test_illformed_bit : (Instr.bit (.imm 0)).wellFormed = false := by decide
theorem test_illformed_cpx : (Instr.cpx (.zpx 0)).wellFormed = false := by decide
theorem test_illformed_cpy : (Instr.cpy (.absx 0)).wellFormed = false := by decide
theorem test_illformed_inc : (Instr.inc .acc).wellFormed = false := by decide
theorem test_illformed_dec : (Instr.dec (.absy 0)).wellFormed = false := by decide
theorem test_illformed_asl : (Instr.asl (.absy 0)).wellFormed = false := by decide
theorem test_illformed_lsr : (Instr.lsr (.imm 0)).wellFormed = false := by decide
theorem test_illformed_rol : (Instr.rol (.indx 0)).wellFormed = false := by decide
theorem test_illformed_ror : (Instr.ror (.indy 0)).wellFormed = false := by decide
theorem test_illformed_slo : (Instr.slo .acc).wellFormed = false := by decide
theorem test_illformed_rla : (Instr.rla (.imm 0)).wellFormed = false := by decide
theorem test_illformed_sre : (Instr.sre (.zpy 0)).wellFormed = false := by decide
theorem test_illformed_rra : (Instr.rra .acc).wellFormed = false := by decide
theorem test_illformed_dcp : (Instr.dcp (.imm 0)).wellFormed = false := by decide
theorem test_illformed_isc : (Instr.isc (.imm 0)).wellFormed = false := by decide
theorem test_illformed_sax : (Instr.sax (.indy 0)).wellFormed = false := by decide
theorem test_illformed_lax : (Instr.lax (.absx 0)).wellFormed = false := by decide
theorem test_illformed_sha : (Instr.sha (.abs 0)).wellFormed = false := by decide
theorem test_illformed_jam : (Instr.jam 0x82).wellFormed = false := by decide
theorem test_illformed_nopImp : (Instr.nopImp 0xEA).wellFormed = false := by decide
theorem test_illformed_nopImm : (Instr.nopImm 0xA2 0).wellFormed = false := by decide
theorem test_illformed_nopRead : (Instr.nopRead 0x0C (.zp 0)).wellFormed = false := by decide
theorem test_illformed_anc : (Instr.anc 0x4B 0).wellFormed = false := by decide

/-! ## Decoding: the opcode byte bit by bit from opcode_table.json, the operand bytes low byte first (R91) -/

theorem test_decode_lda : (decodesTo [0b10100001, 0x34] (.lda (.indx 0x34)) &&
    decodesTo [0b10100101, 0x34] (.lda (.zp 0x34)) && decodesTo [0b10101001, 0x34] (.lda (.imm 0x34)) &&
    decodesTo [0b10101101, 0x34, 0x12] (.lda (.abs 0x1234)) && decodesTo [0b10110001, 0x34] (.lda (.indy 0x34)) &&
    decodesTo [0b10110101, 0x34] (.lda (.zpx 0x34)) && decodesTo [0b10111001, 0x34, 0x12] (.lda (.absy 0x1234)) &&
    decodesTo [0b10111101, 0x34, 0x12] (.lda (.absx 0x1234))) = true := by decide
theorem test_decode_ldx : (decodesTo [0b10100010, 0x34] (.ldx (.imm 0x34)) &&
    decodesTo [0b10100110, 0x34] (.ldx (.zp 0x34)) && decodesTo [0b10101110, 0x34, 0x12] (.ldx (.abs 0x1234)) &&
    decodesTo [0b10110110, 0x34] (.ldx (.zpy 0x34)) &&
    decodesTo [0b10111110, 0x34, 0x12] (.ldx (.absy 0x1234))) = true := by decide
theorem test_decode_ldy : (decodesTo [0b10100000, 0x34] (.ldy (.imm 0x34)) &&
    decodesTo [0b10100100, 0x34] (.ldy (.zp 0x34)) && decodesTo [0b10101100, 0x34, 0x12] (.ldy (.abs 0x1234)) &&
    decodesTo [0b10110100, 0x34] (.ldy (.zpx 0x34)) &&
    decodesTo [0b10111100, 0x34, 0x12] (.ldy (.absx 0x1234))) = true := by decide
theorem test_decode_sta : (decodesTo [0b10000001, 0x34] (.sta (.indx 0x34)) &&
    decodesTo [0b10000101, 0x34] (.sta (.zp 0x34)) && decodesTo [0b10001101, 0x34, 0x12] (.sta (.abs 0x1234)) &&
    decodesTo [0b10010001, 0x34] (.sta (.indy 0x34)) && decodesTo [0b10010101, 0x34] (.sta (.zpx 0x34)) &&
    decodesTo [0b10011001, 0x34, 0x12] (.sta (.absy 0x1234)) &&
    decodesTo [0b10011101, 0x34, 0x12] (.sta (.absx 0x1234))) = true := by decide
theorem test_decode_stx : (decodesTo [0b10000110, 0x34] (.stx (.zp 0x34)) &&
    decodesTo [0b10001110, 0x34, 0x12] (.stx (.abs 0x1234)) &&
    decodesTo [0b10010110, 0x34] (.stx (.zpy 0x34))) = true := by decide
theorem test_decode_sty : (decodesTo [0b10000100, 0x34] (.sty (.zp 0x34)) &&
    decodesTo [0b10001100, 0x34, 0x12] (.sty (.abs 0x1234)) &&
    decodesTo [0b10010100, 0x34] (.sty (.zpx 0x34))) = true := by decide
theorem test_decode_tax : (decodesTo [0b10101010] .tax) = true := by decide
theorem test_decode_tay : (decodesTo [0b10101000] .tay) = true := by decide
theorem test_decode_txa : (decodesTo [0b10001010] .txa) = true := by decide
theorem test_decode_tya : (decodesTo [0b10011000] .tya) = true := by decide
theorem test_decode_tsx : (decodesTo [0b10111010] .tsx) = true := by decide
theorem test_decode_txs : (decodesTo [0b10011010] .txs) = true := by decide
theorem test_decode_pha : (decodesTo [0b01001000] .pha) = true := by decide
theorem test_decode_php : (decodesTo [0b00001000] .php) = true := by decide
theorem test_decode_pla : (decodesTo [0b01101000] .pla) = true := by decide
theorem test_decode_plp : (decodesTo [0b00101000] .plp) = true := by decide
theorem test_decode_adc : (decodesTo [0b01100001, 0x34] (.adc (.indx 0x34)) &&
    decodesTo [0b01100101, 0x34] (.adc (.zp 0x34)) && decodesTo [0b01101001, 0x34] (.adc (.imm 0x34)) &&
    decodesTo [0b01101101, 0x34, 0x12] (.adc (.abs 0x1234)) && decodesTo [0b01110001, 0x34] (.adc (.indy 0x34)) &&
    decodesTo [0b01110101, 0x34] (.adc (.zpx 0x34)) && decodesTo [0b01111001, 0x34, 0x12] (.adc (.absy 0x1234)) &&
    decodesTo [0b01111101, 0x34, 0x12] (.adc (.absx 0x1234))) = true := by decide
theorem test_decode_sbc : (decodesTo [0b11100001, 0x34] (.sbc (.indx 0x34)) &&
    decodesTo [0b11100101, 0x34] (.sbc (.zp 0x34)) && decodesTo [0b11101001, 0x34] (.sbc (.imm 0x34)) &&
    decodesTo [0b11101101, 0x34, 0x12] (.sbc (.abs 0x1234)) && decodesTo [0b11110001, 0x34] (.sbc (.indy 0x34)) &&
    decodesTo [0b11110101, 0x34] (.sbc (.zpx 0x34)) && decodesTo [0b11111001, 0x34, 0x12] (.sbc (.absy 0x1234)) &&
    decodesTo [0b11111101, 0x34, 0x12] (.sbc (.absx 0x1234))) = true := by decide
theorem test_decode_and : (decodesTo [0b00100001, 0x34] (.and (.indx 0x34)) &&
    decodesTo [0b00100101, 0x34] (.and (.zp 0x34)) && decodesTo [0b00101001, 0x34] (.and (.imm 0x34)) &&
    decodesTo [0b00101101, 0x34, 0x12] (.and (.abs 0x1234)) && decodesTo [0b00110001, 0x34] (.and (.indy 0x34)) &&
    decodesTo [0b00110101, 0x34] (.and (.zpx 0x34)) && decodesTo [0b00111001, 0x34, 0x12] (.and (.absy 0x1234)) &&
    decodesTo [0b00111101, 0x34, 0x12] (.and (.absx 0x1234))) = true := by decide
theorem test_decode_ora : (decodesTo [0b00000001, 0x34] (.ora (.indx 0x34)) &&
    decodesTo [0b00000101, 0x34] (.ora (.zp 0x34)) && decodesTo [0b00001001, 0x34] (.ora (.imm 0x34)) &&
    decodesTo [0b00001101, 0x34, 0x12] (.ora (.abs 0x1234)) && decodesTo [0b00010001, 0x34] (.ora (.indy 0x34)) &&
    decodesTo [0b00010101, 0x34] (.ora (.zpx 0x34)) && decodesTo [0b00011001, 0x34, 0x12] (.ora (.absy 0x1234)) &&
    decodesTo [0b00011101, 0x34, 0x12] (.ora (.absx 0x1234))) = true := by decide
theorem test_decode_eor : (decodesTo [0b01000001, 0x34] (.eor (.indx 0x34)) &&
    decodesTo [0b01000101, 0x34] (.eor (.zp 0x34)) && decodesTo [0b01001001, 0x34] (.eor (.imm 0x34)) &&
    decodesTo [0b01001101, 0x34, 0x12] (.eor (.abs 0x1234)) && decodesTo [0b01010001, 0x34] (.eor (.indy 0x34)) &&
    decodesTo [0b01010101, 0x34] (.eor (.zpx 0x34)) && decodesTo [0b01011001, 0x34, 0x12] (.eor (.absy 0x1234)) &&
    decodesTo [0b01011101, 0x34, 0x12] (.eor (.absx 0x1234))) = true := by decide
theorem test_decode_bit : (decodesTo [0b00100100, 0x34] (.bit (.zp 0x34)) &&
    decodesTo [0b00101100, 0x34, 0x12] (.bit (.abs 0x1234))) = true := by decide
theorem test_decode_cmp : (decodesTo [0b11000001, 0x34] (.cmp (.indx 0x34)) &&
    decodesTo [0b11000101, 0x34] (.cmp (.zp 0x34)) && decodesTo [0b11001001, 0x34] (.cmp (.imm 0x34)) &&
    decodesTo [0b11001101, 0x34, 0x12] (.cmp (.abs 0x1234)) && decodesTo [0b11010001, 0x34] (.cmp (.indy 0x34)) &&
    decodesTo [0b11010101, 0x34] (.cmp (.zpx 0x34)) && decodesTo [0b11011001, 0x34, 0x12] (.cmp (.absy 0x1234)) &&
    decodesTo [0b11011101, 0x34, 0x12] (.cmp (.absx 0x1234))) = true := by decide
theorem test_decode_cpx : (decodesTo [0b11100000, 0x34] (.cpx (.imm 0x34)) &&
    decodesTo [0b11100100, 0x34] (.cpx (.zp 0x34)) &&
    decodesTo [0b11101100, 0x34, 0x12] (.cpx (.abs 0x1234))) = true := by decide
theorem test_decode_cpy : (decodesTo [0b11000000, 0x34] (.cpy (.imm 0x34)) &&
    decodesTo [0b11000100, 0x34] (.cpy (.zp 0x34)) &&
    decodesTo [0b11001100, 0x34, 0x12] (.cpy (.abs 0x1234))) = true := by decide
theorem test_decode_inc : (decodesTo [0b11100110, 0x34] (.inc (.zp 0x34)) &&
    decodesTo [0b11101110, 0x34, 0x12] (.inc (.abs 0x1234)) && decodesTo [0b11110110, 0x34] (.inc (.zpx 0x34)) &&
    decodesTo [0b11111110, 0x34, 0x12] (.inc (.absx 0x1234))) = true := by decide
theorem test_decode_dec : (decodesTo [0b11000110, 0x34] (.dec (.zp 0x34)) &&
    decodesTo [0b11001110, 0x34, 0x12] (.dec (.abs 0x1234)) && decodesTo [0b11010110, 0x34] (.dec (.zpx 0x34)) &&
    decodesTo [0b11011110, 0x34, 0x12] (.dec (.absx 0x1234))) = true := by decide
theorem test_decode_inx : (decodesTo [0b11101000] .inx) = true := by decide
theorem test_decode_iny : (decodesTo [0b11001000] .iny) = true := by decide
theorem test_decode_dex : (decodesTo [0b11001010] .dex) = true := by decide
theorem test_decode_dey : (decodesTo [0b10001000] .dey) = true := by decide
theorem test_decode_asl : (decodesTo [0b00000110, 0x34] (.asl (.zp 0x34)) && decodesTo [0b00001010] (.asl .acc) &&
    decodesTo [0b00001110, 0x34, 0x12] (.asl (.abs 0x1234)) && decodesTo [0b00010110, 0x34] (.asl (.zpx 0x34)) &&
    decodesTo [0b00011110, 0x34, 0x12] (.asl (.absx 0x1234))) = true := by decide
theorem test_decode_lsr : (decodesTo [0b01000110, 0x34] (.lsr (.zp 0x34)) && decodesTo [0b01001010] (.lsr .acc) &&
    decodesTo [0b01001110, 0x34, 0x12] (.lsr (.abs 0x1234)) && decodesTo [0b01010110, 0x34] (.lsr (.zpx 0x34)) &&
    decodesTo [0b01011110, 0x34, 0x12] (.lsr (.absx 0x1234))) = true := by decide
theorem test_decode_rol : (decodesTo [0b00100110, 0x34] (.rol (.zp 0x34)) && decodesTo [0b00101010] (.rol .acc) &&
    decodesTo [0b00101110, 0x34, 0x12] (.rol (.abs 0x1234)) && decodesTo [0b00110110, 0x34] (.rol (.zpx 0x34)) &&
    decodesTo [0b00111110, 0x34, 0x12] (.rol (.absx 0x1234))) = true := by decide
theorem test_decode_ror : (decodesTo [0b01100110, 0x34] (.ror (.zp 0x34)) && decodesTo [0b01101010] (.ror .acc) &&
    decodesTo [0b01101110, 0x34, 0x12] (.ror (.abs 0x1234)) && decodesTo [0b01110110, 0x34] (.ror (.zpx 0x34)) &&
    decodesTo [0b01111110, 0x34, 0x12] (.ror (.absx 0x1234))) = true := by decide
theorem test_decode_jmp : (decodesTo [0b01001100, 0x34, 0x12] (.jmp (.abs 0x1234)) &&
    decodesTo [0b01101100, 0x34, 0x12] (.jmp (.ind 0x1234))) = true := by decide
theorem test_decode_jsr : (decodesTo [0b00100000, 0x34, 0x12] (.jsr 0x1234)) = true := by decide
theorem test_decode_rts : (decodesTo [0b01100000] .rts) = true := by decide
theorem test_decode_rti : (decodesTo [0b01000000] .rti) = true := by decide
theorem test_decode_brk : (decodesTo [0b00000000] .brk) = true := by decide
theorem test_decode_bpl : (decodesTo [0b00010000, 0x34] (.bpl 0x34)) = true := by decide
theorem test_decode_bmi : (decodesTo [0b00110000, 0x34] (.bmi 0x34)) = true := by decide
theorem test_decode_bvc : (decodesTo [0b01010000, 0x34] (.bvc 0x34)) = true := by decide
theorem test_decode_bvs : (decodesTo [0b01110000, 0x34] (.bvs 0x34)) = true := by decide
theorem test_decode_bcc : (decodesTo [0b10010000, 0x34] (.bcc 0x34)) = true := by decide
theorem test_decode_bcs : (decodesTo [0b10110000, 0x34] (.bcs 0x34)) = true := by decide
theorem test_decode_bne : (decodesTo [0b11010000, 0x34] (.bne 0x34)) = true := by decide
theorem test_decode_beq : (decodesTo [0b11110000, 0x34] (.beq 0x34)) = true := by decide
theorem test_decode_clc : (decodesTo [0b00011000] .clc) = true := by decide
theorem test_decode_sec : (decodesTo [0b00111000] .sec) = true := by decide
theorem test_decode_cli : (decodesTo [0b01011000] .cli) = true := by decide
theorem test_decode_sei : (decodesTo [0b01111000] .sei) = true := by decide
theorem test_decode_cld : (decodesTo [0b11011000] .cld) = true := by decide
theorem test_decode_sed : (decodesTo [0b11111000] .sed) = true := by decide
theorem test_decode_clv : (decodesTo [0b10111000] .clv) = true := by decide
theorem test_decode_nop : (decodesTo [0b11101010] .nop) = true := by decide
theorem test_decode_jam : (decodesTo [0b00000010] (.jam 0x02) &&
    decodesTo [0b11110010] (.jam 0xF2)) = true := by decide
theorem test_decode_nopImp : (decodesTo [0b00011010] (.nopImp 0x1A) &&
    decodesTo [0b11111010] (.nopImp 0xFA)) = true := by decide
theorem test_decode_nopImm : (decodesTo [0b10000000, 0x34] (.nopImm 0x80 0x34) &&
    decodesTo [0b11100010, 0x34] (.nopImm 0xE2 0x34)) = true := by decide
theorem test_decode_nopRead : (decodesTo [0b00000100, 0x34] (.nopRead 0x04 (.zp 0x34)) &&
    decodesTo [0b00001100, 0x34, 0x12] (.nopRead 0x0C (.abs 0x1234)) &&
    decodesTo [0b00010100, 0x34] (.nopRead 0x14 (.zpx 0x34)) &&
    decodesTo [0b00011100, 0x34, 0x12] (.nopRead 0x1C (.absx 0x1234))) = true := by decide
theorem test_decode_slo : (decodesTo [0b00000011, 0x34] (.slo (.indx 0x34)) &&
    decodesTo [0b00000111, 0x34] (.slo (.zp 0x34)) && decodesTo [0b00001111, 0x34, 0x12] (.slo (.abs 0x1234)) &&
    decodesTo [0b00010011, 0x34] (.slo (.indy 0x34)) && decodesTo [0b00010111, 0x34] (.slo (.zpx 0x34)) &&
    decodesTo [0b00011011, 0x34, 0x12] (.slo (.absy 0x1234)) &&
    decodesTo [0b00011111, 0x34, 0x12] (.slo (.absx 0x1234))) = true := by decide
theorem test_decode_rla : (decodesTo [0b00100011, 0x34] (.rla (.indx 0x34)) &&
    decodesTo [0b00100111, 0x34] (.rla (.zp 0x34)) && decodesTo [0b00101111, 0x34, 0x12] (.rla (.abs 0x1234)) &&
    decodesTo [0b00110011, 0x34] (.rla (.indy 0x34)) && decodesTo [0b00110111, 0x34] (.rla (.zpx 0x34)) &&
    decodesTo [0b00111011, 0x34, 0x12] (.rla (.absy 0x1234)) &&
    decodesTo [0b00111111, 0x34, 0x12] (.rla (.absx 0x1234))) = true := by decide
theorem test_decode_sre : (decodesTo [0b01000011, 0x34] (.sre (.indx 0x34)) &&
    decodesTo [0b01000111, 0x34] (.sre (.zp 0x34)) && decodesTo [0b01001111, 0x34, 0x12] (.sre (.abs 0x1234)) &&
    decodesTo [0b01010011, 0x34] (.sre (.indy 0x34)) && decodesTo [0b01010111, 0x34] (.sre (.zpx 0x34)) &&
    decodesTo [0b01011011, 0x34, 0x12] (.sre (.absy 0x1234)) &&
    decodesTo [0b01011111, 0x34, 0x12] (.sre (.absx 0x1234))) = true := by decide
theorem test_decode_rra : (decodesTo [0b01100011, 0x34] (.rra (.indx 0x34)) &&
    decodesTo [0b01100111, 0x34] (.rra (.zp 0x34)) && decodesTo [0b01101111, 0x34, 0x12] (.rra (.abs 0x1234)) &&
    decodesTo [0b01110011, 0x34] (.rra (.indy 0x34)) && decodesTo [0b01110111, 0x34] (.rra (.zpx 0x34)) &&
    decodesTo [0b01111011, 0x34, 0x12] (.rra (.absy 0x1234)) &&
    decodesTo [0b01111111, 0x34, 0x12] (.rra (.absx 0x1234))) = true := by decide
theorem test_decode_sax : (decodesTo [0b10000011, 0x34] (.sax (.indx 0x34)) &&
    decodesTo [0b10000111, 0x34] (.sax (.zp 0x34)) && decodesTo [0b10001111, 0x34, 0x12] (.sax (.abs 0x1234)) &&
    decodesTo [0b10010111, 0x34] (.sax (.zpy 0x34))) = true := by decide
theorem test_decode_lax : (decodesTo [0b10100011, 0x34] (.lax (.indx 0x34)) &&
    decodesTo [0b10100111, 0x34] (.lax (.zp 0x34)) && decodesTo [0b10101111, 0x34, 0x12] (.lax (.abs 0x1234)) &&
    decodesTo [0b10110011, 0x34] (.lax (.indy 0x34)) && decodesTo [0b10110111, 0x34] (.lax (.zpy 0x34)) &&
    decodesTo [0b10111111, 0x34, 0x12] (.lax (.absy 0x1234))) = true := by decide
theorem test_decode_dcp : (decodesTo [0b11000011, 0x34] (.dcp (.indx 0x34)) &&
    decodesTo [0b11000111, 0x34] (.dcp (.zp 0x34)) && decodesTo [0b11001111, 0x34, 0x12] (.dcp (.abs 0x1234)) &&
    decodesTo [0b11010011, 0x34] (.dcp (.indy 0x34)) && decodesTo [0b11010111, 0x34] (.dcp (.zpx 0x34)) &&
    decodesTo [0b11011011, 0x34, 0x12] (.dcp (.absy 0x1234)) &&
    decodesTo [0b11011111, 0x34, 0x12] (.dcp (.absx 0x1234))) = true := by decide
theorem test_decode_isc : (decodesTo [0b11100011, 0x34] (.isc (.indx 0x34)) &&
    decodesTo [0b11100111, 0x34] (.isc (.zp 0x34)) && decodesTo [0b11101111, 0x34, 0x12] (.isc (.abs 0x1234)) &&
    decodesTo [0b11110011, 0x34] (.isc (.indy 0x34)) && decodesTo [0b11110111, 0x34] (.isc (.zpx 0x34)) &&
    decodesTo [0b11111011, 0x34, 0x12] (.isc (.absy 0x1234)) &&
    decodesTo [0b11111111, 0x34, 0x12] (.isc (.absx 0x1234))) = true := by decide
theorem test_decode_anc : (decodesTo [0b00001011, 0x34] (.anc 0x0B 0x34) &&
    decodesTo [0b00101011, 0x34] (.anc 0x2B 0x34)) = true := by decide
theorem test_decode_alr : (decodesTo [0b01001011, 0x34] (.alr 0x34)) = true := by decide
theorem test_decode_arr : (decodesTo [0b01101011, 0x34] (.arr 0x34)) = true := by decide
theorem test_decode_axs : (decodesTo [0b11001011, 0x34] (.axs 0x34)) = true := by decide
theorem test_decode_usbc : (decodesTo [0b11101011, 0x34] (.usbc 0x34)) = true := by decide
theorem test_decode_las : (decodesTo [0b10111011, 0x34, 0x12] (.las 0x1234)) = true := by decide
theorem test_decode_xaa : (decodesTo [0b10001011, 0x34] (.xaa 0x34)) = true := by decide
theorem test_decode_lxa : (decodesTo [0b10101011, 0x34] (.lxa 0x34)) = true := by decide
theorem test_decode_sha : (decodesTo [0b10010011, 0x34] (.sha (.indy 0x34)) &&
    decodesTo [0b10011111, 0x34, 0x12] (.sha (.absy 0x1234))) = true := by decide
theorem test_decode_shx : (decodesTo [0b10011110, 0x34, 0x12] (.shx 0x1234)) = true := by decide
theorem test_decode_shy : (decodesTo [0b10011100, 0x34, 0x12] (.shy 0x1234)) = true := by decide
theorem test_decode_tas : (decodesTo [0b10011011, 0x34, 0x12] (.tas 0x1234)) = true := by decide

theorem test_decode_cut_off : (decode [], decode [0xA9], decode [0x8D, 0x00]) =
    (.error .empty, .error .missingOperand, .error .missingOperand) := by rfl
/-- R111: of every `NOP` only `$EA` is documented; R115: 105 opcodes are undocumented. -/
theorem test_documented : (documented 0xEA && !documented 0x1A && documented 0xE9 && !documented 0xEB && !documented 0x02 &&
    ((List.range 256).countP fun n => !documented (BitVec.ofNat 8 n)) == 105) = true := by
  decide +kernel
theorem test_decodeTableWord : (decodeTableWord 24 0x10008D == some (.sta (.abs 0x1000)) &&
    decodeTableWord 8 0x8D == some (.sta (.abs 0)) && decodeTableWord 16 0x05A9 == some (.lda (.imm 0x05))) = true := by
  decide
theorem test_withFetchWord : ranTo (State.reset.withFetchWord 24 0x1234AD) (fun t => t.pc == 0x0003) = true := by decide

/-! ## One step of each instruction (95_test_vectors.md) -/

/-- V4, R131: absx crossed: +1 cycle. -/
theorem test_lda : ranTo ({ cpu with x := 0x01 } |> cell 0x0200 0x42 |> code [0xBD, 0xFF, 0x01]) (fun t =>
      t.a == 0x42 && t.pc == 0x8003 && t.p == ⟨false, false, true, false, false, false⟩ &&
      t.cyc == 12) = true := by decide
/-- V8, R131: indy pointer wraps, base $02F8 + $10 crossed. -/
theorem test_lda_2 :
    ranTo ({ cpu with y := 0x10 } |> cell 0x00FF 0xF8 |> cell 0x0000 0x02 |> cell 0x0308 0x5A |> code [0xB1, 0xFF]) (fun t =>
      t.a == 0x5A && t.pc == 0x8002 && t.p == ⟨false, false, true, false, false, false⟩ &&
      t.cyc == 13) = true := by decide
/-- V10, R132: zpy wraps: $FF+5 = $04. -/
theorem test_ldx : ranTo ({ cpu with y := 0x05 } |> cell 0x0004 0x81 |> code [0xB6, 0xFF]) (fun t =>
      t.x == 0x81 && t.pc == 0x8002 && t.p == ⟨false, false, true, false, false, true⟩ &&
      t.cyc == 11) = true := by decide
/-- V11, R132. -/
theorem test_ldx_2 : ranTo (cpu |> code [0xA2, 0xFF]) (fun t =>
      t.x == 0xFF && t.pc == 0x8002 && t.p == ⟨false, false, true, false, false, true⟩ &&
      t.cyc == 9) = true := by decide
/-- V12, R133. -/
theorem test_ldy : ranTo (cpu |> code [0xA0, 0x00]) (fun t =>
      t.pc == 0x8002 && t.p == ⟨false, true, true, false, false, false⟩ && t.cyc == 9) = true := by decide
/-- V14, R134: indy store: 6 cycles even when crossed. -/
theorem test_sta :
    ranTo ({ cpu with a := 0x11, y := 0xFF } |> cell 0x0010 0x01 |> cell 0x0011 0x03 |> code [0x91, 0x10]) (fun t =>
      t.pc == 0x8002 && t.p == ⟨false, false, true, false, false, false⟩ && t.peek 0x0400 == some 0x11 &&
      t.cyc == 13) = true := by decide
/-- V13, R134: §8 store: $1000 is cell $0000. -/
theorem test_sta_2 : ranTo ({ cpu with a := 0x05 } |> code [0x8D, 0x00, 0x10]) (fun t =>
      t.pc == 0x8003 && t.p == ⟨false, false, true, false, false, false⟩ && t.peek 0x0000 == some 0x05 &&
      t.cyc == 11) = true := by decide
/-- V16, R135: zpy store wraps to $0010. -/
theorem test_stx : ranTo ({ cpu with x := 0x33, y := 0x20 } |> code [0x96, 0xF0]) (fun t =>
      t.pc == 0x8002 && t.p == ⟨false, false, true, false, false, false⟩ && t.peek 0x0010 == some 0x33 &&
      t.cyc == 11) = true := by decide
/-- V17, R136. -/
theorem test_sty : ranTo ({ cpu with y := 0x07 } |> code [0x8C, 0x00, 0x02]) (fun t =>
      t.pc == 0x8003 && t.p == ⟨false, false, true, false, false, false⟩ && t.peek 0x0200 == some 0x07 &&
      t.cyc == 11) = true := by decide
/-- V18, R137. -/
theorem test_tax : ranTo ({ cpu with a := 0x80 } |> code [0xAA]) (fun t =>
      t.x == 0x80 && t.pc == 0x8001 && t.p == ⟨false, false, true, false, false, true⟩ &&
      t.cyc == 9) = true := by decide
/-- V19, R138. -/
theorem test_tay : ranTo ({ cpu with a := 0x00 } |> code [0xA8]) (fun t =>
      t.pc == 0x8001 && t.p == ⟨false, true, true, false, false, false⟩ && t.cyc == 9) = true := by decide
/-- V20, R139. -/
theorem test_txa : ranTo ({ cpu with x := 0x7F } |> code [0x8A]) (fun t =>
      t.a == 0x7F && t.pc == 0x8001 && t.p == ⟨false, false, true, false, false, false⟩ &&
      t.cyc == 9) = true := by decide
/-- V21, R140. -/
theorem test_tya : ranTo ({ cpu with y := 0xFF } |> code [0x98]) (fun t =>
      t.a == 0xFF && t.pc == 0x8001 && t.p == ⟨false, false, true, false, false, true⟩ &&
      t.cyc == 9) = true := by decide
/-- V22, R141: reset SP gives N=1. -/
theorem test_tsx : ranTo (cpu |> code [0xBA]) (fun t =>
      t.x == 0xFD && t.pc == 0x8001 && t.p == ⟨false, false, true, false, false, true⟩ &&
      t.cyc == 9) = true := by decide
/-- V23, R142: TXS writes no flag (Z stays 0). -/
theorem test_txs : ranTo ({ cpu with x := 0x00 } |> code [0x9A]) (fun t =>
      t.sp == 0x00 && t.pc == 0x8001 && t.p == ⟨false, false, true, false, false, false⟩ &&
      t.cyc == 9) = true := by decide
/-- V25, R143: push at SP=$00 writes $0100, SP wraps to $FF. -/
theorem test_pha : ranTo ({ cpu with a := 0x42, sp := 0x00 } |> code [0x48]) (fun t =>
      t.sp == 0xFF && t.pc == 0x8001 && t.p == ⟨false, false, true, false, false, false⟩ &&
      t.peek 0x0100 == some 0x42 && t.cyc == 10) = true := by decide
/-- V26, R144: reset flags push $34. -/
theorem test_php : ranTo (cpu |> code [0x08]) (fun t =>
      t.sp == 0xFC && t.pc == 0x8001 && t.p == ⟨false, false, true, false, false, false⟩ &&
      t.peek 0x01FD == some 0x34 && t.cyc == 10) = true := by decide
/-- V28, R145: pull at SP=$FF wraps to $00, reads $0100. -/
theorem test_pla : ranTo ({ cpu with sp := 0xFF } |> cell 0x0100 0x00 |> code [0x68]) (fun t =>
      t.sp == 0x00 && t.pc == 0x8001 && t.p == ⟨false, true, true, false, false, false⟩ &&
      t.cyc == 11) = true := by decide
/-- V27, R145. -/
theorem test_pla_2 : ranTo ({ cpu with sp := 0xFC } |> cell 0x01FD 0x80 |> code [0x68]) (fun t =>
      t.a == 0x80 && t.sp == 0xFD && t.pc == 0x8001 && t.p == ⟨false, false, true, false, false, true⟩ &&
      t.cyc == 11) = true := by decide
/-- V29, R146: bits 4,5 discarded. -/
theorem test_plp : ranTo ({ cpu with sp := 0xFC } |> cell 0x01FD 0xFF |> code [0x28]) (fun t =>
      t.sp == 0xFD && t.pc == 0x8001 && t.p == ⟨true, true, true, true, true, true⟩ &&
      t.cyc == 11) = true := by decide
/-- V30, R146: pulled $30 clears every flag. -/
theorem test_plp_2 :
    ranTo ({ cpu with sp := 0xFC, p := { Flags.reset with c := true, z := true } } |> cell 0x01FD 0x30 |> code [0x28]) (fun t =>
      t.sp == 0xFD && t.pc == 0x8001 && t.p == ⟨false, false, false, false, false, false⟩ &&
      t.cyc == 11) = true := by decide
/-- V34, R171: C and V. -/
theorem test_adc : ranTo ({ cpu with a := 0x80, p := { Flags.reset with c := false } } |> code [0x69, 0x80]) (fun t =>
      t.a == 0x00 && t.pc == 0x8002 && t.p == ⟨true, true, true, false, true, false⟩ &&
      t.cyc == 9) = true := by decide
/-- V38, R171: D=1: binary $0A, not $10. -/
theorem test_adc_2 :
    ranTo ({ cpu with a := 0x09, p := { Flags.reset with d := true } } |> code [0x69, 0x01]) (fun t =>
      t.a == 0x0A && t.pc == 0x8002 && t.p == ⟨false, false, true, true, false, false⟩ &&
      t.cyc == 9) = true := by decide
/-- V42, R172: signed overflow. -/
theorem test_sbc : ranTo ({ cpu with a := 0x80, p := { Flags.reset with c := true } } |> code [0xE9, 0x01]) (fun t =>
      t.a == 0x7F && t.pc == 0x8002 && t.p == ⟨true, false, true, false, true, false⟩ &&
      t.cyc == 9) = true := by decide
/-- V46, R172: D=1: binary $0F. -/
theorem test_sbc_2 :
    ranTo ({ cpu with a := 0x10, p := { Flags.reset with c := true, d := true } } |> code [0xE9, 0x01]) (fun t =>
      t.a == 0x0F && t.pc == 0x8002 && t.p == ⟨true, false, true, true, false, false⟩ &&
      t.cyc == 9) = true := by decide
/-- V48, R173: Z=1. -/
theorem test_and : ranTo ({ cpu with a := 0xF0 } |> code [0x29, 0x0F]) (fun t =>
      t.a == 0x00 && t.pc == 0x8002 && t.p == ⟨false, true, true, false, false, false⟩ &&
      t.cyc == 9) = true := by decide
/-- V49, R174. -/
theorem test_ora : ranTo ({ cpu with a := 0x01 } |> code [0x09, 0x80]) (fun t =>
      t.a == 0x81 && t.pc == 0x8002 && t.p == ⟨false, false, true, false, false, true⟩ &&
      t.cyc == 9) = true := by decide
/-- V52, R175: A^A = 0. -/
theorem test_eor : ranTo ({ cpu with a := 0x5A } |> code [0x49, 0x5A]) (fun t =>
      t.a == 0x00 && t.pc == 0x8002 && t.p == ⟨false, true, true, false, false, false⟩ &&
      t.cyc == 9) = true := by decide
/-- V53, R176: N, V from M; Z from A&M. -/
theorem test_bit : ranTo ({ cpu with a := 0x01 } |> cell 0x0010 0xC0 |> code [0x24, 0x10]) (fun t =>
      t.pc == 0x8002 && t.p == ⟨false, true, true, false, true, true⟩ && t.cyc == 10) = true := by decide
/-- V54, R176: clears N, V. -/
theorem test_bit_2 :
    ranTo ({ cpu with a := 0xFF, p := { Flags.reset with v := true, n := true } } |> cell 0x0200 0x01 |> code [0x2C, 0x00, 0x02]) (fun t =>
      t.pc == 0x8003 && t.p == ⟨false, false, true, false, false, false⟩ && t.cyc == 11) = true := by decide
/-- V57, R177: unsigned less: t=$FF. -/
theorem test_cmp : ranTo ({ cpu with a := 0x00 } |> code [0xC9, 0x01]) (fun t =>
      t.pc == 0x8002 && t.p == ⟨false, false, true, false, false, true⟩ && t.cyc == 9) = true := by decide
/-- V59, R177: V unchanged. -/
theorem test_cmp_2 :
    ranTo ({ cpu with a := 0x01, p := { Flags.reset with v := true } } |> code [0xC9, 0xFF]) (fun t =>
      t.pc == 0x8002 && t.p == ⟨false, false, true, false, true, false⟩ && t.cyc == 9) = true := by decide
/-- V60, R178. -/
theorem test_cpx : ranTo ({ cpu with x := 0x05 } |> code [0xE0, 0x05]) (fun t =>
      t.pc == 0x8002 && t.p == ⟨true, true, true, false, false, false⟩ && t.cyc == 9) = true := by decide
/-- V61, R179. -/
theorem test_cpy : ranTo ({ cpu with y := 0x02 } |> code [0xC0, 0x03]) (fun t =>
      t.pc == 0x8002 && t.p == ⟨false, false, true, false, false, true⟩ && t.cyc == 9) = true := by decide
/-- V62, R180: wrap to 0. -/
theorem test_inc : ranTo (cpu |> cell 0x0010 0xFF |> code [0xE6, 0x10]) (fun t =>
      t.pc == 0x8002 && t.p == ⟨false, true, true, false, false, false⟩ && t.peek 0x0010 == some 0x00 &&
      t.cyc == 12) = true := by decide
/-- V64, R180: absx 7 cycles, C kept. -/
theorem test_inc_2 :
    ranTo ({ cpu with x := 0x01, p := { Flags.reset with c := true } } |> cell 0x0300 0x10 |> code [0xFE, 0xFF, 0x02]) (fun t =>
      t.pc == 0x8003 && t.p == ⟨true, false, true, false, false, false⟩ && t.peek 0x0300 == some 0x11 &&
      t.cyc == 14) = true := by decide
/-- V66, R181: wrap to $FF. -/
theorem test_dec : ranTo (cpu |> cell 0x0010 0x00 |> code [0xC6, 0x10]) (fun t =>
      t.pc == 0x8002 && t.p == ⟨false, false, true, false, false, true⟩ && t.peek 0x0010 == some 0xFF &&
      t.cyc == 12) = true := by decide
/-- V68, R182. -/
theorem test_inx : ranTo ({ cpu with x := 0xFF } |> code [0xE8]) (fun t =>
      t.x == 0x00 && t.pc == 0x8001 && t.p == ⟨false, true, true, false, false, false⟩ &&
      t.cyc == 9) = true := by decide
/-- V69, R183. -/
theorem test_iny : ranTo ({ cpu with y := 0xFF } |> code [0xC8]) (fun t =>
      t.y == 0x00 && t.pc == 0x8001 && t.p == ⟨false, true, true, false, false, false⟩ &&
      t.cyc == 9) = true := by decide
/-- V70, R184. -/
theorem test_dex : ranTo ({ cpu with x := 0x01 } |> code [0xCA]) (fun t =>
      t.x == 0x00 && t.pc == 0x8001 && t.p == ⟨false, true, true, false, false, false⟩ &&
      t.cyc == 9) = true := by decide
/-- V71, R185. -/
theorem test_dey : ranTo ({ cpu with y := 0x00 } |> code [0x88]) (fun t =>
      t.y == 0xFF && t.pc == 0x8001 && t.p == ⟨false, false, true, false, false, true⟩ &&
      t.cyc == 9) = true := by decide
/-- V72, R186. -/
theorem test_asl : ranTo ({ cpu with a := 0x81 } |> code [0x0A]) (fun t =>
      t.a == 0x02 && t.pc == 0x8001 && t.p == ⟨true, false, true, false, false, false⟩ &&
      t.cyc == 9) = true := by decide
/-- V74, R186. -/
theorem test_asl_2 : ranTo (cpu |> cell 0x0010 0x40 |> code [0x06, 0x10]) (fun t =>
      t.pc == 0x8002 && t.p == ⟨false, false, true, false, false, true⟩ && t.peek 0x0010 == some 0x80 &&
      t.cyc == 12) = true := by decide
/-- V76, R187: C=1, Z=1. -/
theorem test_lsr : ranTo ({ cpu with a := 0x01 } |> code [0x4A]) (fun t =>
      t.a == 0x00 && t.pc == 0x8001 && t.p == ⟨true, true, true, false, false, false⟩ &&
      t.cyc == 9) = true := by decide
/-- V75, R187. -/
theorem test_lsr_2 : ranTo (cpu |> cell 0x0010 0x03 |> code [0x46, 0x10]) (fun t =>
      t.pc == 0x8002 && t.p == ⟨true, false, true, false, false, false⟩ && t.peek 0x0010 == some 0x01 &&
      t.cyc == 12) = true := by decide
/-- V77, R188. -/
theorem test_rol : ranTo ({ cpu with a := 0x40, p := { Flags.reset with c := true } } |> code [0x2A]) (fun t =>
      t.a == 0x81 && t.pc == 0x8001 && t.p == ⟨false, false, true, false, false, true⟩ &&
      t.cyc == 9) = true := by decide
/-- V78, R188: C=1, Z=1. -/
theorem test_rol_2 : ranTo ({ cpu with a := 0x80, p := { Flags.reset with c := false } } |> code [0x2A]) (fun t =>
      t.a == 0x00 && t.pc == 0x8001 && t.p == ⟨true, true, true, false, false, false⟩ &&
      t.cyc == 9) = true := by decide
/-- V79, R189. -/
theorem test_ror : ranTo ({ cpu with a := 0x02, p := { Flags.reset with c := true } } |> code [0x6A]) (fun t =>
      t.a == 0x81 && t.pc == 0x8001 && t.p == ⟨false, false, true, false, false, true⟩ &&
      t.cyc == 9) = true := by decide
/-- V81, R189: old C into bit 7. -/
theorem test_ror_2 :
    ranTo ({ cpu with p := { Flags.reset with c := true } } |> cell 0x0200 0x00 |> code [0x6E, 0x00, 0x02]) (fun t =>
      t.pc == 0x8003 && t.p == ⟨false, false, true, false, false, true⟩ && t.peek 0x0200 == some 0x80 &&
      t.cyc == 13) = true := by decide
/-- V83, R211: indirect page bug: high byte from $1000. -/
theorem test_jmp :
    ranTo (cpu |> cell 0x10FF 0x34 |> cell 0x1000 0x12 |> cell 0x1100 0x56 |> code [0x6C, 0xFF, 0x10]) (fun t =>
      t.pc == 0x1234 && t.p == ⟨false, false, true, false, false, false⟩ && t.cyc == 12) = true := by decide
/-- V84, R211: indirect, no page wrap. -/
theorem test_jmp_2 : ranTo (cpu |> cell 0x0120 0x78 |> cell 0x0121 0x56 |> code [0x6C, 0x20, 0x01]) (fun t =>
      t.pc == 0x5678 && t.p == ⟨false, false, true, false, false, false⟩ && t.cyc == 12) = true := by decide
/-- V85, R212. -/
theorem test_jsr : ranTo (cpu |> code [0x20, 0x00, 0x90]) (fun t =>
      t.sp == 0xFB && t.pc == 0x9000 && t.p == ⟨false, false, true, false, false, false⟩ &&
      t.peek 0x01FC == some 0x02 && t.peek 0x01FD == some 0x80 && t.cyc == 13) = true := by decide
/-- V87, R213: pulled $FFFF returns to $0000. -/
theorem test_rts : ranTo ({ cpu with sp := 0xFB } |> cell 0x01FC 0xFF |> cell 0x01FD 0xFF |> code [0x60]) (fun t =>
      t.sp == 0xFD && t.pc == 0x0000 && t.p == ⟨false, false, true, false, false, false⟩ &&
      t.cyc == 13) = true := by decide
/-- V88, R214. -/
theorem test_rti :
    ranTo ({ cpu with sp := 0xFA } |> cell 0x01FB 0xA3 |> cell 0x01FC 0x00 |> cell 0x01FD 0xC0 |> code [0x40]) (fun t =>
      t.sp == 0xFD && t.pc == 0xC000 && t.p == ⟨true, true, false, false, false, true⟩ &&
      t.cyc == 13) = true := by decide
/-- V89, R215: B=1 in pushed byte; taken with I=0. -/
theorem test_brk :
    ranTo ({ cpu with p := { Flags.reset with i := false } } |> cell 0xFFFE 0x00 |> cell 0xFFFF 0x90 |> code [0x00, 0xEA]) (fun t =>
      t.sp == 0xFA && t.pc == 0x9000 && t.p == ⟨false, false, true, false, false, false⟩ &&
      t.peek 0x01FB == some 0x30 && t.peek 0x01FC == some 0x02 && t.peek 0x01FD == some 0x80 &&
      t.cyc == 14) = true := by decide
/-- V90, R215: taken with I=1 as well. -/
theorem test_brk_2 :
    ranTo ({ cpu with p := { Flags.reset with c := true, i := true, n := true } } |> cell 0xFFFE 0x00 |> cell 0xFFFF 0x90 |> code [0x00, 0xEA]) (fun t =>
      t.sp == 0xFA && t.pc == 0x9000 && t.p == ⟨true, false, true, false, false, true⟩ &&
      t.peek 0x01FB == some 0xB5 && t.peek 0x01FC == some 0x02 && t.peek 0x01FD == some 0x80 &&
      t.cyc == 14) = true := by decide
/-- V91, R217: taken. -/
theorem test_bpl : ranTo (cpu |> code [0x10, 0x05]) (fun t =>
      t.pc == 0x8007 && t.p == ⟨false, false, true, false, false, false⟩ && t.cyc == 10) = true := by decide
/-- V92, R218: not taken. -/
theorem test_bmi : ranTo (cpu |> code [0x30, 0x05]) (fun t =>
      t.pc == 0x8002 && t.p == ⟨false, false, true, false, false, false⟩ && t.cyc == 9) = true := by decide
/-- V93, R219: taken, crossed. -/
theorem test_bvc : ranTo ({ cpu with pc := 0x80F0 } |> code [0x50, 0x20]) (fun t =>
      t.pc == 0x8112 && t.p == ⟨false, false, true, false, false, false⟩ && t.cyc == 11) = true := by decide
/-- V94, R220: to itself. -/
theorem test_bvs : ranTo ({ cpu with p := { Flags.reset with v := true } } |> code [0x70, 0xFE]) (fun t =>
      t.pc == 0x8000 && t.p == ⟨false, false, true, false, true, false⟩ && t.cyc == 10) = true := by decide
/-- V95, R221: back, crossed. -/
theorem test_bcc : ranTo ({ cpu with pc := 0x8010 } |> code [0x90, 0x80]) (fun t =>
      t.pc == 0x7F92 && t.p == ⟨false, false, true, false, false, false⟩ && t.cyc == 11) = true := by decide
/-- V96, R222. -/
theorem test_bcs : ranTo ({ cpu with p := { Flags.reset with c := true } } |> code [0xB0, 0x7F]) (fun t =>
      t.pc == 0x8081 && t.p == ⟨true, false, true, false, false, false⟩ && t.cyc == 10) = true := by decide
/-- V97, R223. -/
theorem test_bne : ranTo ({ cpu with pc := 0x8005 } |> code [0xD0, 0xFB]) (fun t =>
      t.pc == 0x8002 && t.p == ⟨false, false, true, false, false, false⟩ && t.cyc == 10) = true := by decide
/-- V99, R224: wraps past $FFFF. -/
theorem test_beq :
    ranTo ({ cpu with pc := 0xFFF0, p := { Flags.reset with z := true } } |> code [0xF0, 0x10]) (fun t =>
      t.pc == 0x0002 && t.p == ⟨false, true, true, false, false, false⟩ && t.cyc == 11) = true := by decide
/-- V100, R224: not taken. -/
theorem test_beq_2 : ranTo ({ cpu with p := { Flags.reset with z := false } } |> code [0xF0, 0x10]) (fun t =>
      t.pc == 0x8002 && t.p == ⟨false, false, true, false, false, false⟩ && t.cyc == 9) = true := by decide
/-- V101, R225. -/
theorem test_clc : ranTo ({ cpu with p := { Flags.reset with c := true } } |> code [0x18]) (fun t =>
      t.pc == 0x8001 && t.p == ⟨false, false, true, false, false, false⟩ && t.cyc == 9) = true := by decide
/-- V102, R226. -/
theorem test_sec : ranTo (cpu |> code [0x38]) (fun t =>
      t.pc == 0x8001 && t.p == ⟨true, false, true, false, false, false⟩ && t.cyc == 9) = true := by decide
/-- V103, R227. -/
theorem test_cli : ranTo (cpu |> code [0x58]) (fun t =>
      t.pc == 0x8001 && t.p == ⟨false, false, false, false, false, false⟩ && t.cyc == 9) = true := by decide
/-- V104, R228. -/
theorem test_sei : ranTo ({ cpu with p := { Flags.reset with i := false } } |> code [0x78]) (fun t =>
      t.pc == 0x8001 && t.p == ⟨false, false, true, false, false, false⟩ && t.cyc == 9) = true := by decide
/-- V105, R229. -/
theorem test_cld : ranTo ({ cpu with p := { Flags.reset with d := true } } |> code [0xD8]) (fun t =>
      t.pc == 0x8001 && t.p == ⟨false, false, true, false, false, false⟩ && t.cyc == 9) = true := by decide
/-- R230: `SED` sets `D`, of which the next push shows bit 3 (V106). -/
theorem test_sed : ranTo (cpu |> code [0xF8]) (fun t =>
      t.pc == 0x8001 && t.p == ⟨false, false, true, true, false, false⟩ && t.cyc == 9) = true := by decide
/-- V107, R231. -/
theorem test_clv : ranTo ({ cpu with p := { Flags.reset with v := true } } |> code [0xB8]) (fun t =>
      t.pc == 0x8001 && t.p == ⟨false, false, true, false, false, false⟩ && t.cyc == 9) = true := by decide
/-- V108, R232. -/
theorem test_nop : ranTo (cpu |> code [0xEA]) (fun t =>
      t.pc == 0x8001 && t.p == ⟨false, false, true, false, false, false⟩ && t.cyc == 9) = true := by decide
/-- V109, R250: jam, then Halted. -/
theorem test_jam : ranTo (cpu |> code [0x02]) (fun t =>
      t.pc == 0x8001 && t.p == ⟨false, false, true, false, false, false⟩ && t.halted &&
      t.cyc == 9) = true := by decide
/-- V110, R251. -/
theorem test_nopImp : ranTo (cpu |> code [0x1A]) (fun t =>
      t.pc == 0x8001 && t.p == ⟨false, false, true, false, false, false⟩ && t.cyc == 9) = true := by decide
/-- V112, R252: not BIT: Z unchanged. -/
theorem test_nopImm : ranTo (cpu |> code [0x89, 0x00]) (fun t =>
      t.pc == 0x8002 && t.p == ⟨false, false, true, false, false, false⟩ && t.cyc == 9) = true := by decide
/-- V113, R253: absx crossed: 5 cycles. -/
theorem test_nopRead : ranTo ({ cpu with x := 0x01 } |> code [0x1C, 0xFF, 0x80]) (fun t =>
      t.pc == 0x8003 && t.p == ⟨false, false, true, false, false, false⟩ && t.cyc == 12) = true := by decide
/-- V115, R254. -/
theorem test_slo : ranTo ({ cpu with a := 0x01 } |> cell 0x0010 0x81 |> code [0x07, 0x10]) (fun t =>
      t.a == 0x03 && t.pc == 0x8002 && t.p == ⟨true, false, true, false, false, false⟩ &&
      t.peek 0x0010 == some 0x02 && t.cyc == 12) = true := by decide
/-- V116, R255. -/
theorem test_rla :
    ranTo ({ cpu with a := 0xFF, p := { Flags.reset with c := true } } |> cell 0x0010 0x80 |> code [0x27, 0x10]) (fun t =>
      t.a == 0x01 && t.pc == 0x8002 && t.p == ⟨true, false, true, false, false, false⟩ &&
      t.peek 0x0010 == some 0x01 && t.cyc == 12) = true := by decide
/-- V117, R256. -/
theorem test_sre : ranTo ({ cpu with a := 0xFF } |> cell 0x0010 0x03 |> code [0x47, 0x10]) (fun t =>
      t.a == 0xFE && t.pc == 0x8002 && t.p == ⟨true, false, true, false, false, true⟩ &&
      t.peek 0x0010 == some 0x01 && t.cyc == 12) = true := by decide
/-- V118, R257. -/
theorem test_rra : ranTo ({ cpu with a := 0x10 } |> cell 0x0010 0x03 |> code [0x67, 0x10]) (fun t =>
      t.a == 0x12 && t.pc == 0x8002 && t.p == ⟨false, false, true, false, false, false⟩ &&
      t.peek 0x0010 == some 0x01 && t.cyc == 12) = true := by decide
/-- V119, R257: rotate C=0 then 7F+81: C=1. -/
theorem test_rra_2 :
    ranTo ({ cpu with a := 0x7F, p := { Flags.reset with c := true } } |> cell 0x0010 0x02 |> code [0x67, 0x10]) (fun t =>
      t.a == 0x00 && t.pc == 0x8002 && t.p == ⟨true, true, true, false, false, false⟩ &&
      t.peek 0x0010 == some 0x81 && t.cyc == 12) = true := by decide
/-- V120, R258. -/
theorem test_sax : ranTo ({ cpu with a := 0xF0, x := 0x3C } |> code [0x87, 0x10]) (fun t =>
      t.pc == 0x8002 && t.p == ⟨false, false, true, false, false, false⟩ && t.peek 0x0010 == some 0x30 &&
      t.cyc == 10) = true := by decide
/-- V122, R259: absy crossed: 5 cycles. -/
theorem test_lax : ranTo ({ cpu with y := 0x01 } |> cell 0x0300 0x00 |> code [0xBF, 0xFF, 0x02]) (fun t =>
      t.pc == 0x8003 && t.p == ⟨false, true, true, false, false, false⟩ && t.cyc == 12) = true := by decide
/-- V121, R259. -/
theorem test_lax_2 : ranTo (cpu |> cell 0x0010 0x80 |> code [0xA7, 0x10]) (fun t =>
      t.a == 0x80 && t.x == 0x80 && t.pc == 0x8002 && t.p == ⟨false, false, true, false, false, true⟩ &&
      t.cyc == 10) = true := by decide
/-- V123, R260. -/
theorem test_dcp : ranTo ({ cpu with a := 0x05 } |> cell 0x0010 0x06 |> code [0xC7, 0x10]) (fun t =>
      t.pc == 0x8002 && t.p == ⟨true, true, true, false, false, false⟩ && t.peek 0x0010 == some 0x05 &&
      t.cyc == 12) = true := by decide
/-- V124, R260: $00 becomes $FF: C=0. -/
theorem test_dcp_2 : ranTo ({ cpu with a := 0x05 } |> cell 0x0010 0x00 |> code [0xC7, 0x10]) (fun t =>
      t.pc == 0x8002 && t.p == ⟨false, false, true, false, false, false⟩ && t.peek 0x0010 == some 0xFF &&
      t.cyc == 12) = true := by decide
/-- V125, R261. -/
theorem test_isc :
    ranTo ({ cpu with a := 0x10, p := { Flags.reset with c := true } } |> cell 0x0010 0x04 |> code [0xE7, 0x10]) (fun t =>
      t.a == 0x0B && t.pc == 0x8002 && t.p == ⟨true, false, true, false, false, false⟩ &&
      t.peek 0x0010 == some 0x05 && t.cyc == 12) = true := by decide
/-- V126, R261: $FF becomes $00. -/
theorem test_isc_2 :
    ranTo ({ cpu with a := 0x10, p := { Flags.reset with c := true } } |> cell 0x0010 0xFF |> code [0xE7, 0x10]) (fun t =>
      t.pc == 0x8002 && t.p == ⟨true, false, true, false, false, false⟩ && t.peek 0x0010 == some 0x00 &&
      t.cyc == 12) = true := by decide
/-- V127, R262. -/
theorem test_anc : ranTo ({ cpu with a := 0xFF } |> code [0x0B, 0x80]) (fun t =>
      t.a == 0x80 && t.pc == 0x8002 && t.p == ⟨true, false, true, false, false, true⟩ &&
      t.cyc == 9) = true := by decide
/-- V128, R262: C cleared from bit 7 = 0. -/
theorem test_anc_2 :
    ranTo ({ cpu with a := 0xFF, p := { Flags.reset with c := true } } |> code [0x2B, 0x7F]) (fun t =>
      t.a == 0x7F && t.pc == 0x8002 && t.p == ⟨false, false, true, false, false, false⟩ &&
      t.cyc == 9) = true := by decide
/-- V129, R263. -/
theorem test_alr : ranTo ({ cpu with a := 0xFF } |> code [0x4B, 0x03]) (fun t =>
      t.a == 0x01 && t.pc == 0x8002 && t.p == ⟨true, false, true, false, false, false⟩ &&
      t.cyc == 9) = true := by decide
/-- V131, R264: r=$20: C=0, V=1. -/
theorem test_arr : ranTo ({ cpu with a := 0xFF, p := { Flags.reset with c := false } } |> code [0x6B, 0x40]) (fun t =>
      t.a == 0x20 && t.pc == 0x8002 && t.p == ⟨false, false, true, false, true, false⟩ &&
      t.cyc == 9) = true := by decide
/-- V132, R264: r=$40: C=1, V=1. -/
theorem test_arr_2 :
    ranTo ({ cpu with a := 0xFF, p := { Flags.reset with c := false } } |> code [0x6B, 0x80]) (fun t =>
      t.a == 0x40 && t.pc == 0x8002 && t.p == ⟨true, false, true, false, true, false⟩ &&
      t.cyc == 9) = true := by decide
/-- V134, R265. -/
theorem test_axs : ranTo ({ cpu with a := 0xFF, x := 0x0F } |> code [0xCB, 0x01]) (fun t =>
      t.x == 0x0E && t.pc == 0x8002 && t.p == ⟨true, false, true, false, false, false⟩ &&
      t.cyc == 9) = true := by decide
/-- V135, R265: borrow: C=0; incoming C unused. -/
theorem test_axs_2 :
    ranTo ({ cpu with a := 0x0F, x := 0xFF, p := { Flags.reset with c := true } } |> code [0xCB, 0x10]) (fun t =>
      t.pc == 0x8002 && t.p == ⟨false, false, true, false, false, true⟩ && t.cyc == 9) = true := by decide
/-- V136, R266. -/
theorem test_usbc : ranTo ({ cpu with a := 0x10, p := { Flags.reset with c := true } } |> code [0xEB, 0x01]) (fun t =>
      t.a == 0x0F && t.pc == 0x8002 && t.p == ⟨true, false, true, false, false, false⟩ &&
      t.cyc == 9) = true := by decide
/-- V137, R267. -/
theorem test_las : ranTo (cpu |> cell 0x0200 0xF0 |> code [0xBB, 0x00, 0x02]) (fun t =>
      t.a == 0xF0 && t.x == 0xF0 && t.sp == 0xF0 && t.pc == 0x8003 &&
      t.p == ⟨false, false, true, false, false, true⟩ && t.cyc == 11) = true := by decide
/-- V138, R268: any `XAA_MAGIC`. -/
theorem test_xaa : exec (.xaa 0xFF) { cpu with x := 0x00 } =
    .next { cpu with x := 0x00, p := { Flags.reset with z := true }, stepCycles := 2 } := by
  simp [exec, execXaa, loadA, setNZ, State.setA, State.setP, State.addCycles, cpu, State.reset, Flags.reset]
/-- V139, R269: any `LXA_MAGIC`. -/
theorem test_lxa : exec (.lxa 0x00) cpu = .next { cpu with p := { Flags.reset with z := true }, stepCycles := 2 } := by
  simp [exec, execLxa, setNZ, State.setA, State.setX, State.setP, State.addCycles, cpu, State.reset, Flags.reset]
/-- V140, R271. -/
theorem test_sha : ranTo ({ cpu with a := 0xFF, x := 0xFF, y := 0x01 } |> code [0x9F, 0x00, 0x02]) (fun t =>
      t.pc == 0x8003 && t.p == ⟨false, false, true, false, false, false⟩ && t.peek 0x0201 == some 0x03 &&
      t.cyc == 12) = true := by decide
/-- V141, R271: indy not crossed. -/
theorem test_sha_2 :
    ranTo ({ cpu with a := 0xFF, x := 0xFF, y := 0x04 } |> cell 0x0010 0x00 |> cell 0x0011 0x03 |> code [0x93, 0x10]) (fun t =>
      t.pc == 0x8002 && t.p == ⟨false, false, true, false, false, false⟩ && t.peek 0x0304 == some 0x04 &&
      t.cyc == 13) = true := by decide
/-- V142, R272. -/
theorem test_shx : ranTo ({ cpu with x := 0xFF, y := 0x02 } |> code [0x9E, 0x00, 0x06]) (fun t =>
      t.pc == 0x8003 && t.p == ⟨false, false, true, false, false, false⟩ && t.peek 0x0602 == some 0x07 &&
      t.cyc == 12) = true := by decide
/-- V143, R272: crossed, SH_UNSTABLE=formula: ea=$0108. -/
theorem test_shx_2 : ranTo ({ cpu with x := 0x05, y := 0x10 } |> code [0x9E, 0xF8, 0x02]) (fun t =>
      t.pc == 0x8003 && t.p == ⟨false, false, true, false, false, false⟩ && t.peek 0x0108 == some 0x01 &&
      t.cyc == 12) = true := by decide
/-- V144, R273. -/
theorem test_shy : ranTo ({ cpu with y := 0x01 } |> code [0x9C, 0x00, 0x04]) (fun t =>
      t.pc == 0x8003 && t.p == ⟨false, false, true, false, false, false⟩ && t.peek 0x0400 == some 0x01 &&
      t.cyc == 12) = true := by decide
/-- V145, R273: crossed, formula. -/
theorem test_shy_2 : ranTo ({ cpu with x := 0xFF, y := 0xFF } |> code [0x9C, 0x01, 0x02]) (fun t =>
      t.pc == 0x8003 && t.p == ⟨false, false, true, false, false, false⟩ && t.peek 0x0300 == some 0x03 &&
      t.cyc == 12) = true := by decide
/-- V146, R274. -/
theorem test_tas : ranTo ({ cpu with a := 0xF0, x := 0x3F } |> code [0x9B, 0x00, 0x02]) (fun t =>
      t.sp == 0x30 && t.pc == 0x8003 && t.p == ⟨false, false, true, false, false, false⟩ &&
      t.cyc == 12) = true := by decide

/-! ## Interrupts, refusals, reset and devices -/

/-- The vectors and handlers of the scenarios: NMI at `$A000`, IRQ at `$9000`, each a `NOP` and an `RTI`. -/
def withHandlers (s : State) : State :=
  placeBytes 0xFFFA [0x00, 0xA0, 0x00, 0x80, 0x00, 0x90] (placeBytes 0x9000 [0xEA, 0x40] (placeBytes 0xA000 [0xEA, 0x40] s))

/-- A pending IRQ. -/
def withIrq (s : State) : State := { s with irqLine := true, apu := { s.apu with frameIrq := true } }

/-- `I` clear. -/
def unmasked (s : State) : State := { s with p := { s.p with i := false } }

/-- `IRQ_POLL_I_SOURCE = delayed`. -/
def delayedParams : Params := { params with irqPollISource := .delayed }

/-- `SH_UNSTABLE = refuse`. -/
def refuseParams : Params := { params with shUnstable := .refuse }

/-- S1: an IRQ is taken before the instruction. -/
theorem test_irq_taken : ranTo (cpu |> unmasked |> withIrq |> withHandlers |> code [0xEA]) (fun t =>
      t.peek 0x01FD == some 0x80 && t.peek 0x01FC == some 0x00 && t.peek 0x01FB == some 0x20 && t.p.i && t.sp == 0xFA &&
      t.pc == 0x9001 && t.cyc == 16) = true := by decide
/-- S2: a masked IRQ is not taken. -/
theorem test_irq_masked : ranTo (cpu |> withIrq |> withHandlers |> code [0xEA]) (fun t =>
      t.pc == 0x8001 && t.cyc == 9) = true := by decide
/-- S3, R310: an NMI from `PC = $8123` with `C` set. -/
theorem test_nmi_taken : ranTo ({ cpu with pc := 0x8123, nmiPending := true, p := { Flags.reset with c := true, i := false } }
      |> withHandlers) (fun t =>
      t.peek 0x01FD == some 0x81 && t.peek 0x01FC == some 0x23 && t.peek 0x01FB == some 0x21 && t.p.i &&
      !t.nmiPending && t.pc == 0xA001) = true := by decide
/-- S4: the NMI goes first. -/
theorem test_nmi_first : ranTo ({ cpu with nmiPending := true } |> unmasked |> withIrq |> withHandlers |> code [0xEA])
      (fun t => t.pc == 0xA001 && t.irqLine && t.cyc == 16) = true := by decide
/-- S6, second step: under `delayed` the poll still sees the `I` from before `CLI`. -/
theorem test_delayed_cli : ranWith delayedParams ({ cpu with iPoll := true } |> unmasked |> withIrq |> withHandlers |>
      code [0xEA]) (fun t => t.pc == 0x8001 && !t.iPoll) = true := by decide
/-- S8, second step: under `delayed` the IRQ is taken after `SEI`, and the pushed `I` is 1. -/
theorem test_delayed_sei : ranWith delayedParams ({ cpu with pc := 0x8001, iPoll := false } |> withIrq |> withHandlers)
      (fun t => t.pc == 0x9001 && t.peek 0x01FB == some 0x24) = true := by decide
/-- S11: a pending NMI comes before a `BRK`, which is not fetched. -/
theorem test_nmi_before_brk : ranTo ({ cpu with nmiPending := true } |> withHandlers |> code [0x00, 0xEA]) (fun t =>
      t.pc == 0xA001 && t.peek 0x01FB == some 0x24 && t.cyc == 16) = true := by decide
/-- S12: a halted CPU does nothing, even with an NMI pending. -/
theorem test_halted : stepReport params { cpu with halted := true, nmiPending := true } =
    (.halted, { cpu with halted := true, nmiPending := true }) := by decide
/-- S13: the dummy read of `STA $2000,X` would be at `$2007`. -/
theorem test_refused_dummy : refusedWith params ({ cpu with x := 0x07 } |> code [0x9D, 0x00, 0x20])
      .dummyAccessSideEffect = true := by decide
/-- S14: a `JSR` that overwrites its own operand. -/
theorem test_refused_jsr : refusedWith params ({ cpu with pc := 0x01FB } |> code [0x20, 0x00, 0x90])
      .jsrOperandOverwritten = true := by decide
/-- S15: the crossed `SHX` of V143 is refused under `SH_UNSTABLE = refuse`. -/
theorem test_refused_unstable : refusedWith refuseParams ({ cpu with x := 0x05, y := 0x10 } |> code [0x9E, 0xF8, 0x02])
      .unstableOpcode = true := by decide
/-- S15: the uncrossed `SHX` of V142 runs. -/
theorem test_unstable_runs : ranWith refuseParams ({ cpu with x := 0xFF, y := 0x02 } |> code [0x9E, 0x00, 0x06])
      (fun t => t.peek 0x0602 == some 0x07) = true := by decide
/-- S13: the step after a refused one. -/
theorem test_refused_sticky : stepReport params { cpu with refused := true } =
    (.refused .sticky, { cpu with refused := true }) := by decide
/-- R381: an interrupt entry reads `PC`; at `$2002` that has a side effect. -/
theorem test_refused_entry : refusedWith params { cpu with pc := 0x2002, nmiPending := true }
      .dummyAccessSideEffect = true := by decide
/-- S16, second step: the copy of page `$02`, and the stall of 514 cycles after an odd cycle. -/
theorem test_sprite_dma : (let t := spriteDma ({ cpu with oamDma := some 0x02, cyc := 9, stepCycles := 4 } |>
        cell 0x0200 0x5A |> cell 0x02FF 0xA5)
      t.ppu.oam == [(0, 0x5A), (255, 0xA5)] && t.stall == 514) = true := by decide +kernel
/-- S17, second step: from an even cycle it stalls 513 cycles. -/
theorem test_sprite_dma_even : ranTo ({ cpu with a := 0x02, cyc := 10 } |> code [0x8D, 0x14, 0x40])
      (fun t => t.cyc == 527) = true := by decide +kernel
/-- S18: reset, with the vector `$C000`. -/
theorem test_reset : (let t := resetWith params (placeBytes 0xFFFC [0x00, 0xC0]
        { cpu with a := 1, halted := true, refused := true, nmiPending := true, cyc := 99, ram := [(1, 2)] })
      t.pc == 0xC000 && t.a == 0 && t.sp == 0xFD && t.p == Flags.reset && t.cyc == 7 && !t.halted && !t.refused &&
      !t.nmiPending && t.ram == [(1, 2)]) = true := by decide
/-- S19: `ENTRY_PC` instead of the vector. -/
theorem test_reset_entry : (resetWith { params with entryPc := some 0xC000 } (placeBytes 0xFFFC [0x00, 0x80] cpu)).pc =
    0xC000 := by decide
/-- `State.reset` is a reset state: reset leaves it as it is. -/
theorem test_reset_reset : resetWith params State.reset = State.reset := by decide
/-- R334: the work of (241, 1) sets the blank flag, that of (261, 1) clears it; R335: an odd frame ends at dot 339. -/
theorem test_dots : (({ Ppu.reset with scanline := 241, dot := 1 } : Ppu).tick.blank &&
      !({ Ppu.reset with scanline := 261, dot := 1, blank := true } : Ppu).tick.blank &&
      ({ Ppu.reset with scanline := 261, dot := 339, frame := 1 } : Ppu).tick.scanline == 0 &&
      ({ Ppu.reset with scanline := 261, dot := 339, frame := 2 } : Ppu).tick.dot == 340) = true := by decide
/-- R374, R333: the first status read after reset gives 0 in the three flags. -/
theorem test_status_after_reset : (busRead 0x2002 cpu).1 = statusByte false false false (Config.openBus 0) ∧
    ∀ low : Byte, (statusByte false false false low).toNat < 32 :=
  ⟨rfl, by decide⟩
/-- S20: the blank flag with the NMI output enabled latches an NMI in that cycle. -/
theorem test_blank_nmi : ranTo ({ cpu with ppu := { Ppu.reset with scanline := 241, dot := 0, ctrl := 0x80 } } |>
      code [0xEA]) (fun t => t.nmiPending && t.nmiPrev && t.ppu.blank && t.ppu.dot == 6) = true := by decide
/-- S21: the first four of the nine reads of buttons `%00001001`, bit 0. -/
theorem test_controller : (let s := busWrite 0x4016 0 (busWrite 0x4016 1 (cpu.setButtons 0x09))
      s.pad.bit && !(padReads 1 s).pad.bit && !(padReads 2 s).pad.bit && (padReads 3 s).pad.bit &&
      !(padReads 7 s).pad.bit && (padReads 8 s).pad.bit) = true := by decide
/-- R346: five serial writes of `%01010` to `$8000` commit `control`. -/
theorem test_mapper : (let c : Cart := { Cart.blank with mapper := .shiftRegister }
      let d := ((((c.mapperWrite 0x8000 0).mapperWrite 0x8000 1).mapperWrite 0x8000 0).mapperWrite 0x8000 1).mapperWrite
        0x8000 0
      d.control == 0x0A && d.count == 0 && d.mirroringMode == .vertical && d.prgMode == 2 &&
      (d.mapperWrite 0x8000 0x80).control == 0x0E) = true := by decide
/-- S27 (its body short), S28, S29, S30. -/
theorem test_load_failures : (
      loadFails ([0x4E, 0x45, 0x53, 0x1A, 0x02, 0x00, 0x10, 0x00] ++ [0, 0, 0, 0, 0, 0, 0, 0]) .truncatedBody &&
      loadFails ([0x4E, 0x45, 0x53, 0x1B, 0x01, 0x01, 0x00, 0x00] ++ [0, 0, 0, 0, 0, 0, 0, 0]) .badMagic &&
      loadFails ([0x4E, 0x45, 0x53, 0x1A, 0x01, 0x01, 0x40, 0x00] ++ [0, 0, 0, 0, 0, 0, 0, 0]) .unsupportedMapper &&
      loadFails ([0x4E, 0x45, 0x53, 0x1A, 0x00, 0x01, 0x00, 0x00] ++ [0, 0, 0, 0, 0, 0, 0, 0]) .noProgramBanks) = true := by
  decide
/-- S24, S25, S26: the header's mirroring. -/
theorem test_header_mirroring : (headerMirroring 0x00 == .horizontal && headerMirroring 0x01 == .vertical &&
      headerMirroring 0x19 == .fourScreen) = true := by decide
/-- R336: the 4-step sequence takes about 29,830 CPU cycles, so not yet 28,998; the 5-step one raises no interrupt. -/
theorem test_frame_interrupt : (!({ Apu.reset with frameTicks := 14498 } : Apu).tick.frameIrq &&
      !({ Apu.reset with frameTicks := 15330, fiveStep := true } : Apu).tick.frameIrq) = true := by decide

/-! ## Witnesses: for each statement with hypotheses, values that meet them -/

theorem witness_DecodeEncodeRoundTrip : (Instr.adc (.indy 0xFF)).wellFormed = true := by decide

theorem witness_EncodeDecodeRoundTrip : decode [0x71, 0x20, 0xFF] = .ok (.adc (.indy 0x20), [0xFF]) := by rfl

/-- Every length, at it and one byte short, and no byte at all. -/
theorem witness_DecoderTotal : decode [0xEA, 0, 0] = .ok (.nop, [0, 0]) ∧ decode [0xA9, 0, 0] = .ok (.lda (.imm 0), [0]) ∧
    decode [0x8D, 0, 0] = .ok (.sta (.abs 0), []) ∧ decode [0xEA] = .ok (.nop, []) ∧
    decode [0xA9, 0xFF] = .ok (.lda (.imm 0xFF), []) ∧ decode [0x8D, 0xFF, 0xFF] = .ok (.sta (.abs 0xFFFF), []) ∧
    decode [] = .error .empty ∧ decode [0xA9] = .error .missingOperand ∧ decode [0x8D, 0x00] = .error .missingOperand :=
  ⟨by rfl, by rfl, by rfl, by rfl, by rfl, by rfl, by rfl, by rfl, by rfl⟩

/-- Without an entry and with one. -/
theorem witness_StepRunsDecodedInstruction :
    (let s := cpu |> code [0xA9, 0x05]
     let t := beginStep params s
     let i := Instr.lda (.imm 0x05)
     i.wellFormed = true ∧ s.running = true ∧ BytesAt t t.pc (encode i) ∧
       entryRefused (pollInterrupt params s) s.pc = false ∧
       refusalOf params i (t.setPc (t.pc + BitVec.ofNat 16 (encode i).length)) = none) ∧
    (let s := cpu |> unmasked |> withIrq |> withHandlers
     let t := beginStep params s
     let i := Instr.nop
     i.wellFormed = true ∧ s.running = true ∧ BytesAt t t.pc (encode i) ∧
       entryRefused (pollInterrupt params s) s.pc = false ∧
       refusalOf params i (t.setPc (t.pc + BitVec.ofNat 16 (encode i).length)) = none) :=
  ⟨⟨by decide, by decide, ⟨by decide, by decide, trivial⟩, by decide, by decide⟩,
    by decide, by decide, ⟨by decide, trivial⟩, by decide, by decide⟩

/-- An NMI, an IRQ, no request, a masked request, the last two under both poll sources. -/
theorem witness_InterruptPollAndEntry : cpu.wf = true ∧ ({ cpu with nmiPending := true } : State).wf = true ∧
    (let s := cpu |> unmasked |> withIrq
     s.wf = true ∧ s.nmiPending = false ∧ s.irqLine = true ∧ s.p.i = false) ∧
    (let s := cpu |> withIrq
     s.wf = true ∧ s.nmiPending = false ∧ s.irqLine = true ∧ s.p.i = true ∧ s.iPoll = true) ∧
    (let s := { cpu with iPoll := false } |> withIrq
     s.wf = true ∧ s.nmiPending = false ∧ s.irqLine = true ∧ s.iPoll = false) := by decide

theorem witness_HaltedStepChangesNothing :
    ({ cpu with halted := true } : State).halted = true ∧ ({ cpu with halted := true } : State).refused = false := by decide

theorem witness_RefusedStepRestores :
    (let s := { cpu with x := 0x07 } |> code [0x9D, 0x00, 0x20]
     stepReport params s = (.refused .dummyAccessSideEffect, { s with refused := true })) := by decide

/-- A step that runs and one of each kind that does not: an entry at `$2002`, a dummy read, a dummy write, a `JSR` over a
byte it pushes, an `SH` instruction with the page crossed. -/
theorem witness_StepRunsUnlessRefusalRule : (cpu |> code [0xEA]).running = true ∧
    (let s := { cpu with pc := 0x2002, nmiPending := true }
     s.running = true ∧ s.nmiPending = true ∧ seRead s.pc = true) ∧
    (let s := { cpu with x := 0x07 } |> code [0x9D, 0x00, 0x20]
     let f := fetch (beginStep params s)
     s.running = true ∧ f.1 = .sta (.absx 0x2000) ∧ siliconReads f.1 f.2 = [0x2007] ∧ seRead 0x2007 = true) ∧
    (let s := cpu |> code [0xEE, 0x14, 0x40]
     let f := fetch (beginStep params s)
     s.running = true ∧ f.1 = .inc (.abs 0x4014) ∧ siliconWrites f.1 f.2 = [0x4014] ∧ seWrite f.2.cart 0x4014 = true) ∧
    (let s := { cpu with pc := 0x01FB } |> code [0x20, 0x00, 0x90]
     let f := fetch (beginStep params s)
     s.running = true ∧ f.1 = .jsr 0x9000 ∧ (f.2.pc - 1).toNat = 0x100 + f.2.sp.toNat) ∧
    (let s := { cpu with x := 0x05, y := 0x10 } |> code [0x9E, 0xF8, 0x02]
     let f := fetch (beginStep params s)
     s.running = true ∧ highStoreOperand f.1 = some (.absy 0x02F8) ∧
       differentPage (baseAddress (.absy 0x02F8) f.2) (effectiveAddress (.absy 0x02F8) f.2) = true) := by decide

theorem witness_StepAddsItsCyclesToCyc : ∃ t, stepReport params (cpu |> code [0xEA]) = (.ran 2, t) :=
  ⟨(stepReport params (cpu |> code [0xEA])).2, by decide⟩

theorem witness_LinesSampledAfterStep : ∃ t, stepReport params (cpu |> unmasked |> withIrq |> withHandlers) = (.ran 9, t) :=
  ⟨(stepReport params (cpu |> unmasked |> withIrq |> withHandlers)).2, by decide⟩

theorem witness_PendingNmiPersists : exec .nop cpu = .next { cpu with stepCycles := 2 } ∧
    ({ cpu with nmiPending := true } : State).nmiPending = true ∧
    (let s := { cpu with nmiPrev := true }
     s.nmiPending = false ∧ s.nmiPrev = true) ∧
    (let s := { cpu with ppu := { Ppu.reset with blank := true, ctrl := 0x80 } }
     s.nmiPrev = false ∧ s.ppu.blank = true ∧ s.ppu.ctrl.getLsbD 7 = true) :=
  ⟨rfl, by decide, by decide, by decide⟩

theorem witness_StepKeepsInvariant : (cpu |> code [0xEA]).wf = true ∧ ∃ t, step (cpu |> code [0xEA]) = .next t :=
  ⟨by decide, _, rfl⟩

theorem witness_ResetMeetsInvariant : (cpu |> cell 0x07FF 1 |> code [0xEA]).wf = true := by decide

theorem witness_FlagWriterSummary : exec .tax cpu = .next { cpu with p := { Flags.reset with z := true }, stepCycles := 2 } ∧
    writesC .tax = false ∧ writesV .tax = false ∧ writesI .tax = false ∧ writesD .tax = false ∧ writesZN .clc = false ∧
    exec .clc cpu = .next { cpu with stepCycles := 2 } := ⟨rfl, rfl, rfl, rfl, rfl, rfl, rfl⟩

theorem witness_RegisterWriterSummary : Instr.clc.wellFormed = true ∧ exec .clc cpu = .next { cpu with stepCycles := 2 } ∧
    writesA .clc = false ∧ writesX .clc = false ∧ writesY .clc = false ∧ writesSp .clc = false ∧ writesPc .clc = false :=
  ⟨rfl, rfl, rfl, rfl, rfl, rfl, rfl⟩

/-- A taken branch into another page, and a crossed read. -/
theorem witness_CyclesFollowOpcodeMap :
    ((Instr.bvc 0x20).wellFormed = true ∧ encode (.bvc 0x20) = [0x50, 0x20] ∧
      exec (.bvc 0x20) { cpu with pc := 0x80F2 } = .next { cpu with pc := 0x8112, stepCycles := 4 }) ∧
    ((Instr.lda (.absx 0x01FF)).wellFormed = true ∧ encode (.lda (.absx 0x01FF)) = [0xBD, 0xFF, 0x01] ∧
      exec (.lda (.absx 0x01FF)) { cpu with x := 1 } =
        .next { cpu with x := 1, p := { Flags.reset with z := true }, stepCycles := 5 }) :=
  ⟨⟨rfl, rfl, rfl⟩, rfl, rfl, rfl⟩

theorem witness_DecimalFlagHasNoEffect : touchesD (.adc (.imm 0x01)) = false ∧
    exec (.adc (.imm 0x01)) { cpu with a := 0x09 } = .next { cpu with a := 0x0A, stepCycles := 2 } := ⟨rfl, rfl⟩

theorem witness_WorkRamMirrors : cpu.wf = true ∧ (0x0000 : Word).toNat < 0x2000 ∧ (0x1FFF : Word).toNat < 0x2000 := by decide

theorem witness_RomWritesDiscarded : 0x8000 ≤ (0x8000 : Word).toNat ∧ 0x8000 ≤ (0xFFFF : Word).toNat ∧
    cpu.cart.mapper = .fixed := by decide

/-- Both ends of each range. -/
theorem witness_OpenBusReads : ([(0x4018 : Word), 0x5FFF].all fun a => decide (0x4018 ≤ a.toNat ∧ a.toNat < 0x6000)) = true ∧
    ([(0x4000 : Word), 0x4014].all fun a => decide (0x4000 ≤ a.toNat ∧ a.toNat ≤ 0x4014)) = true ∧
    ([(0x2000 : Word), 0x2001, 0x2003, 0x2005, 0x3FFE].all fun a =>
      decide (0x2000 ≤ a.toNat ∧ a.toNat < 0x4000 ∧ a.toNat % 8 ∈ [0, 1, 3, 5, 6])) = true := by decide

/-- The ends of the ranges and their neighbours, of reads and of writes under both mappers. -/
theorem witness_ReadsWithSideEffects :
    [(0x2002 : Word), 0x2007, 0x3FFA, 0x3FFF, 0x4015, 0x4016, 0x4017].all seRead = true ∧
    [(0x0002 : Word), 0x1FFF, 0x2001, 0x2003, 0x4002, 0x4014, 0x4018, 0x8002].all (fun a => !seRead a) = true ∧
    (let serial : Cart := { Cart.blank with mapper := .shiftRegister }
     [(0x2000 : Word), 0x4017].all (seWrite cpu.cart) = true ∧
     [(0x0000 : Word), 0x1FFF, 0x4018, 0x5FFF, 0x6000, 0x7FFF, 0x8000, 0xFFFF].all (fun a => !seWrite cpu.cart a) = true ∧
     [(0x2000 : Word), 0x4017, 0x8000, 0xFFFF].all (seWrite serial) = true ∧
     [(0x1FFF : Word), 0x4018, 0x7FFF].all (fun a => !seWrite serial a) = true) := by decide

theorem witness_WordsAreLittleEndian : (0x0000 : Word).toNat = ((0xFFFF : Word).toNat + 1) % 0x10000 ∧
    (0x8001 : Word).toNat = ((0x8000 : Word).toNat + 1) % 0x10000 := by decide

theorem witness_OperandValues : (Operand.zp 0x10).mode ≠ .imm ∧ (Operand.zp 0x10).mode ≠ .acc ∧
    (cpu |> cell 0x0010 0x99).peek (effectiveAddress (.zp 0x10) (cpu |> cell 0x0010 0x99)) = some 0x99 := by decide

theorem witness_StoresWriteMemoryOnly : cpu.wf = true ∧ (Instr.sta (.absx 0x2FFF)).wellFormed = true ∧
    (Instr.stx (.zpy 0xFF)).wellFormed = true ∧ (Instr.sty (.zpx 0xFF)).wellFormed = true ∧
    (Instr.sax (.indx 0xFF)).wellFormed = true := by decide

/-- `SP` at both ends of the stack page. -/
theorem witness_StackPushAndPull : ({ cpu with sp := 0x00 } : State).wf = true ∧ ({ cpu with sp := 0xFF } : State).wf = true := by
  decide

theorem witness_IncrementAndDecrementMemory : cpu.wf = true ∧ (Instr.inc (.absx 0xFFFF)).wellFormed = true ∧
    (Instr.dec (.zp 0xFF)).wellFormed = true := by decide

theorem witness_ShiftsAndRotates : cpu.wf = true ∧ (Operand.zpx 0xFF) ≠ .acc ∧ (Instr.asl (.zpx 0xFF)).wellFormed = true ∧
    (Instr.lsr (.zpx 0xFF)).wellFormed = true ∧ (Instr.rol (.zpx 0xFF)).wellFormed = true ∧
    (Instr.ror (.zpx 0xFF)).wellFormed = true := by decide

/-- The pointer at the end of a page, and inside one. -/
theorem witness_JumpTargets :
    (0x1000 : Word).toNat = (0x10FF : Word).toNat / 256 * 256 + ((0x10FF : Word).toNat + 1) % 256 ∧
    (0x0121 : Word).toNat = (0x0120 : Word).toNat / 256 * 256 + ((0x0120 : Word).toNat + 1) % 256 := by decide

theorem witness_SubroutineCallAndReturn : ({ cpu with sp := 0x00 } : State).wf = true ∧
    sameStorage (stackAddr 0x00) 0x0200 = false ∧ sameStorage (stackAddr 0xFF) 0x0200 = false := by decide

theorem witness_ReturnFromInterrupt : ({ cpu with sp := 0xFE } : State).wf = true := by decide

theorem witness_SoftwareBreak : ({ cpu with sp := 0x01 } : State).wf = true ∧ sameStorage (stackAddr 0x01) 0x0200 = false ∧
    sameStorage (stackAddr 0x00) 0x0200 = false ∧ sameStorage (stackAddr 0xFF) 0x0200 = false := by decide

/-- Forward past `$FFFF`, and backward by 128. -/
theorem witness_ConditionalBranches :
    (((0x0002 : Word).toNat : Int) = (({ cpu with pc := 0xFFF2 } : State).pc.toNat + (0x10 : Byte).toInt) % 0x10000) ∧
    (((0x7F92 : Word).toNat : Int) = (({ cpu with pc := 0x8012 } : State).pc.toNat + (0x80 : Byte).toInt) % 0x10000) := by
  decide

theorem witness_UndocumentedReadModifyWrite : cpu.wf = true ∧ ∀ o ∈ [Operand.absy 0xFFFF, .indx 0xFF, .indy 0xFF],
    (Instr.slo o).wellFormed = true ∧ (Instr.rla o).wellFormed = true ∧ (Instr.sre o).wellFormed = true ∧
    (Instr.rra o).wellFormed = true ∧ (Instr.dcp o).wellFormed = true ∧ (Instr.isc o).wellFormed = true := by decide

theorem witness_UndocumentedLoadCombinations : (0x00 : Byte) = 0 ∧ ({ cpu with x := 0x00 } : State).x = 0 := by decide

/-- Crossed and uncrossed. -/
theorem witness_StoresOfHighByteFamily : ({ cpu with x := 0x05, y := 0x10 } : State).wf = true ∧
    (Instr.sha (.indy 0x10)).wellFormed = true ∧ (Instr.sha (.absy 0x02F8)).wellFormed = true ∧
    (Instr.shx 0x02F8).wellFormed = true ∧ (Instr.shy 0x0200).wellFormed = true ∧ (Instr.tas 0x0200).wellFormed = true := by
  decide

theorem witness_PictureStatusRead : ([(0x2002 : Word), 0x3FFA].all fun a =>
    decide (0x2000 ≤ a.toNat ∧ a.toNat < 0x4000 ∧ a.toNat % 8 = 2)) = true ∧ cpu.ppu.spritesKnown = true := by decide

/-- Each register, first and last mirror, the toggle both ways, graphics RAM and graphics ROM. -/
theorem witness_PictureRegisterWrites :
    ([(0x2000 : Word), 0x3FFF].all fun a => decide (0x2000 ≤ a.toNat ∧ a.toNat < 0x4000)) = true ∧
    (0x2000 : Word).toNat % 8 = 0 ∧ (0x3FF9 : Word).toNat % 8 = 1 ∧ (0x2003 : Word).toNat % 8 = 3 ∧
    (0x2004 : Word).toNat % 8 = 4 ∧ (0x3FFC : Word).toNat % 8 = 4 ∧ (0x2007 : Word).toNat % 8 = 7 ∧
    (0x3FFF : Word).toNat % 8 = 7 ∧ (0x3FFD : Word).toNat % 8 = 5 ∧ (0x2006 : Word).toNat % 8 = 6 ∧
    (0x2002 : Word).toNat % 8 ≠ 7 ∧ cpu.ppu.toggle = false ∧ ({ Ppu.reset with toggle := true } : Ppu).toggle = true ∧
    cpu.wf = true ∧ cpu.cart.chrBanks = 0 ∧ 0 < ({ Cart.blank with chrBanks := 1 } : Cart).chrBanks := by decide

/-- The first and the last dot of an even and of an odd frame. -/
theorem witness_FrameTiming : Ppu.reset.scanline = 0 ∧ Ppu.reset.dot = 0 ∧ Ppu.reset.frame % 2 = 0 ∧
    ({ Ppu.reset with frame := 1 } : Ppu).frame % 2 = 1 ∧ 0 < 341 * 262 - 1 ∧ 341 * 262 - 1 < 341 * 262 := by decide

/-- A page of memory, and a page of device registers. -/
theorem witness_SpriteDmaCopiesPage : (let s := { cpu with oamDma := some 0x02 }
    s.wf = true ∧ s.oamDma = some 0x02 ∧ ∀ i : Byte, s.peek (mkWord 0x02 i) = some 0) ∧
    (let s := { cpu with oamDma := some 0x20 }
     s.wf = true ∧ s.oamDma = some 0x20 ∧ s.peek (mkWord 0x20 0x02) = none) := by decide

/-- The first and the last address of each register, and a reset write. -/
theorem witness_MapperSerialWrites : (let c : Cart := { Cart.blank with mapper := .shiftRegister }
    c.mapper = .shiftRegister ∧ c.shift = 0 ∧ c.count = 0) ∧ (0x1F : Byte).getLsbD 7 = false ∧ (0x80 : Byte).getLsbD 7 = true ∧
    ([(0x8000 : Word), 0x9FFF, 0xA000, 0xBFFF, 0xC000, 0xDFFF, 0xE000, 0xFFFF].all fun a =>
      decide (0x8000 ≤ a.toNat)) = true := by decide

/-- One and two banks of the fixed mapping; each program mode of the other, at both ends of program space. -/
theorem witness_ProgramWindows : 
    ([(0x8000 : Word), 0xBFFF, 0xC000, 0xFFFF].all fun a => decide (0x8000 ≤ a.toNat)) = true ∧
    (let c := cpu.cart
     0 < c.prgBanks ∧ c.mapper = .fixed ∧ c.prgBanks = 1) ∧
    (let c : Cart := { Cart.blank with prgBanks := 2 }
     0 < c.prgBanks ∧ c.mapper = .fixed ∧ c.prgBanks = 2) ∧
    ([(0x00 : BitVec 5), 0x04, 0x08, 0x0C].all fun m =>
      let c : Cart := { Cart.blank with mapper := .shiftRegister, prgBanks := 4, control := m }
      decide (0 < c.prgBanks ∧ c.mapper = .shiftRegister ∧ c.control.toNat / 4 % 4 = m.toNat / 4 ∧ c.prgBanks % 2 = 0)) =
    true := by decide

theorem witness_ControllerReads : (0x01 : Byte).getLsbD 0 = true ∧ (0x00 : Byte).getLsbD 0 = false := by decide

/-- Both ends of the plain registers, and a sequence that can and one that cannot raise the interrupt. -/
theorem witness_AudioStatusAndFrameInterrupt : ({ Apu.reset with fiveStep := true } : Apu).fiveStep = true ∧
    ({ Apu.reset with inhibit := true } : Apu).inhibit = true ∧
    ([(0x4000 : Word), 0x4013].all fun a => decide (0x4000 ≤ a.toNat ∧ a.toNat < 0x4014)) = true ∧ cpu.wf = true ∧
    cpu.apu.fiveStep = false ∧ cpu.apu.inhibit = false ∧ cpu.apu.frameTicks = 0 := by decide

/-- The shortest sample, a longest one that wraps, and an active channel. -/
theorem witness_SampleChannelFetches : (0 < 16 * (Apu.reset.regs.get 0x13).toNat + 1) ∧
    (let regs : Memory := [(0x12, 0xFF), (0x13, 0xFF)]
     4080 < 16 * (regs.get 0x13).toNat + 1 ∧ 4081 = 16 * (regs.get 0x13).toNat + 1) ∧
    (let s := { cpu with apu := { Apu.reset with dmcRemaining := 1, dmcAddr := 0xFFFF } }
     s.apu.dmcRemaining ≠ 0 ∧ s.peek s.apu.dmcAddr = some 0) := by decide

theorem witness_CartridgeLoad : ([0, 0, 0, 0, 0, 0, 0, 0] : List Byte).length = 8 ∧
    ((0x10 : Byte).toNat / 16 ≤ 1 ∧ (0x01 : Byte) ≠ 0 ∧
      512 + (0x4000 * (0x01 : Byte).toNat + 0x2000 * (0x00 : Byte).toNat) ≤ (List.replicate 16896 (0 : Byte)).length) ∧
    1 < (0x40 : Byte).toNat / 16 ∧ ([] : List Byte).length < 0x4000 ∧
    ((0x4E, 0x45, 0x53, 0x1B) : Byte × Byte × Byte × Byte) ≠ (0x4E, 0x45, 0x53, 0x1A) :=
  ⟨by decide, ⟨by decide, by decide, by rw [List.length_replicate]; decide⟩, by decide, by decide, by decide⟩

theorem witness_ResetWrites : params.entryPc = none ∧
    ({ params with entryPc := some 0xC000 } : Params).entryPc = some 0xC000 ∧
    delayedParams.irqPollISource = .delayed ∧ cpu.wf = true := by decide

/-- A `CLI` and another instruction under `IRQ_POLL_I_SOURCE = delayed`, and a step under the default. -/
theorem witness_DelayedInterruptMask :
    (∃ t, stepReport delayedParams (cpu |> code [0x58]) = (.ran 2, t)) ∧
    (∃ t, stepReport delayedParams (cpu |> code [0xEA]) = (.ran 2, t)) ∧
    (∃ t, stepReport params (cpu |> code [0x58]) = (.ran 2, t)) ∧
    delayedParams.irqPollISource = .delayed ∧ params.irqPollISource = .current :=
  ⟨⟨(stepReport delayedParams (cpu |> code [0x58])).2, by decide⟩,
    ⟨(stepReport delayedParams (cpu |> code [0xEA])).2, by decide⟩,
    ⟨(stepReport params (cpu |> code [0x58])).2, by decide⟩, by decide, by decide⟩

theorem witness_ClockAdvancesDevices : cpu.apu.dmcRemaining = 0 := by decide

end Sys2Proof.Tests
end

/-! # The statements of 10_state.md

The cycles of an instruction, what the writer summaries leave alone, and the noninterference of the decimal flag are each
one case split over the instructions by their shape: one that reads an operand, stores, modifies its operand, branches,
uses the stack, or works on registers only. What each shape does stands before the split. -/

namespace Sys2Proof.Machine

/-- What holds of the state an instruction answers holds of every state it answers. -/
theorem of_exec_next {P : State → Prop} {i : Instr} {s t : State} (h : ∃ u, exec i s = .next u ∧ P u)
    (he : exec i s = .next t) : P t := by
  obtain ⟨u, hu, hp⟩ := h
  have hut : u = t := Host.Outcome.next.inj (hu.symm.trans he)
  exact hut ▸ hp

/-! ## The cycles of an instruction (30_encoding.md R112 to R114) -/

theorem two_le_readCycles (o : Operand) (s : State) : 2 ≤ readCycles o s := by
  cases o <;> simp only [readCycles] <;> omega

theorem two_le_writeCycles (o : Operand) : 2 ≤ writeCycles o := by
  cases o <;> simp [writeCycles]

theorem two_le_rmwCycles (o : Operand) : 2 ≤ rmwCycles o := by
  cases o <;> simp [rmwCycles]

theorem two_le_jumpCycles (t : JumpTarget) : 2 ≤ jumpCycles t := by
  cases t <;> simp [jumpCycles]

@[simp] theorem writeOperand_stepCycles (o : Operand) (a : Word) (v : Byte) (s : State) :
    (writeOperand o a v s).stepCycles = s.stepCycles := by
  obtain ⟨_, _, _, _, _, _, _, _, e⟩ := writeOperand_frame o a v s; rw [e]

@[simp] theorem jumpTarget_stepCycles (t : JumpTarget) (s : State) : (jumpTarget t s).2.stepCycles = s.stepCycles := by
  cases t with
  | abs w => rfl
  | ind w => simp [jumpTarget]

theorem withRead_stepCycles {o : Operand} {f : Byte → State → State} (s : State)
    (hf : ∀ m t, (f m t).stepCycles = t.stepCycles) :
    (withRead o f s).stepCycles = s.stepCycles + readCycles o s := by
  simp [withRead, hf]

theorem store_stepCycles (o : Operand) (v : Byte) (s : State) :
    (store o v s).stepCycles = s.stepCycles + writeCycles o := by
  simp [store]

theorem storeHigh_stepCycles (o : Operand) (v : Byte) (s : State) :
    (storeHigh o v s).stepCycles = s.stepCycles + writeCycles o := by
  simp [storeHigh]

theorem readModifyWrite_stepCycles {o : Operand} {f : Byte → State → Byte × State} {after : Byte → State → State}
    (s : State) (hf : ∀ m t, (f m t).2.stepCycles = t.stepCycles) (ha : ∀ r t, (after r t).stepCycles = t.stepCycles) :
    (readModifyWrite o f after s).stepCycles = s.stepCycles + rmwCycles o := by
  simp [readModifyWrite, hf, ha]

theorem branch_stepCycles (c : Bool) (d : Byte) (s : State) :
    ∃ k, (branch c d s).stepCycles = s.stepCycles + k ∧ 2 ≤ k := by
  cases c with
  | false => exact ⟨2, rfl, Nat.le_refl _⟩
  | true => exact ⟨_, rfl, by split <;> decide⟩

theorem interruptEntry_stepCycles (vec : Word) (b : Bool) (s : State) :
    (interruptEntry vec b s).stepCycles = s.stepCycles + 7 := by
  simp [interruptEntry, read16, push_eq, pushWord_eq]

/-- Every instruction adds a count of its own, of at least two cycles, to those of the step. -/
theorem exec_stepCycles_next (i : Instr) (s : State) :
    ∃ t, exec i s = .next t ∧ ∃ k, t.stepCycles = s.stepCycles + k ∧ 2 ≤ k := by
  cases i with
  | lda _ | ldx _ | ldy _ | adc _ | sbc _ | and _ | ora _ | eor _ | bit _ | cmp _ | cpx _ | cpy _ | nopRead _ _ | lax _
  | las _ => exact ⟨_, rfl, _, withRead_stepCycles s fun _ _ => rfl, two_le_readCycles _ s⟩
  | sta _ | stx _ | sty _ | sax _ => exact ⟨_, rfl, _, store_stepCycles _ _ s, two_le_writeCycles _⟩
  | sha _ | shx _ | shy _ => exact ⟨_, rfl, _, storeHigh_stepCycles _ _ s, two_le_writeCycles _⟩
  | tas _ => exact ⟨_, rfl, _, storeHigh_stepCycles _ _ (s.setSp (s.a &&& s.x)), two_le_writeCycles _⟩
  | inc _ | dec _ | asl _ | lsr _ | rol _ | ror _ | slo _ | rla _ | sre _ | rra _ | dcp _ | isc _ =>
    exact ⟨_, rfl, _, readModifyWrite_stepCycles s (fun _ _ => rfl) fun _ _ => rfl, two_le_rmwCycles _⟩
  | bpl _ | bmi _ | bvc _ | bvs _ | bcc _ | bcs _ | bne _ | beq _ => exact ⟨_, rfl, branch_stepCycles _ _ s⟩
  | jmp t => exact ⟨_, rfl, jumpCycles t, by simp, two_le_jumpCycles t⟩
  | pha | php => exact ⟨_, rfl, 3, by simp [push_eq], by decide⟩
  | pla | plp => exact ⟨_, rfl, 4, by simp [pull_eq], by decide⟩
  | jsr _ | rts | rti => exact ⟨_, rfl, 6, by simp [pushWord_eq, pullWord_eq, interruptReturn_eq], by decide⟩
  | brk => exact ⟨_, rfl, 7, interruptEntry_stepCycles _ _ _, by decide⟩
  | tax | tay | txa | tya | tsx | txs | inx | iny | dex | dey | clc | sec | cli | sei | cld | sed | clv | nop | jam _
  | nopImp _ | nopImm _ _ | anc _ _ | alr _ | arr _ | axs _ | usbc _ | xaa _ | lxa _ =>
    exact ⟨_, rfl, 2, rfl, Nat.le_refl _⟩

/-- Every instruction takes at least two cycles. -/
theorem exec_two_le {i : Instr} {s t : State} (he : exec i s = .next t) : s.stepCycles + 2 ≤ t.stepCycles := by
  obtain ⟨k, hk, h2⟩ := of_exec_next (P := fun u => ∃ k, u.stepCycles = s.stepCycles + k ∧ 2 ≤ k)
    (exec_stepCycles_next i s) he
  omega

/-! ## What a step that ran did (70_reset_and_hazards.md R380) -/

/-- The poll and its entry clear the stall and may serve the pending NMI; they write no other hidden state. -/
theorem beginStep_hidden (p : Params) (s : State) :
    (beginStep p s).hidden = { s.hidden with stall := 0, nmiPending := (beginStep p s).hidden.nmiPending } := by
  unfold beginStep
  cases pollInterrupt p s with
  | none => rfl
  | some int =>
    cases int with
    | nmi => simp only [enterInterrupt, nmiEntry, interruptEntry_hidden]; rfl
    | irq => simp only [enterInterrupt, irqEntry, interruptEntry_hidden]; rfl

theorem fetchByte_hidden (s : State) : (fetchByte s).2.hidden = s.hidden := busRead_hidden s.pc s

theorem fetch_hidden (s : State) : (fetch s).2.hidden = s.hidden := by
  have h1 := fetchByte_hidden s
  have h2 := (fetchByte_hidden (fetchByte s).2).trans h1
  have h3 := (fetchByte_hidden (fetchByte (fetchByte s).2).2).trans h2
  unfold fetch
  simp only
  split
  · exact h1
  · exact h2
  · exact h3

theorem updateIPoll_count (p : Params) (i : Instr) (b : Bool) (s : State) :
    (updateIPoll p i b s).cyc = s.cyc ∧ (updateIPoll p i b s).stall = s.stall ∧
      (updateIPoll p i b s).stepCycles = s.stepCycles := by
  unfold updateIPoll; split <;> exact ⟨rfl, rfl, rfl⟩

/-- The end of a step adds to `cyc` the cycles of the entry and the instruction, and the stall as it ends up. -/
theorem endStep_count (p : Params) (i : Instr) (b : Bool) (s : State) :
    (endStep p i b s).cyc = s.cyc + s.stepCycles + (endStep p i b s).stall ∧
      (endStep p i b s).stepCycles = s.stepCycles := by
  obtain ⟨d1, d2⟩ := spriteDma_count s
  obtain ⟨c1, _, c3⟩ := clock_count p ((spriteDma s).stepCycles + (spriteDma s).stall) (spriteDma s)
  obtain ⟨u1, u2, u3⟩ := updateIPoll_count p i b (clock p ((spriteDma s).stepCycles + (spriteDma s).stall) (spriteDma s))
  simp only [endStep, u1, u2, u3]
  omega

/-- A step that ran began, fetched an instruction, did what `exec` gives for it, and ended; it reports its cycles with
the stall. -/
theorem stepReport_ran {p : Params} {s t : State} {k : Nat} (h : stepReport p s = (.ran k, t)) :
    ∃ u, exec (fetch (beginStep p s)).1 (fetch (beginStep p s)).2 = .next u ∧
      t = endStep p (fetch (beginStep p s)).1 (fetch (beginStep p s)).2.p.i u ∧ k = t.stepCycles + t.stall := by
  obtain ⟨u, hu⟩ := exec_next (fetch (beginStep p s)).1 (fetch (beginStep p s)).2
  refine ⟨u, hu, ?_⟩
  unfold stepReport at h
  simp only [hu] at h
  split at h
  · simp at h
  · split at h
    · simp at h
    · split at h
      · simp at h
      · split at h
        · simp at h
        · simp only [Prod.mk.injEq, Report.ran.injEq] at h
          obtain ⟨hk, ht⟩ := h
          exact ⟨ht.symm, ht ▸ hk.symm⟩

/-- Settles O10: the instruction leaves `cyc` to the clock, which adds the step's cycles and every stall cycle once; the
instruction alone takes two. -/
theorem stepAddsItsCyclesToCyc : Obligations.StepAddsItsCyclesToCyc := by
  intro p s t k h
  obtain ⟨u, hu, ht, hk⟩ := stepReport_ran h
  have hcyc : u.cyc = s.cyc :=
    (congrArg Hidden.cyc ((exec_hidden hu).trans (fetch_hidden _))).trans (congrArg Hidden.cyc (beginStep_hidden p s))
  have htwo := exec_two_le hu
  obtain ⟨h1, h2⟩ := endStep_count p (fetch (beginStep p s)).1 (fetch (beginStep p s)).2.p.i u
  rw [← ht] at h1 h2
  omega

/-! ## A pending NMI (10_state.md R39) -/

theorem sampleLines_keeps_pending {s : State} (h : s.nmiPending = true) : (sampleLines s).nmiPending = true := by
  simp [sampleLines, h]

theorem plainCycles_keeps_pending (n : Nat) {s : State} (h : s.nmiPending = true) :
    (plainCycles n s).nmiPending = true := by
  induction n generalizing s with
  | zero => exact h
  | succ n ih => exact ih (sampleLines_keeps_pending (s := advanceDevices s) h)

@[simp] theorem drawRequest_nmiPending (s : State) : (drawRequest s).nmiPending = s.nmiPending := by
  unfold drawRequest; split <;> rfl

@[simp] theorem sampleFetch_nmiPending (p : Params) (s : State) : (sampleFetch p s).nmiPending = s.nmiPending :=
  busRead_nmiPending s.apu.dmcAddr s

theorem clock_keeps_pending (p : Params) (k : Nat) {s : State} (h : s.nmiPending = true) :
    (clock p k s).nmiPending = true := by
  induction k generalizing s with
  | zero => exact h
  | succ k ih =>
    have ha : (advanceDevices s).nmiPending = true := h
    unfold clock
    simp only
    split
    · exact ih (plainCycles_keeps_pending _ (sampleLines_keeps_pending (by simpa using ha)))
    · exact ih (sampleLines_keeps_pending (by simpa using ha))

/-- Settles O12: sampling the lines can only set the latch, and nothing else in an instruction or a cycle writes it. -/
theorem pendingNmiPersists : Obligations.PendingNmiPersists := by
  refine ⟨fun i s t he => congrArg Hidden.nmiPending (exec_hidden he), fun p k s h => clock_keeps_pending p k h, ?_, ?_⟩
  · intro s hpending hprev
    simp [sampleLines, hpending, hprev]
  · intro s hprev hblank hctrl
    simp [sampleLines, Ppu.nmiOut, hprev, hblank, hctrl]

/-! ## What the writer summaries leave alone (10_state.md R21 to R25, R35) -/

/-- The registers an instruction can write and its flags, without memory, devices and counters. -/
structure Regs where
  a : Byte
  x : Byte
  y : Byte
  sp : Byte
  pc : Word
  p : Flags

def State.regs (s : State) : Regs := ⟨s.a, s.x, s.y, s.sp, s.pc, s.p⟩

@[simp] theorem busRead_regs (a : Word) (s : State) : (busRead a s).2.regs = s.regs := by simp [State.regs]

@[simp] theorem busWrite_regs (a : Word) (v : Byte) (s : State) : (busWrite a v s).regs = s.regs := by
  simp [State.regs]

@[simp] theorem readOperand_regs (o : Operand) (s : State) : (readOperand o s).2.regs = s.regs := by
  simp [State.regs]

theorem jumpTarget_regs (t : JumpTarget) (s : State) : (jumpTarget t s).2.regs = s.regs := by
  cases t with
  | abs w => rfl
  | ind w => exact (busRead_regs _ _).trans (busRead_regs w s)

/-- What the summaries do not list for an instruction: the listed flags and registers read as 0. An operand form that the
instruction does not have can be the accumulator, so an ill-formed instruction lists `A`. -/
def Regs.unlisted (i : Instr) (r : Regs) : Regs where
  a := bif writesA i || !i.wellFormed then 0 else r.a
  x := bif writesX i then 0 else r.x
  y := bif writesY i then 0 else r.y
  sp := bif writesSp i then 0 else r.sp
  pc := bif writesPc i then 0 else r.pc
  p := {
    c := !writesC i && r.p.c
    z := !writesZN i && r.p.z
    i := !writesI i && r.p.i
    d := !writesD i && r.p.d
    v := !writesV i && r.p.v
    n := !writesZN i && r.p.n }

section
variable {i : Instr}

/-- Writing an operand writes no register but the accumulator, and that only in accumulator mode. -/
theorem writeOperand_unlisted {o : Operand} (a : Word) (v : Byte) (s : State)
    (hacc : o = .acc → (s.setA v).regs.unlisted i = s.regs.unlisted i) :
    (writeOperand o a v s).regs.unlisted i = s.regs.unlisted i := by
  cases o with
  | acc => exact hacc rfl
  | imm b => rfl
  | zp _ | zpx _ | zpy _ | abs _ | absx _ | absy _ | indx _ | indy _ =>
    exact congrArg (Regs.unlisted i) (busWrite_regs a v s)

theorem withRead_unlisted {o : Operand} {f : Byte → State → State} (s : State)
    (hf : ∀ m t, (f m t).regs.unlisted i = t.regs.unlisted i) :
    (withRead o f s).regs.unlisted i = s.regs.unlisted i :=
  (hf _ _).trans (congrArg (Regs.unlisted i) (readOperand_regs o s))

theorem readModifyWrite_unlisted {o : Operand} {f : Byte → State → Byte × State} {after : Byte → State → State}
    (s : State) (hf : ∀ m t, (f m t).2.regs.unlisted i = t.regs.unlisted i)
    (ha : ∀ r t, (after r t).regs.unlisted i = t.regs.unlisted i)
    (hacc : o = .acc → ∀ v t, (State.setA v t).regs.unlisted i = t.regs.unlisted i) :
    (readModifyWrite o f after s).regs.unlisted i = s.regs.unlisted i :=
  ((ha _ _).trans (writeOperand_unlisted _ _ _ fun h => hacc h _ _)).trans
    ((hf _ _).trans (congrArg (Regs.unlisted i) (readOperand_regs o s)))

/-- A branch writes `PC` only. -/
theorem branch_unlisted (c : Bool) (d : Byte) (s : State)
    (hpc : ∀ v, (s.setPc v).regs.unlisted i = s.regs.unlisted i) :
    (branch c d s).regs.unlisted i = s.regs.unlisted i := by
  unfold branch
  cases c with
  | false => rfl
  | true => exact hpc _

end

/-- Every instruction, by its shape: what it writes beside memory, devices and counters is listed for it. -/
theorem exec_unlisted_next (i : Instr) (s : State) :
    ∃ t, exec i s = .next t ∧ t.regs.unlisted i = s.regs.unlisted i := by
  cases i with
  | lda _ | ldx _ | ldy _ | adc _ | sbc _ | and _ | ora _ | eor _ | bit _ | cmp _ | cpx _ | cpy _ | nopRead _ _ | lax _
  | las _ => exact ⟨_, rfl, withRead_unlisted s fun _ _ => rfl⟩
  | sta _ | stx _ | sty _ | sax _ => exact ⟨_, rfl, writeOperand_unlisted _ _ s fun h => h ▸ rfl⟩
  | sha _ | shx _ | shy _ => exact ⟨_, rfl, congrArg (Regs.unlisted _) (busWrite_regs _ _ s)⟩
  | tas _ => exact ⟨_, rfl, (congrArg (Regs.unlisted _) (busWrite_regs _ _ (s.setSp (s.a &&& s.x)))).trans rfl⟩
  | inc _ | dec _ | asl _ | lsr _ | rol _ | ror _ | slo _ | rla _ | sre _ | rra _ | dcp _ | isc _ =>
    exact ⟨_, rfl, readModifyWrite_unlisted s (fun _ _ => rfl) (fun _ _ => rfl) fun h _ _ => h ▸ rfl⟩
  | bpl _ | bmi _ | bvc _ | bvs _ | bcc _ | bcs _ | bne _ | beq _ =>
    exact ⟨_, rfl, branch_unlisted _ _ s fun _ => rfl⟩
  | jmp t =>
    have h := congrArg (Regs.unlisted (.jmp t)) (jumpTarget_regs t s)
    exact ⟨_, rfl, h⟩
  | pha | php | pla | plp | jsr _ | rts | rti =>
    exact ⟨_, rfl, by simp only [push_eq, pull_eq, pushWord_eq, pullWord_eq, interruptReturn_eq]; rfl⟩
  | brk => exact ⟨_, rfl, by rw [interruptEntry_eq (by decide) (by decide)]; rfl⟩
  | tax | tay | txa | tya | tsx | txs | inx | iny | dex | dey | clc | sec | cli | sei | cld | sed | clv | nop | jam _
  | nopImp _ | nopImm _ _ | anc _ _ | alr _ | arr _ | axs _ | usbc _ | xaa _ | lxa _ => exact ⟨_, rfl, rfl⟩

/-- No instruction changes what the summaries do not list for it. -/
theorem exec_unlisted {i : Instr} {s t : State} (he : exec i s = .next t) : t.regs.unlisted i = s.regs.unlisted i :=
  of_exec_next (exec_unlisted_next i s) he

/-- Settles O18: the flags of `Regs.unlisted`. -/
theorem flagWriterSummary : Obligations.FlagWriterSummary := by
  intro i s t he
  have h := exec_unlisted he
  simp only [Regs.unlisted, State.regs, Regs.mk.injEq, Flags.mk.injEq] at h
  obtain ⟨-, -, -, -, -, hc, hz, hi, hd, hv, hn⟩ := h
  exact ⟨fun w => by simpa [w] using hc, fun w => ⟨by simpa [w] using hz, by simpa [w] using hn⟩,
    fun w => by simpa [w] using hv, fun w => by simpa [w] using hi, fun w => by simpa [w] using hd⟩

/-- Settles O19: the registers of `Regs.unlisted`; a well-formed instruction writes `A` only where it lists it. -/
theorem registerWriterSummary : Obligations.RegisterWriterSummary := by
  intro i s t hwf he
  have h := exec_unlisted he
  simp only [Regs.unlisted, State.regs, Regs.mk.injEq] at h
  obtain ⟨ha, hx, hy, hsp, hpc, -⟩ := h
  exact ⟨fun w => by simpa [w, hwf] using ha, fun w => by simpa [w] using hx, fun w => by simpa [w] using hy,
    fun w => by simpa [w] using hsp, fun w => by simpa [w] using hpc⟩

/-! ## The decimal flag (10_state.md R31) -/

theorem State.withD_eq (d : Bool) (s : State) : s.withD d = s.setP { s.p with d := d } := rfl

theorem busRead_withD (a : Word) (d : Bool) (s : State) :
    busRead a (s.withD d) = ((busRead a s).1, (busRead a s).2.withD d) := by
  refine (busRead_cpu a s s.a s.x s.y s.sp s.pc { s.p with d := d } s.stepCycles s.halted).trans ?_
  obtain ⟨_, _, _, _, e⟩ := busRead_frame a s
  rw [e]; rfl

theorem busWrite_withD (a : Word) (v : Byte) (d : Bool) (s : State) :
    busWrite a v (s.withD d) = (busWrite a v s).withD d := by
  rw [State.withD_eq, State.withD_eq, busWrite_setP, busWrite_p]

theorem baseAddress_withD (o : Operand) (d : Bool) (s : State) : baseAddress o (s.withD d) = baseAddress o s := by
  cases o <;> simp only [baseAddress, pointer_eq] <;> rfl

theorem effectiveAddress_withD (o : Operand) (d : Bool) (s : State) :
    effectiveAddress o (s.withD d) = effectiveAddress o s := by
  cases o <;> simp only [effectiveAddress, baseAddress_withD] <;> rfl

theorem pageCrossed_withD (o : Operand) (d : Bool) (s : State) : pageCrossed o (s.withD d) = pageCrossed o s := by
  rw [pageCrossed, pageCrossed, baseAddress_withD, effectiveAddress_withD]

theorem readOperand_withD (o : Operand) (d : Bool) (s : State) :
    readOperand o (s.withD d) = ((readOperand o s).1, (readOperand o s).2.withD d) := by
  cases o with
  | acc => rfl
  | imm b => rfl
  | zp _ | zpx _ | zpy _ | abs _ | absx _ | absy _ | indx _ | indy _ =>
    simp only [readOperand, effectiveAddress_withD, busRead_withD]

theorem writeOperand_withD (o : Operand) (a : Word) (v : Byte) (d : Bool) (s : State) :
    writeOperand o a v (s.withD d) = (writeOperand o a v s).withD d := by
  cases o with
  | acc => rfl
  | imm b => rfl
  | zp _ | zpx _ | zpy _ | abs _ | absx _ | absy _ | indx _ | indy _ => exact busWrite_withD a v d s

theorem readCycles_withD (o : Operand) (d : Bool) (s : State) : readCycles o (s.withD d) = readCycles o s := by
  cases o <;> simp only [readCycles, pageCrossed_withD]

theorem withRead_withD {o : Operand} {f : Byte → State → State} (d : Bool) (s : State)
    (hf : ∀ m t, f m (State.withD d t) = (f m t).withD d) : withRead o f (s.withD d) = (withRead o f s).withD d := by
  simp only [withRead, readOperand_withD, readCycles_withD, hf]
  rfl

theorem store_withD (o : Operand) (v : Byte) (d : Bool) (s : State) :
    store o v (s.withD d) = (store o v s).withD d := by
  simp only [store, effectiveAddress_withD, writeOperand_withD]
  rfl

theorem storeHigh_withD (o : Operand) (v : Byte) (d : Bool) (s : State) :
    storeHigh o v (s.withD d) = (storeHigh o v s).withD d := by
  simp only [storeHigh, shAddr, shValue, pageCrossed_withD, effectiveAddress_withD, baseAddress_withD, busWrite_withD]
  rfl

theorem readModifyWrite_withD {o : Operand} {f : Byte → State → Byte × State} {after : Byte → State → State} (d : Bool)
    (s : State) (hf : ∀ m t, f m (State.withD d t) = ((f m t).1, (f m t).2.withD d))
    (ha : ∀ r t, after r (State.withD d t) = (after r t).withD d) :
    readModifyWrite o f after (s.withD d) = (readModifyWrite o f after s).withD d := by
  simp only [readModifyWrite, effectiveAddress_withD, readOperand_withD, hf, writeOperand_withD, ha]
  rfl

theorem branch_withD (c : Bool) (b : Byte) (d : Bool) (s : State) :
    branch c b (s.withD d) = (branch c b s).withD d := by
  cases c <;> rfl

theorem jumpTarget_withD (t : JumpTarget) (d : Bool) (s : State) :
    jumpTarget t (s.withD d) = ((jumpTarget t s).1, (jumpTarget t s).2.withD d) := by
  cases t with
  | abs w => rfl
  | ind w => simp only [jumpTarget, busRead_withD]

/-- An instruction that does not touch the decimal flag commutes with replacing it. -/
theorem exec_withD_next (i : Instr) (d : Bool) (s : State) (hi : touchesD i = false) :
    ∃ t, exec i s = .next t ∧ exec i (s.withD d) = .next (t.withD d) := by
  cases i with
  | lda _ | ldx _ | ldy _ | adc _ | sbc _ | and _ | ora _ | eor _ | bit _ | cmp _ | cpx _ | cpy _ | nopRead _ _ | lax _
  | las _ => exact ⟨_, rfl, congrArg Host.Outcome.next (withRead_withD d s fun _ _ => rfl)⟩
  | sta _ | stx _ | sty _ | sax _ => exact ⟨_, rfl, congrArg Host.Outcome.next (store_withD _ _ d s)⟩
  | sha _ | shx _ | shy _ => exact ⟨_, rfl, congrArg Host.Outcome.next (storeHigh_withD _ _ d s)⟩
  | tas _ => exact ⟨_, rfl, congrArg Host.Outcome.next (storeHigh_withD _ _ d (s.setSp (s.a &&& s.x)))⟩
  | inc _ | dec _ | asl _ | lsr _ | rol _ | ror _ | slo _ | rla _ | sre _ | rra _ | dcp _ | isc _ =>
    exact ⟨_, rfl, congrArg Host.Outcome.next (readModifyWrite_withD d s (fun _ _ => rfl) fun _ _ => rfl)⟩
  | bpl _ | bmi _ | bvc _ | bvs _ | bcc _ | bcs _ | bne _ | beq _ =>
    exact ⟨_, rfl, congrArg Host.Outcome.next (branch_withD _ _ d s)⟩
  | jmp t => exact ⟨_, rfl, by simp only [exec, execJmp, jumpTarget_withD]; rfl⟩
  | pha => exact ⟨_, rfl, by simp only [exec, execPha, push_eq]; rfl⟩
  | jsr w => exact ⟨_, rfl, by simp only [exec, execJsr, pushWord_eq]; rfl⟩
  | pla => exact ⟨_, rfl, by simp only [exec, execPla, pull_eq]; rfl⟩
  | rts => exact ⟨_, rfl, by simp only [exec, execRts, pullWord_eq]; rfl⟩
  | php | brk | plp | rti | sed | cld => exact absurd hi (by decide)
  | tax | tay | txa | tya | tsx | txs | inx | iny | dex | dey | clc | sec | cli | sei | clv | nop | jam _
  | nopImp _ | nopImm _ _ | anc _ _ | alr _ | arr _ | axs _ | usbc _ | xaa _ | lxa _ => exact ⟨_, rfl, rfl⟩

/-- Settles O21: every instruction that does not touch `D` commutes with replacing it; `PLP` and `RTI` load all of `P` from
the stack, `SED` and `CLD` write `D`. -/
theorem decimalFlagHasNoEffect : Obligations.DecimalFlagHasNoEffect := by
  refine ⟨fun i d s t hi he => ?_, fun d s => ⟨?_, ?_, rfl, rfl⟩⟩
  · exact of_exec_next (exec_withD_next i d s hi) he
  · simp only [exec, execPlp, pull_eq, loadP_eq]; rfl
  · simp only [exec, execRti, interruptReturn_eq]; rfl

/-! ## The status byte -/

theorem Flags.image_toNat (p : Flags) (b : Bool) :
    (p.image b).toNat = 128 * p.n.toNat + 64 * p.v.toNat + 32 + 16 * b.toNat + 8 * p.d.toNat + 4 * p.i.toNat +
      2 * p.z.toNat + p.c.toNat := by
  obtain ⟨c, z, i, d, v, n⟩ := p
  revert b c z i d v n
  decide

theorem Flags.ofByte_image (p : Flags) (b : Bool) : Flags.ofByte (p.image b) = p := by
  obtain ⟨c, z, i, d, v, n⟩ := p
  revert b c z i d v n
  decide

/-- Bits 4 and 5 of the image do not come from the byte the flags were pulled from. -/
theorem Flags.image_ofByte (v : Byte) (b : Bool) :
    (Flags.ofByte v).image b = (v &&& 0xCF) ||| (if b then 0x30 else 0x20) := by
  cases b <;> revert v <;> decide

/-- Settles O32: the image as a number, and both round trips between flags and byte. -/
theorem statusByteImage : Obligations.StatusByteImage :=
  fun p b v => ⟨p.image_toNat b, p.ofByte_image b, rfl, Flags.image_ofByte v b⟩

/-! ## Pushes and pulls (10_state.md R24) -/

/-- A push stores its byte at `$0100 | SP`. -/
theorem push_storesByte {v : Byte} {s : State} (h : s.wf = true) : StoresByte (stackAddr s.sp) v s (push v s) :=
  (busWrite_storesByte h).congr rfl rfl rfl rfl

/-- Settles O33: `PHA` and `PHP` are one push, `PLA` and `PLP` one pull, of a cell of the stack page. -/
theorem stackPushAndPull : Obligations.StackPushAndPull := by
  intro s h
  have pushed (i : Instr) (v : Byte) (hi : exec i s = .next ((push v s).addCycles 3)) :
      ∃ t, exec i s = .next t ∧
        t = { s with ram := t.ram, sp := s.sp - 1, stepCycles := s.stepCycles + 3 } ∧
        StoresByte (stackAddr s.sp) v s t :=
    ⟨_, hi, by rw [push_eq]; rfl, (push_storesByte h).congr rfl rfl rfl rfl⟩
  refine ⟨pushed .pha _ rfl, pushed .php _ rfl, _, s.peek_stack (s.sp + 1), State.peek_congr rfl rfl, ?_, ?_⟩
  · simp only [exec, execPla, pull_eq, loadA_eq, setNZ_withNZ]
    rfl
  · simp only [exec, execPlp, pull_eq, loadP_eq]
    rfl

/-! ## Binary addition and subtraction (10_state.md R31, R32) -/

/-- Settles O34: the three are `AddWithCarry` of the operand or of its complement, and the read changes devices only. -/
theorem addAndSubtractWithCarry : Obligations.AddAndSubtractWithCarry := by
  intro s o b
  refine ⟨State.peek_congr rfl rfl, ?_, ?_, ?_⟩
  · simp only [exec, execAdc, withRead, addWithCarry_eq, readOperand_withDevices, readOperand_a, readOperand_p,
      State.addCycles, readOperand_stepCycles]
  · simp only [exec, execSbc, withRead, subtractWithCarry_eq, readOperand_withDevices, readOperand_a, readOperand_p,
      State.addCycles, readOperand_stepCycles]
  · simp only [exec, execUsbc, subtractWithCarry_eq]
    rfl

end Sys2Proof.Machine

/-! # The statements of 20_memory.md

The refusal of a step against the silicon's table of dummy accesses, the invariant along steps and resets, and what a
bus access does in each range of the address decode: work RAM, program space, the picture unit's registers, undriven
addresses. -/

namespace Sys2Proof.Machine

/-! ## When a step runs (70_reset_and_hazards.md R380, R381) -/

theorem running_iff {s : State} : s.running = true ↔ s.halted = false ∧ s.refused = false := by
  simp [State.running]

/-- Why the step of a running machine is refused, if it is. -/
def stepRefusal (p : Params) (s : State) : Option Refusal :=
  if entryRefused (pollInterrupt p s) s.pc then some .dummyAccessSideEffect
  else refusalOf p (fetch (beginStep p s)).1 (fetch (beginStep p s)).2

/-- A running machine whose step is refused stays as it was but for the mark. -/
theorem stepReport_of_refusal {p : Params} {s : State} {r : Refusal} (hrun : s.running = true)
    (h : stepRefusal p s = some r) : stepReport p s = (.refused r, { s with refused := true }) := by
  obtain ⟨hhalted, hrefused⟩ := running_iff.1 hrun
  unfold stepRefusal at h
  unfold stepReport
  simp only [hhalted, hrefused, Bool.false_eq_true, if_false]
  split at h
  next hentry => rw [if_pos hentry]; cases h; rfl
  next hentry => rw [if_neg hentry, h]

/-- A running machine whose step is not refused runs it: every instruction answers a next state. -/
theorem stepReport_of_no_refusal {p : Params} {s : State} (hrun : s.running = true) (h : stepRefusal p s = none) :
    ∃ k t, stepReport p s = (.ran k, t) := by
  obtain ⟨hhalted, hrefused⟩ := running_iff.1 hrun
  obtain ⟨u, hu⟩ := exec_next (fetch (beginStep p s)).1 (fetch (beginStep p s)).2
  unfold stepRefusal at h
  split at h
  next => simp at h
  next hentry =>
    unfold stepReport
    simp only [hhalted, hrefused, Bool.false_eq_true, if_false, hentry, h, hu]
    exact ⟨_, _, rfl⟩

theorem stepReport_ran_iff {p : Params} {s : State} (hrun : s.running = true) :
    (∃ k t, stepReport p s = (.ran k, t)) ↔ stepRefusal p s = none := by
  cases h : stepRefusal p s with
  | none => simp [stepReport_of_no_refusal hrun h]
  | some r => simp [stepReport_of_refusal hrun h]

/-- A step that did not run leaves the memories and devices alone. -/
theorem stepReport_not_ran {p : Params} {s : State} (h : ¬ ∃ k t, stepReport p s = (.ran k, t)) :
    ∃ b, (stepReport p s).2 = { s with refused := b } := by
  by_cases hrun : s.running = true
  · cases hr : stepRefusal p s with
    | none => exact absurd (stepReport_of_no_refusal hrun hr) h
    | some r => exact ⟨true, by rw [stepReport_of_refusal hrun hr]⟩
  · refine ⟨s.refused, ?_⟩
    unfold stepReport
    split
    · rfl
    · next hrefused =>
      rw [if_pos (by simpa [State.running, hrefused] using hrun)]

/-! ## The refusal rules against their tables

The dummy accesses of 20_memory.md R64 and R65, `JSR` over its own operand (42_control_flag.md R212), the `SH` family
(43_undocumented.md R270). -/

/-- The poll takes an interrupt when an NMI is pending or the sampled request is not masked. -/
theorem pollInterrupt_isSome (p : Params) (s : State) :
    (pollInterrupt p s).isSome = (s.nmiPending || (!ipoll p s && s.irqLine)) := by
  unfold pollInterrupt
  cases s.nmiPending with
  | true => rfl
  | false => cases !ipoll p s && s.irqLine <;> rfl

theorem pageOf_eq_iff (a b : Word) : pageOf a = pageOf b ↔ differentPage a b = false := by
  rw [← BitVec.toNat_inj, pageOf_toNat, pageOf_toNat, differentPage, bne_eq_false_iff_eq]
  omega

theorem pageCrossed_eq (o : Operand) (s : State) :
    pageCrossed o s = differentPage (baseAddress o s) (effectiveAddress o s) := by
  rw [pageCrossed, Bool.eq_iff_iff, bne_iff_ne, ne_eq, pageOf_eq_iff, Bool.not_eq_false]

theorem unfixedAddress_toNat (o : Operand) (s : State) :
    (unfixedAddress o s).toNat = unfixed (baseAddress o s) (effectiveAddress o s) :=
  inPage_toNat _ _

/-- Only a form that adds an index to its base can leave the base's page. -/
theorem readDummies_toNat (o : Operand) (s : State) :
    (readDummies o s).map BitVec.toNat = formDummyReads o false s := by
  cases o with
  | absx w | absy w | indy b =>
    simp only [readDummies, zeroPageDummies, formDummyReads, pageCrossed_eq, List.nil_append, Bool.false_or]
    split
    · simp [unfixedAddress_toNat]
    · rfl
  | acc | imm b | zp b | abs w => simp [readDummies, zeroPageDummies, formDummyReads, pageCrossed, effectiveAddress]
  | zpx b | zpy b | indx b =>
    simp [readDummies, zeroPageDummies, formDummyReads, pageCrossed, effectiveAddress, zext_toNat]

theorem writeDummies_toNat (o : Operand) (s : State) :
    (writeDummies o s).map BitVec.toNat = formDummyReads o true s := by
  cases o with
  | absx w | absy w | indy b => simp [writeDummies, formDummyReads, unfixedAddress_toNat]
  | acc | imm b | zp b | abs w => rfl
  | zpx b | zpy b | indx b => simp [writeDummies, zeroPageDummies, formDummyReads, zext_toNat]

theorem branchDummies_toNat (cond : Bool) (d : Byte) (s : State) :
    (branchDummies cond d s).map BitVec.toNat = branchDummyReads cond d s := by
  cases cond with
  | false => rfl
  | true =>
    simp only [branchDummies, branchDummyReads, if_true, List.map_cons, List.cons.injEq, true_and, pageOf_eq_iff]
    cases differentPage s.pc (branchTarget d s) with
    | false => rfl
    | true => simp [unfixed, inPage_toNat]

/-- The address a return pulls, from work RAM. -/
theorem pullWord_toNat (s : State) :
    (pullWord s).1.toNat = (s.ram.get (0x100 + (s.sp.toNat + 1) % 256)).toNat +
      256 * (s.ram.get (0x100 + (s.sp.toNat + 2) % 256)).toNat := by
  have hlo : (s.sp + 1).toNat = (s.sp.toNat + 1) % 256 := by rw [BitVec.toNat_add]; rfl
  have hhi : (s.sp + 1 + 1).toNat = (s.sp.toNat + 2) % 256 := by
    rw [BitVec.toNat_add, hlo, show (1 : Byte).toNat = 1 from rfl]; omega
  rw [pullWord_eq, mkWord_toNat, hlo, hhi]
  omega

/-- The dummy reads the refusal looks at are the silicon's. -/
theorem dummyReads_toNat (i : Instr) (s : State) : (dummyReads i s).map BitVec.toNat = siliconReads i s := by
  cases i with
  | lda _ | ldx _ | ldy _ | adc _ | sbc _ | and _ | ora _ | eor _ | bit _ | cmp _ | cpx _ | cpy _ | nopRead _ _ | lax _
  | las _ => exact readDummies_toNat _ s
  | shx w | tas w => exact writeDummies_toNat (.absy w) s
  | shy w => exact writeDummies_toNat (.absx w) s
  | sta _ | stx _ | sty _ | sax _ | sha _ | inc _ | dec _ | asl _ | lsr _ | rol _ | ror _ | slo _
  | rla _ | sre _ | rra _ | dcp _ | isc _ => exact writeDummies_toNat _ s
  | bpl _ | bmi _ | bvc _ | bvs _ | bcc _ | bcs _ | bne _ | beq _ => exact branchDummies_toNat _ _ s
  | pla | plp | rti | jsr _ => simp [dummyReads, siliconReads, stackAddr_toNat]
  | rts => simp [dummyReads, siliconReads, stackAddr_toNat, pullWord_toNat]
  | tax | tay | txa | tya | tsx | txs | pha | php | inx | iny | dex | dey | clc | sec | cli | sei | cld | sed | clv
  | nop | nopImp _ | jam _ | brk | jmp _ | nopImm _ _ | anc _ _ | alr _ | arr _ | axs _ | usbc _ | xaa _ | lxa _ => rfl

/-- The dummy writes the refusal looks at are the silicon's. -/
theorem dummyWrites_toNat (i : Instr) (s : State) : (dummyWrites i s).map BitVec.toNat = siliconWrites i s := by
  have form (o : Operand) : (rmwDummies o s).map BitVec.toNat =
      if o.mode = .acc ∨ o.mode = .imm then [] else [(effectiveAddress o s).toNat] := by
    cases o <;> rfl
  cases i with
  | inc _ | dec _ | asl _ | lsr _ | rol _ | ror _ | slo _ | rla _ | sre _ | rra _ | dcp _ | isc _ => exact form _
  | _ => rfl

/-- A list of addresses misses a set when its numbers do. -/
theorem any_eq_false_iff_toNat (l : List Word) (f : Word → Bool) :
    l.any f = false ↔ ∀ a : Word, a.toNat ∈ l.map BitVec.toNat → f a = false := by
  simp [List.any_eq_false, BitVec.toNat_inj]

theorem dummySideEffect_eq_false (i : Instr) (s : State) :
    dummySideEffect i s = false ↔
      (∀ a : Word, a.toNat ∈ siliconReads i s → seRead a = false) ∧
        ∀ a : Word, a.toNat ∈ siliconWrites i s → seWrite s.cart a = false := by
  rw [dummySideEffect, Bool.or_eq_false_iff, any_eq_false_iff_toNat, any_eq_false_iff_toNat, dummyReads_toNat,
    dummyWrites_toNat]

theorem ramCellOf_stackAddr (sp : Byte) : ramCellOf (stackAddr sp) = some (0x100 + sp.toNat) := by
  have := sp.isLt
  rw [ramCellOf, if_pos (by rw [stackAddr_toNat]; omega), ramCell_stackAddr]

theorem jsrOverwritten_eq_false (s : State) :
    jsrOverwritten s = false ↔ ((s.pc - 1).toNat < 0x2000 →
      (s.pc - 1).toNat % 0x800 ≠ 0x100 + s.sp.toNat ∧ (s.pc - 1).toNat % 0x800 ≠ 0x100 + (s.sp - 1).toNat) := by
  simp only [jsrOverwritten, ramCellOf_stackAddr, Bool.or_eq_false_iff, beq_eq_false_iff_ne]
  unfold ramCellOf
  split
  next h => simp only [h, ramCell, Option.some.injEq, ne_eq, forall_const]
  next h => simp only [h, ne_eq, reduceCtorEq, not_false_eq_true, and_self, false_imp_iff]

theorem unstable_eq_false (i : Instr) (s : State) :
    unstable i s = false ↔ ∀ o, highStoreOperand i = some o →
      differentPage (baseAddress o s) (effectiveAddress o s) = false := by
  have h : unstable i s = (highStoreOperand i).any (pageCrossed · s) := by cases i <;> rfl
  rw [h]
  cases highStoreOperand i <;> simp [pageCrossed_eq]

/-- The three refusal rules, each with its condition. -/
theorem refusalOf_eq_none (p : Params) (i : Instr) (s : State) :
    refusalOf p i s = none ↔ dummySideEffect i s = false ∧ (∀ w, i = .jsr w → jsrOverwritten s = false) ∧
      (p.shUnstable = .refuse → unstable i s = false) := by
  unfold refusalOf
  cases dummySideEffect i s with
  | true => simp
  | false =>
    simp only [Bool.false_eq_true, if_false, true_and]
    split
    next => simp [unstable]
    next hjsr hp =>
      simp only [hp, ite_eq_right_iff, reduceCtorEq, imp_false, Bool.not_eq_true, forall_const]
      exact ⟨fun h => ⟨fun w hw => absurd hw (hjsr w), h⟩, And.right⟩
    next hjsr hp =>
      simp only [hp, reduceCtorEq, false_imp_iff, and_true, true_iff]
      exact fun w hw => absurd hw (hjsr w)

theorem stepRefusal_eq_none (p : Params) (s : State) :
    stepRefusal p s = none ↔
      ¬ ((s.nmiPending || (!ipoll p s && s.irqLine)) = true ∧ seRead s.pc = true) ∧
        refusalOf p (fetch (beginStep p s)).1 (fetch (beginStep p s)).2 = none := by
  rw [← pollInterrupt_isSome, ← Bool.and_eq_true, ← entryRefused, stepRefusal]
  split
  next h => simp [h]
  next h => simp [h]

/-- Settles O9: a running machine's step runs unless it is refused, and every refusal rule is its table's. -/
theorem stepRunsUnlessRefusalRule : Obligations.StepRunsUnlessRefusalRule := by
  intro p s hrun
  simp only [stepReport_ran_iff hrun, stepRefusal_eq_none, refusalOf_eq_none, dummySideEffect_eq_false,
    jsrOverwritten_eq_false, unstable_eq_false, and_assoc]

/-! ## The invariant along steps and resets (20_memory.md R57, R60) -/

/-- What a step leaves has the invariant: a step that ran keeps it part by part. -/
theorem stepReport_wf {p : Params} {s : State} (h : s.wf = true) : (stepReport p s).2.wf = true := by
  by_cases hran : ∃ k t, stepReport p s = (.ran k, t)
  · obtain ⟨k, t, hr⟩ := hran
    obtain ⟨u, hu, ht, -⟩ := stepReport_ran hr
    rw [hr, ht]
    exact endStep_wf (exec_wf (fetch_wf (beginStep_wf h)) hu)
  · obtain ⟨b, hs⟩ := stepReport_not_ran hran
    rw [hs]
    exact h

/-- The next state of a step is the one its report leaves. -/
theorem stepWith_next {p : Params} {s t : State} (h : stepWith p s = .next t) : (stepReport p s).2 = t := by
  unfold stepWith at h
  split at h
  next hr => rw [hr]; exact Host.Outcome.next.inj h
  next hr => rw [hr]; exact Host.Outcome.next.inj h
  next => simp at h

/-- Settles O16: the next state is the one the step's report leaves. -/
theorem stepKeepsInvariant : Obligations.StepKeepsInvariant :=
  fun _ _ h hs => stepWith_next hs ▸ stepReport_wf h

/-- Every register and device in its reset state meets the invariant: the memories stay, the counters start anew. -/
theorem resetRegisters_wf {s : State} (h : s.wf = true) : (resetRegisters s).wf = true := by
  obtain ⟨⟨hram, hprgRam, hprgRom, hchr, hoam, hnametable, hpalette, hregs⟩, -⟩ := (wf_iff s).1 h
  exact (wf_iff _).2 ⟨⟨hram, hprgRam, hprgRom, hchr, hoam, hnametable, hpalette, Memory.wf_set hregs (by decide)⟩,
    rfl, rfl, rfl⟩

/-- Settles O17: after the registers a reset changes at most `PC`, and reads the vector. -/
theorem resetMeetsInvariant : Obligations.ResetMeetsInvariant := by
  refine ⟨by decide, fun p s h => ?_⟩
  have hreset := resetRegisters_wf h
  unfold resetWith
  cases p.entryPc with
  | some entry => exact hreset
  | none => exact read16_wf (a := vecReset) hreset

/-! ## The address decode (20_memory.md R56) -/

theorem busRead_device {a : Word} (s : State) (h : 0x2000 ≤ a.toNat) (h' : a.toNat < 0x6000) :
    busRead a s = readDevice a s := by
  have hpeek : s.peek a = none := by unfold State.peek; rw [if_neg (by omega), if_pos h']
  simp only [busRead, hpeek]

theorem busRead_picture {a : Word} (s : State) (h : 0x2000 ≤ a.toNat) (h' : a.toNat < 0x4000) :
    busRead a s = readPpu a s := by
  rw [busRead_device s h (by omega), readDevice, if_pos h']

theorem busWrite_device {a : Word} (v : Byte) (s : State) (h : 0x2000 ≤ a.toNat) (h' : a.toNat < 0x6000) :
    busWrite a v s = writeDevice a v s := by
  rw [busWrite, if_neg (by omega), if_pos h']

theorem busWrite_picture {a : Word} (v : Byte) (s : State) (h : 0x2000 ≤ a.toNat) (h' : a.toNat < 0x4000) :
    busWrite a v s = writePpu a v s := by
  rw [busWrite_device v s h (by omega), writeDevice, if_pos h']

theorem busWrite_programRam {a : Word} (v : Byte) (s : State) (h : 0x6000 ≤ a.toNat) (h' : a.toNat < 0x8000) :
    busWrite a v s = { s with cart := { s.cart with prgRam := s.cart.prgRam.set (prgRamOffset a) v } } := by
  rw [busWrite, if_neg (by omega), if_neg (by omega), if_pos h']

theorem busWrite_program {a : Word} (v : Byte) (s : State) (h : 0x8000 ≤ a.toNat) :
    busWrite a v s = { s with cart := s.cart.mapperWrite a v } := by
  rw [busWrite, if_neg (by omega), if_neg (by omega), if_neg (by omega)]

/-- A program address reads the byte of program ROM at its offset, with no side effect. -/
theorem busRead_program {a : Word} {offset : Nat} (s : State) (h : 0x8000 ≤ a.toNat)
    (hoffset : s.cart.prgOffset a = offset) : busRead a s = (s.cart.prgRom.get offset, s) :=
  hoffset ▸ busRead_of_peek (s.peek_rom h)

/-- `$4018` to `$5FFF` take nothing. -/
theorem busWrite_unused {a : Word} (v : Byte) (s : State) (h : 0x4017 < a.toNat) (h' : a.toNat < 0x6000) :
    busWrite a v s = s := by
  rw [busWrite_device v s (by omega) h']
  unfold writeDevice
  iterate 6 rw [if_neg (by omega)]

theorem Cart.mapperWrite_fixed {c : Cart} (a : Word) (v : Byte) (h : c.mapper = .fixed) : c.mapperWrite a v = c := by
  simp only [Cart.mapperWrite, h]

/-! ## Work RAM (20_memory.md R57) -/

/-- The low eleven address bits select the cell. -/
theorem and_mask_eq_ramCell (a : Word) : a.toNat &&& 0x07FF = ramCell a := Nat.and_two_pow_sub_one_eq_mod a.toNat 11

/-- Settles O22: read after write in the canonical memory, cell by cell. -/
theorem workRamMirrors : Obligations.WorkRamMirrors := by
  intro s a v hwf ha
  simp only [and_mask_eq_ramCell]
  refine ⟨busRead_ramAddr s ha, ?_, busWrite_storesByte hwf, fun b hb => ?_⟩
  · rw [busWrite_ramAddr v s ha]
  · rw [busRead_ramAddr _ hb, busRead_ramAddr _ hb, busWrite_ramAddr v s ha]
    exact Memory.get_set (State.wf.ram hwf)

/-! ## Program space (20_memory.md R60, R63; 60_exceptions.md R345 to R347) -/

/-- Settles O23: a write to program space goes to the mapper, which changes its registers only. -/
theorem romWritesDiscarded : Obligations.RomWritesDiscarded := by
  intro s a v ha
  rw [busWrite_program v s ha]
  obtain ⟨_, _, _, _, _, _, _, hmapper⟩ := mapperWrite_frame s.cart a v
  refine ⟨fun hfixed => ?_, ?_, rfl, ?_⟩
  · rw [Cart.mapperWrite_fixed a v hfixed]
  · rw [hmapper]
  · rw [hmapper]

/-- Address bit 14 tells the two 16 KB windows apart: the lower one ends at `$BFFF`. -/
theorem Cart.prgOffset_eq {a : Word} (c : Cart) (h : 0x8000 ≤ a.toNat) :
    c.prgOffset a = c.prgBank (!decide (a.toNat < 0xC000)) % c.prgBanks * 0x4000 + a.toNat % 0x4000 := by
  have hbit : a.getLsbD 14 = !decide (a.toNat < 0xC000) := by
    have := a.isLt
    rw [BitVec.getLsbD, Nat.testBit_eq_decide_div_mod_eq, ← decide_not, decide_eq_decide]
    omega
  rw [Cart.prgOffset, hbit]

theorem Cart.prgMode_eq (c : Cart) : c.prgMode = c.control.toNat / 4 % 4 := by
  rw [Cart.prgMode, BitVec.extractLsb'_toNat, Nat.shiftRight_eq_div_pow]

/-- Banks 0 and 1 of the fixed mapping. -/
theorem Cart.prgBank_fixed {c : Cart} (upper : Bool) (h : c.mapper = .fixed) : c.prgBank upper = upper.toNat := by
  cases upper <;> simp [Cart.prgBank, h]

/-- Mode 2: bank 0 below, the selected bank above. -/
theorem Cart.prgBank_mode2 {c : Cart} (upper : Bool) (h : c.mapper = .shiftRegister) (hm : c.prgMode = 2) :
    c.prgBank upper = if upper then c.prg.toNat % 16 else 0 := by
  cases upper <;> simp [Cart.prgBank, h, hm]

/-- Mode 3: the selected bank below, the last bank above. -/
theorem Cart.prgBank_mode3 {c : Cart} (upper : Bool) (h : c.mapper = .shiftRegister) (hm : c.prgMode = 3) :
    c.prgBank upper = if upper then c.prgBanks - 1 else c.prg.toNat % 16 := by
  cases upper <;> simp [Cart.prgBank, h, hm]

/-- Modes 0 and 1: one 32 KB bank. -/
theorem Cart.prgBank_wide {c : Cart} (upper : Bool) (h : c.mapper = .shiftRegister) (hm : c.prgMode < 2) :
    c.prgBank upper = 2 * (c.prg.toNat % 16 / 2 % max 1 (c.prgBanks / 2)) + upper.toNat := by
  have : c.prgMode = 0 ∨ c.prgMode = 1 := by omega
  rcases this with hm | hm <;> simp [Cart.prgBank, h, hm]

/-- Settles O55: the offset of the bank in its window, mapper by mapper and mode by mode. -/
theorem programWindows : Obligations.ProgramWindows := by
  intro s a ha hbanks
  have hlt := a.isLt
  simp only [← Cart.prgMode_eq]
  refine ⟨fun h hone => busRead_program s ha ?_, fun h htwo => busRead_program s ha ?_,
    fun h hm => busRead_program s ha ?_, fun h hm => busRead_program s ha ?_,
    fun h hm heven => busRead_program s ha ?_⟩ <;> rw [Cart.prgOffset_eq _ ha]
  · rw [hone, Nat.mod_one, Nat.zero_mul, Nat.zero_add]
  · rw [Cart.prgBank_fixed _ h, htwo]
    by_cases hlower : a.toNat < 0xC000 <;> simp [hlower] <;> omega
  · rw [Cart.prgBank_mode2 _ h hm]
    by_cases hlower : a.toNat < 0xC000 <;> simp [hlower]
  · rw [Cart.prgBank_mode3 _ h hm]
    by_cases hlower : a.toNat < 0xC000 <;> simp [hlower]
  · have hhalf : 1 ≤ s.cart.prgBanks / 2 := by omega
    have hbank := Nat.mod_lt (s.cart.prg.toNat % 16 / 2) hhalf
    have hupper : (!decide (a.toNat < 0xC000)).toNat ≤ 1 := Bool.toNat_le _
    rw [Cart.prgBank_wide _ h hm, max_eq_right hhalf, Nat.mod_eq_of_lt (by omega)]
    by_cases hlower : a.toNat < 0xC000 <;> simp [hlower] <;> omega

/-! ## The picture unit's registers (20_memory.md R58, R74; 60_exceptions.md R333) -/

/-- The low three address bits select the register, so every eighth address is a mirror. -/
theorem pictureRegister_toNat (a : Word) : (a.extractLsb' 0 3).toNat = a.toNat % 8 := by
  rw [BitVec.extractLsb'_toNat, Nat.shiftRight_zero]

theorem readPpu_status {a : Word} (s : State) (h : a.toNat % 8 = 2) : readPpu a s = readPpuStatus s := by
  simp only [readPpu, pictureRegister_toNat, h]

theorem readPpu_oam {a : Word} (s : State) (h : a.toNat % 8 = 4) :
    readPpu a s = (s.ppu.oam.get s.ppu.oamAddr.toNat, s) := by
  simp only [readPpu, pictureRegister_toNat, h]

theorem readPpu_data {a : Word} (s : State) (h : a.toNat % 8 = 7) : readPpu a s = readPpuData s := by
  simp only [readPpu, pictureRegister_toNat, h]

theorem readPpu_writeOnly {a : Word} (s : State) (h : a.toNat % 8 ∈ [0, 1, 3, 5, 6]) :
    readPpu a s = readOpenBus s := by
  simp only [List.mem_cons, List.not_mem_nil, or_false] at h
  unfold readPpu
  rw [pictureRegister_toNat]
  rcases h with h | h | h | h | h <;> simp only [h]

/-- The flags are bits 7, 6 and 5 of the status byte. -/
theorem statusByte_flags (blank sprite0 overflow : Bool) (low : Byte) :
    (statusByte blank sprite0 overflow low).getLsbD 7 = blank ∧
      (statusByte blank sprite0 overflow low).getLsbD 6 = sprite0 ∧
      (statusByte blank sprite0 overflow low).getLsbD 5 = overflow := by
  simp only [statusByte, BitVec.getLsbD_append, BitVec.getLsbD_ofBool]
  simp

@[simp] theorem Ppu.tick_spritesKnown (u : Ppu) : u.tick.spritesKnown = false := by
  obtain ⟨_, _, _, _, h⟩ := u.tick_frame; rw [h]

/-- Settles O50: the read is that of the status register, whose byte holds the flags that the unit keeps. -/
theorem pictureStatusRead : Obligations.PictureStatusRead := by
  intro s a h h' hreg
  obtain ⟨h7, h6, h5⟩ := statusByte_flags s.ppu.blank s.spriteFlags.1 s.spriteFlags.2 (Config.openBus s.draws)
  rw [busRead_picture s h h', readPpu_status s hreg]
  refine ⟨h7, h6, h5, rfl, fun hknown => ?_, s.ppu.tick_spritesKnown, rfl⟩
  simp [readPpuStatus, State.spriteFlags, hknown]

/-- A write to any register but the data port changes the picture unit only. -/
theorem writePpu_frame {a : Word} (v : Byte) (s : State) (h : a.toNat % 8 ≠ 7) :
    writePpu a v s = { s with ppu := (writePpu a v s).ppu } := by
  have hreg : a.toNat % 8 = 0 ∨ a.toNat % 8 = 1 ∨ a.toNat % 8 = 2 ∨ a.toNat % 8 = 3 ∨ a.toNat % 8 = 4 ∨
      a.toNat % 8 = 5 ∨ a.toNat % 8 = 6 := by omega
  rcases hreg with hr | hr | hr | hr | hr | hr | hr <;> simp only [writePpu, pictureRegister_toNat, hr]

theorem writePpu_data {a : Word} (v : Byte) (s : State) (h : a.toNat % 8 = 7) :
    writePpu a v s = writePpuData v s := by
  simp only [writePpu, pictureRegister_toNat, h]

theorem writePpu_oam {a : Word} (v : Byte) (s : State) (h : a.toNat % 8 = 4) :
    writePpu a v s = { s with ppu := s.ppu.writeOam v } := by
  simp only [writePpu, pictureRegister_toNat, h]

theorem writePpu_scroll {a : Word} (v : Byte) (s : State) (h : a.toNat % 8 = 5) :
    writePpu a v s = { s with ppu := s.ppu.writeScroll v } := by
  simp only [writePpu, pictureRegister_toNat, h]

theorem writePpu_addr {a : Word} (v : Byte) (s : State) (h : a.toNat % 8 = 6) :
    writePpu a v s = { s with ppu := s.ppu.writeAddr v } := by
  simp only [writePpu, pictureRegister_toNat, h]

/-- Graphics ROM discards a write. -/
theorem Cart.chrWrite_rom {c : Cart} (off : BitVec 13) (v : Byte) (h : 0 < c.chrBanks) : c.chrWrite off v = c := by
  rw [Cart.chrWrite, if_neg (by omega)]

/-- A graphics write changes the graphics memory only. -/
theorem Cart.chrWrite_frame (c : Cart) (off : BitVec 13) (v : Byte) :
    c.chrWrite off v = { c with chr := (c.chrWrite off v).chr } := by
  unfold Cart.chrWrite
  split <;> rfl

/-- Settles O51: each register by its number; the data port by the cell it addresses. -/
theorem pictureRegisterWrites : Obligations.PictureRegisterWrites := by
  intro s a v h h'
  simp only [busWrite_picture v s h h', busRead_picture s h h']
  refine ⟨fun hr => ?_, fun hr => ?_, fun hr => ?_, fun hr ht => ?_, fun hr ht => ?_, fun hr ht => ?_, fun hr ht => ?_,
    writePpu_frame v s, fun hr => ?_, fun hr => ?_⟩
  · simp only [writePpu, pictureRegister_toNat, hr]
  · simp only [writePpu, pictureRegister_toNat, hr]
  · simp only [writePpu, pictureRegister_toNat, hr]
  · simp [writePpu_scroll v s hr, Ppu.writeScroll, ht]
  · simp [writePpu_scroll v s hr, Ppu.writeScroll, ht]
  · simp [writePpu_addr v s hr, Ppu.writeAddr, ht]
  · simp [writePpu_addr v s hr, Ppu.writeAddr, ht]
  · rw [writePpu_oam v s hr]
    refine ⟨rfl, fun hwf i => ?_, readPpu_oam s hr⟩
    obtain ⟨⟨-, -, -, -, hoam, -⟩, -⟩ := (wf_iff s).1 hwf
    simp only [Ppu.writeOam, Memory.get_set hoam, BitVec.toNat_inj]
  · rw [writePpu_data v s hr, readPpu_data s hr, writePpuData, readPpuData]
    cases Config.ppuTarget s.draws with
    | nametable i =>
      refine ⟨rfl, fun hwf j => ?_, rfl⟩
      obtain ⟨⟨-, -, -, -, -, hnametable, -⟩, -⟩ := (wf_iff s).1 hwf
      simp only [State.setPpuCell, Memory.get_set hnametable, BitVec.toNat_inj]
    | palette i =>
      refine ⟨rfl, fun hwf j => ?_, rfl, rfl⟩
      obtain ⟨⟨-, -, -, -, -, -, hpalette, -⟩, -⟩ := (wf_iff s).1 hwf
      simp only [State.setPpuCell, Memory.get_set hpalette, BitVec.toNat_inj]
    | graphics off =>
      refine ⟨?_, fun hrom => ?_, fun hwf hram n => ?_, rfl⟩
      · simp only [State.setPpuCell]; rw [Cart.chrWrite_frame]
      · simp only [State.setPpuCell, Cart.chrWrite_rom off v hrom]
      · obtain ⟨⟨-, -, -, hchr, -⟩, -⟩ := (wf_iff s).1 hwf
        simp only [State.setPpuCell, Cart.chrWrite, hram, if_true, Memory.get_set hchr]

/-! ## Undriven addresses and side effects (20_memory.md R61, R62) -/

/-- From `$4000` on only `$4015`, `$4016` and `$4017` drive a device read. -/
theorem readDevice_undriven {a : Word} (s : State) (h : 0x4000 ≤ a.toNat) (h' : a.toNat ≤ 0x4014 ∨ 0x4018 ≤ a.toNat) :
    readDevice a s = readOpenBus s := by
  unfold readDevice
  iterate 4 rw [if_neg (by omega)]

/-- An address no device drives reads as the next draw of `OPEN_BUS`. -/
theorem busRead_undriven (s : State) (a : Word)
    (h : (0x4018 ≤ a.toNat ∧ a.toNat < 0x6000) ∨ (0x4000 ≤ a.toNat ∧ a.toNat ≤ 0x4014) ∨
      (0x2000 ≤ a.toNat ∧ a.toNat < 0x4000 ∧ a.toNat % 8 ∈ [0, 1, 3, 5, 6])) : busRead a s = readOpenBus s := by
  obtain ⟨hlo, hhi⟩ | ⟨hlo, hhi⟩ | ⟨hlo, hhi, hreg⟩ := h
  · rw [busRead_device s (by omega) hhi, readDevice_undriven s (by omega) (.inr hlo)]
  · rw [busRead_device s (by omega) (by omega), readDevice_undriven s hlo (.inl hhi)]
  · rw [busRead_picture s hlo hhi, readPpu_writeOnly s hreg]

/-- Settles O24: what reading open bus is. -/
theorem openBusReads : Obligations.OpenBusReads := busRead_undriven

theorem seRead_iff (a : Word) : seRead a = true ↔
    (0x2000 ≤ a.toNat ∧ a.toNat < 0x4000 ∧ (a.toNat % 8 = 2 ∨ a.toNat % 8 = 7)) ∨
      a.toNat = 0x4015 ∨ a.toNat = 0x4016 ∨ a.toNat = 0x4017 := by
  simp only [seRead, Bool.or_eq_true, Bool.and_eq_true, decide_eq_true_eq, beq_iff_eq, ← BitVec.toNat_inj,
    pictureRegister_toNat, BitVec.reduceToNat]
  omega

theorem seWrite_iff (c : Cart) (a : Word) : seWrite c a = true ↔
    (0x2000 ≤ a.toNat ∧ a.toNat ≤ 0x4017) ∨ (c.mapper = .shiftRegister ∧ 0x8000 ≤ a.toNat) := by
  simp only [seWrite, Bool.or_eq_true, Bool.and_eq_true, decide_eq_true_eq, beq_iff_eq]

/-- Work RAM, program RAM and program ROM hold a byte at every address. -/
theorem State.peek_storage {a : Word} (s : State) (h : a.toNat < 0x2000 ∨ 0x6000 ≤ a.toNat) :
    ∃ v, s.peek a = some v := by
  unfold State.peek
  split
  · exact ⟨_, rfl⟩
  · rw [if_neg (by omega)]
    split <;> exact ⟨_, rfl⟩

/-- A read outside `SE_read` reads storage, the OAM byte, or an undriven address. -/
theorem busRead_of_not_seRead {a : Word} (s : State) (h : seRead a = false) :
    (busRead a s).2 = { s with draws := (busRead a s).2.draws } := by
  have hnot := mt (seRead_iff a).2 (by simp [h])
  by_cases hstorage : a.toNat < 0x2000 ∨ 0x6000 ≤ a.toNat
  · obtain ⟨v, hv⟩ := s.peek_storage hstorage
    rw [busRead_of_peek hv]
  · by_cases hoam : a.toNat < 0x4000 ∧ a.toNat % 8 = 4
    · rw [busRead_picture s (by omega) hoam.1, readPpu_oam s hoam.2]
    · rw [busRead_undriven s a (by simp only [List.mem_cons, List.not_mem_nil, or_false]; omega)]
      rfl

/-- A write outside `SE_write` stores a byte of work RAM or program RAM, or does nothing. -/
theorem busWrite_of_not_seWrite {a : Word} (v : Byte) (s : State) (h : seWrite s.cart a = false) :
    let t := busWrite a v s
    t = { s with ram := t.ram, cart := { s.cart with prgRam := t.cart.prgRam } } ∧
      (0x2000 ≤ a.toNat → t.ram = s.ram) ∧ (a.toNat < 0x6000 ∨ 0x8000 ≤ a.toNat → t.cart = s.cart) := by
  have hnot := mt (seWrite_iff s.cart a).2 (by simp [h])
  by_cases hram : a.toNat < 0x2000
  · rw [busWrite_ramAddr v s hram]
    exact ⟨rfl, fun _ => by omega, fun _ => rfl⟩
  · by_cases hdevice : a.toNat < 0x6000
    · rw [busWrite_unused v s (by omega) hdevice]
      exact ⟨rfl, fun _ => rfl, fun _ => rfl⟩
    · by_cases hprg : a.toNat < 0x8000
      · rw [busWrite_programRam v s (by omega) hprg]
        exact ⟨rfl, fun _ => rfl, fun _ => by omega⟩
      · have hfixed : s.cart.mapper = .fixed := by
          cases hm : s.cart.mapper with
          | fixed => rfl
          | shiftRegister => exact absurd (.inr ⟨hm, by omega⟩) hnot
        rw [busWrite_program v s (by omega), Cart.mapperWrite_fixed a v hfixed]
        exact ⟨rfl, fun _ => rfl, fun _ => rfl⟩

/-- Settles O25: both sets by their addresses, and what an access outside them reaches. -/
theorem readsWithSideEffects : Obligations.ReadsWithSideEffects :=
  fun s a v => ⟨seRead_iff a, busRead_of_not_seRead s, seWrite_iff s.cart a, busWrite_of_not_seWrite v s⟩

/-! ## Words (20_memory.md R51, R52, R55) -/

/-- Settles O26: the second address is the first plus one, modulo `$10000`. -/
theorem wordsAreLittleEndian : Obligations.WordsAreLittleEndian := by
  intro s a a' ha
  have hnext : a' = a + 1 := BitVec.eq_of_toNat_eq (by rw [ha, BitVec.toNat_add]; rfl)
  rw [hnext, read16]
  exact ⟨by rw [mkWord_toNat]; omega, rfl⟩

end Sys2Proof.Machine

/-! # The statements of 30_encoding.md

The opcode map against the mnemonics' opcodes: every entry's instructions encode to its opcode, and every well-formed
instruction is of an entry. The decoder and the fetch are then said once, by entry; the two round trips, the totality
and the step follow. The cycles of an instruction compare each list of opcodes with the tables, form by form. -/

namespace Sys2Proof

/-! ## The opcode map holds the instructions that encode to it (R109, R111) -/

/-- The bytes of a well-formed instruction are the opcode and these operand bytes, and the two marks of an undocumented
encoding agree on it. -/
structure HasBytes (i : Instr) (op : Byte) (operands : List Byte) : Prop where
  wellFormed : i.wellFormed = true
  encode_eq : encode i = op :: operands
  documented_eq : documented op = i.documented

/-- The instructions of an opcode's entry have that opcode, and the operand bytes of the entry's format. -/
def OpcodeEntry.Encodes (op : Byte) : OpcodeEntry → Prop
  | .imp i => HasBytes i op []
  | .byte f => ∀ b, HasBytes (f b) op [b]
  | .word f => ∀ w, HasBytes (f w) op (wordBytes w)

/-- Entries listed by rising opcode, the first of them at `n`, encode to their opcodes. -/
def EntriesEncode : Nat → List OpcodeEntry → Prop
  | _, [] => True
  | n, e :: es => e.Encodes (BitVec.ofNat 8 n) ∧ EntriesEncode (n + 1) es

/-- Rows of 16 entries, the first of them at opcode `n`, encode to their opcodes. -/
def RowsEncode : Nat → List (List OpcodeEntry) → Prop
  | _, [] => True
  | n, row :: rows => row.length = 16 ∧ EntriesEncode n row ∧ RowsEncode (n + 16) rows

theorem EntriesEncode.getD {es : List OpcodeEntry} {n : Nat} (h : EntriesEncode n es) (d : OpcodeEntry) {k : Nat}
    (hk : k < es.length) : (es.getD k d).Encodes (BitVec.ofNat 8 (n + k)) := by
  induction es generalizing n k with
  | nil => exact absurd hk (Nat.not_lt_zero k)
  | cons e es ih =>
    cases k with
    | zero => exact h.1
    | succ k =>
      have hnext := ih h.2 (Nat.lt_of_succ_lt_succ hk)
      rwa [Nat.add_assoc, Nat.add_comm 1 k] at hnext

theorem RowsEncode.getD {rows : List (List OpcodeEntry)} {n : Nat} (h : RowsEncode n rows) (d : OpcodeEntry) {r k : Nat}
    (hr : r < rows.length) (hk : k < 16) : ((rows.getD r []).getD k d).Encodes (BitVec.ofNat 8 (n + 16 * r + k)) := by
  induction rows generalizing n r with
  | nil => exact absurd hr (Nat.not_lt_zero r)
  | cons row rows ih =>
    obtain ⟨hlength, hrow, hrows⟩ := h
    cases r with
    | zero => exact hrow.getD d (hlength ▸ hk)
    | succ r =>
      have := ih hrows (Nat.lt_of_succ_lt_succ hr)
      rwa [Nat.add_right_comm n, Nat.add_assoc n, ← Nat.mul_succ] at this

/-- Entry by entry: whatever the operand, the instruction is well formed, encodes to the opcode, and is marked alike. -/
theorem opcodeMap_encodes : RowsEncode 0 opcodeMap := by
  simp only [opcodeMap, opcodeRow0, opcodeRow1, opcodeRow2, opcodeRow3, opcodeRow4, opcodeRow5, opcodeRow6, opcodeRow7,
    opcodeRow8, opcodeRow9, opcodeRowA, opcodeRowB, opcodeRowC, opcodeRowD, opcodeRowE, opcodeRowF, List.cons_append,
    List.nil_append, List.length_cons, List.length_nil, RowsEncode, EntriesEncode, OpcodeEntry.Encodes, true_and,
    and_true]
  and_intros <;> intros <;> exact ⟨rfl, rfl, rfl⟩

/-- The entry of an opcode holds instructions of that opcode. -/
theorem opcodeEntry_encodes (op : Byte) : (opcodeEntry op).Encodes op := by
  have hrow : op.toNat / 16 < opcodeMap.length := Nat.div_lt_of_lt_mul op.isLt
  have h := opcodeMap_encodes.getD (.imp .nop) hrow (Nat.mod_lt op.toNat (show 0 < 16 by decide))
  rwa [Nat.zero_add, Nat.div_add_mod, BitVec.ofNat_toNat, BitVec.setWidth_eq] at h

/-- What an entry gives for its operand bytes. -/
def OpcodeEntry.Gives (operands : List Byte) (i : Instr) : OpcodeEntry → Prop
  | .imp j => operands = [] ∧ j = i
  | .byte f => ∃ b, operands = [b] ∧ f b = i
  | .word f => ∃ w, operands = wordBytes w ∧ f w = i

theorem OpcodeEntry.Encodes.hasBytes {op : Byte} {e : OpcodeEntry} {operands : List Byte} {i : Instr}
    (h : e.Encodes op) (hi : e.Gives operands i) : HasBytes i op operands := by
  cases e with
  | imp j => obtain ⟨rfl, rfl⟩ := hi; exact h
  | byte f => obtain ⟨b, rfl, rfl⟩ := hi; exact h b
  | word f => obtain ⟨w, rfl, rfl⟩ := hi; exact h w

/-! ## Every well-formed instruction is in the opcode map -/

/-- The entry an addressing mode asks for, `none` for a mode of no data operand. -/
def operandEntry (c : Operand → Instr) : Mode → Option OpcodeEntry
  | .acc => some (.imp (c .acc))
  | .imm => some (.byte fun b => c (.imm b))
  | .zp => some (.byte fun b => c (.zp b))
  | .zpx => some (.byte fun b => c (.zpx b))
  | .zpy => some (.byte fun b => c (.zpy b))
  | .indx => some (.byte fun b => c (.indx b))
  | .indy => some (.byte fun b => c (.indy b))
  | .abs => some (.word fun w => c (.abs w))
  | .absx => some (.word fun w => c (.absx w))
  | .absy => some (.word fun w => c (.absy w))
  | .imp | .ind | .rel => none

theorem gives_of_operandEntry {c : Operand → Instr} {o : Operand} {e : OpcodeEntry}
    (h : some e = operandEntry c o.mode) : e.Gives o.bytes (c o) := by
  cases o with
  | acc => cases h; exact ⟨rfl, rfl⟩
  | imm b | zp b | zpx b | zpy b | indx b | indy b => cases h; exact ⟨b, rfl, rfl⟩
  | abs w | absx w | absy w => cases h; exact ⟨w, rfl, rfl⟩

/-- The instruction's bytes are an opcode and operand bytes for which the opcode's entry gives the instruction. -/
def InOpcodeMap (i : Instr) : Prop := ∃ op operands, encode i = op :: operands ∧ (opcodeEntry op).Gives operands i

theorem exists_lookup {codes : List (Mode × Byte)} {m : Mode} (h : m ∈ codes.map Prod.fst) :
    ∃ op, codes.lookup m = some op := by
  obtain ⟨p, hp, rfl⟩ := List.mem_map.1 h
  exact Option.isSome_iff_exists.1 (List.lookup_isSome_iff.2 ⟨p, hp, beq_self_eq_true p.1⟩)

theorem mem_of_lookup {codes : List (Mode × Byte)} {m : Mode} {op : Byte} (h : codes.lookup m = some op) :
    (m, op) ∈ codes := by
  obtain ⟨l, l', rfl, -⟩ := List.lookup_eq_some_iff.1 h
  simp

/-- A mnemonic whose opcodes have the entries of their modes is in the map in each form that has an opcode. -/
theorem inOpcodeMap_withOpcode {c : Operand → Instr} {codes : List (Mode × Byte)} {ms : List Mode} {o : Operand}
    (henc : encode (c o) = withOpcode codes o) (ho : o.is ms = true) (hms : ms ⊆ codes.map Prod.fst)
    (hc : (codes.map fun p => some (opcodeEntry p.2)) = codes.map fun p => operandEntry c p.1) : InOpcodeMap (c o) := by
  obtain ⟨op, hop⟩ := exists_lookup (hms (of_decide_eq_true ho))
  refine ⟨op, o.bytes, ?_, gives_of_operandEntry (List.map_inj_left.1 hc _ (mem_of_lookup hop))⟩
  rw [henc, withOpcode, hop]

/-- A mnemonic with several opcodes for one form has each of them in the map, under its own name. -/
theorem opcodeEntry_of_mem {ops : List Byte} {f : Byte → OpcodeEntry} {op : Byte} (h : ops.map opcodeEntry = ops.map f)
    (hop : op ∈ ops) : opcodeEntry op = f op :=
  List.map_inj_left.1 h op hop

theorem opcodeEntry_nopRead {op : Byte} {o : Operand} (h : op ∈ nopReadOpcodes o) :
    some (opcodeEntry op) = operandEntry (.nopRead op) o.mode := by
  cases o with
  | zp b => exact congrArg some (opcodeEntry_of_mem (f := fun op => .byte fun b => .nopRead op (.zp b)) rfl h)
  | zpx b => exact congrArg some (opcodeEntry_of_mem (f := fun op => .byte fun b => .nopRead op (.zpx b)) rfl h)
  | abs w => exact congrArg some (opcodeEntry_of_mem (f := fun op => .word fun w => .nopRead op (.abs w)) rfl h)
  | absx w => exact congrArg some (opcodeEntry_of_mem (f := fun op => .word fun w => .nopRead op (.absx w)) rfl h)
  | acc | imm _ | zpy _ | absy _ | indx _ | indy _ => exact absurd h List.not_mem_nil

/-- Every well-formed instruction is in the opcode map: each opcode of a mnemonic's list has the entry of its mode. -/
theorem wellFormed_inOpcodeMap {i : Instr} (h : i.wellFormed = true) : InOpcodeMap i := by
  cases i with
  | lda o | ldx o | ldy o | sta o | stx o | sty o | adc o | sbc o | and o | ora o | eor o | bit o | cmp o | cpx o
  | cpy o | inc o | dec o | asl o | lsr o | rol o | ror o | slo o | rla o | sre o | rra o | sax o | lax o | dcp o | isc o
  | sha o => exact inOpcodeMap_withOpcode rfl h (by decide) rfl
  | tax | tay | txa | tya | tsx | txs | pha | php | pla | plp | inx | iny | dex | dey | rts | rti | brk
  | clc | sec | cli | sei | cld | sed | clv | nop => exact ⟨_, _, rfl, rfl, rfl⟩
  | bpl d | bmi d | bvc d | bvs d | bcc d | bcs d | bne d | beq d | alr d | arr d | axs d | usbc d | xaa d | lxa d =>
    exact ⟨_, _, rfl, d, rfl, rfl⟩
  | jsr w | las w | shx w | shy w | tas w => exact ⟨_, _, rfl, w, rfl, rfl⟩
  | jmp t => cases t with | abs w | ind w => exact ⟨_, _, rfl, w, rfl, rfl⟩
  | jam op =>
    have hentry := opcodeEntry_of_mem (f := fun op => .imp (.jam op)) rfl (of_decide_eq_true h)
    exact ⟨op, [], rfl, hentry ▸ ⟨rfl, rfl⟩⟩
  | nopImp op =>
    have hentry := opcodeEntry_of_mem (f := fun op => .imp (.nopImp op)) rfl (of_decide_eq_true h)
    exact ⟨op, [], rfl, hentry ▸ ⟨rfl, rfl⟩⟩
  | nopImm op b =>
    have hentry := opcodeEntry_of_mem (f := fun op => .byte (.nopImm op)) rfl (of_decide_eq_true h)
    exact ⟨op, [b], rfl, hentry ▸ ⟨b, rfl, rfl⟩⟩
  | anc op b =>
    have hentry := opcodeEntry_of_mem (f := fun op => .byte (.anc op)) rfl (of_decide_eq_true h)
    exact ⟨op, [b], rfl, hentry ▸ ⟨b, rfl, rfl⟩⟩
  | nopRead op o => exact ⟨op, o.bytes, rfl, gives_of_operandEntry (opcodeEntry_nopRead (of_decide_eq_true h))⟩

/-! ## The decoder, by entry (R91, R118) -/

/-- How many operand bytes an entry reads. -/
def OpcodeEntry.operandCount : OpcodeEntry → Nat
  | .imp _ => 0
  | .byte _ => 1
  | .word _ => 2

theorem OpcodeEntry.operandCount_le (e : OpcodeEntry) : e.operandCount ≤ 2 := by
  cases e <;> simp [operandCount]

theorem OpcodeEntry.Gives.length_eq {e : OpcodeEntry} {operands : List Byte} {i : Instr} (h : e.Gives operands i) :
    operands.length = e.operandCount := by
  cases e with
  | imp j => obtain ⟨rfl, -⟩ := h; rfl
  | byte f => obtain ⟨b, rfl, -⟩ := h; rfl
  | word f => obtain ⟨w, rfl, -⟩ := h; rfl

theorem wordBytes_mkWord (hi lo : Byte) : wordBytes (mkWord hi lo) = [lo, hi] := by
  have hlo : loByte (mkWord hi lo) = lo := BitVec.extractLsb'_append_eq_right
  have hhi : hiByte (mkWord hi lo) = hi := BitVec.extractLsb'_append_eq_left
  rw [wordBytes, hlo, hhi]

/-- What the decoder reads is what the opcode's entry gives for the bytes after it. -/
theorem decode_cons_ok_iff {op : Byte} {bytes rest : List Byte} {i : Instr} :
    decode (op :: bytes) = .ok (i, rest) ↔
      ∃ operands, bytes = operands ++ rest ∧ (opcodeEntry op).Gives operands i := by
  cases h : opcodeEntry op with
  | imp j =>
    simp only [decode, h, OpcodeEntry.Gives, Except.ok.injEq, Prod.mk.injEq]
    exact ⟨fun ⟨hi, hrest⟩ => ⟨[], hrest, rfl, hi⟩, fun ⟨_, hrest, hnil, hi⟩ => ⟨hi, by rw [hrest, hnil]; rfl⟩⟩
  | byte f =>
    constructor
    · obtain _ | ⟨b, bytes⟩ := bytes
      · simp [decode, h]
      · simp only [decode, h, Except.ok.injEq, Prod.mk.injEq]
        rintro ⟨rfl, rfl⟩
        exact ⟨[b], rfl, b, rfl, rfl⟩
    · rintro ⟨_, rfl, b, rfl, rfl⟩
      simp [decode, h]
  | word f =>
    constructor
    · obtain _ | ⟨lo, _ | ⟨hi, bytes⟩⟩ := bytes
      · simp [decode, h]
      · simp [decode, h]
      · simp only [decode, h, Except.ok.injEq, Prod.mk.injEq]
        rintro ⟨rfl, rfl⟩
        exact ⟨[lo, hi], rfl, mkWord hi lo, (wordBytes_mkWord hi lo).symm, rfl⟩
    · rintro ⟨_, rfl, w, rfl, rfl⟩
      simp [decode, h, wordBytes, Machine.mkWord_hiByte_loByte]

/-- Bytes are no instruction exactly when they are fewer than the opcode's entry reads. -/
theorem decode_cons_error_iff {op : Byte} {bytes : List Byte} :
    (∃ e, decode (op :: bytes) = .error e) ↔ bytes.length < (opcodeEntry op).operandCount := by
  cases h : opcodeEntry op with
  | imp j => simp [decode, h, OpcodeEntry.operandCount]
  | byte f => cases bytes <;> simp [decode, h, OpcodeEntry.operandCount]
  | word f => obtain _ | ⟨lo, _ | ⟨hi, bytes⟩⟩ := bytes <;> simp [decode, h, OpcodeEntry.operandCount]

/-- Settles O1: a well-formed instruction is in the map at its own opcode, where the decoder finds it. -/
theorem decodeEncodeRoundTrip : Obligations.DecodeEncodeRoundTrip := by
  intro i rest h
  obtain ⟨op, operands, henc, hgives⟩ := wellFormed_inOpcodeMap h
  rw [henc, List.cons_append]
  exact decode_cons_ok_iff.2 ⟨operands, rfl, hgives⟩

/-- Settles O2: what the decoder reads is of the entry of its opcode, whose instructions encode to that opcode. -/
theorem encodeDecodeRoundTrip : Obligations.EncodeDecodeRoundTrip := by
  intro bytes i rest h
  cases bytes with
  | nil => cases h
  | cons op bytes =>
    obtain ⟨operands, rfl, hgives⟩ := decode_cons_ok_iff.1 h
    obtain ⟨hwf, henc, -⟩ := (opcodeEntry_encodes op).hasBytes hgives
    exact ⟨hwf, by rw [henc, List.cons_append]⟩

theorem tail_length_of_decode {op : Byte} {bytes tail : List Byte} {i : Instr}
    (h : decode (op :: bytes) = .ok (i, tail)) : bytes.length = (opcodeEntry op).operandCount + tail.length := by
  obtain ⟨operands, rfl, hgives⟩ := decode_cons_ok_iff.1 h
  rw [List.length_append, hgives.length_eq]

/-- A count over `n` rows of 16, row by row. -/
theorem countP_range_rows (p : Nat → Bool) (n : Nat) :
    (List.range (16 * n)).countP p =
      ((List.range n).map fun r => (List.range 16).countP fun k => p (16 * r + k)).sum := by
  induction n with
  | zero => rfl
  | succ n ih =>
    rw [Nat.mul_succ, List.range_add, List.countP_append, List.countP_map, ih, List.range_succ (n := n),
      List.map_append, List.sum_append]
    rfl

/-- Settles O3: the number of operand bytes is the entry's, at most two; the marks agree on every entry, and are counted
row by row. -/
theorem decoderTotal : Obligations.DecoderTotal := by
  refine ⟨?_, ?_, ⟨_, rfl⟩, ?_, ?_, ?_⟩
  · intro op b1 b2 rest
    cases h : decode (op :: b1 :: b2 :: rest) with
    | ok r => exact ⟨r.1, r.2, rfl⟩
    | error e =>
      have hshort := decode_cons_error_iff.1 ⟨e, h⟩
      have := (opcodeEntry op).operandCount_le
      simp only [List.length_cons] at hshort
      omega
  · intro op b1 b2 c1 c2 i j ti tj hi hj
    have hti := tail_length_of_decode hi
    have htj := tail_length_of_decode hj
    simp only [List.length_cons] at hti htj
    omega
  · intro op operands i unused h
    have hlen := tail_length_of_decode h
    rw [decode_cons_error_iff]
    simp only [List.length_cons, List.length_nil] at hlen ⊢
    omega
  · intro op operands i tail h
    obtain ⟨_, -, hgives⟩ := decode_cons_ok_iff.1 h
    exact ((opcodeEntry_encodes op).hasBytes hgives).documented_eq
  · exact (countP_range_rows _ 16).trans (by decide)

/-- Settles O4: each word is looked up in the opcode map. -/
theorem sampleWordsDecode : Obligations.SampleWordsDecode := ⟨rfl, rfl, rfl, rfl, rfl, rfl, rfl⟩

end Sys2Proof

namespace Sys2Proof.Machine

/-! ## The step runs what it fetches (R93; 70_reset_and_hazards.md R380) -/

/-- The fetch reads what the opcode's entry gives for the bytes at `PC`, and only moves `PC` past them. -/
theorem fetch_of_gives {op : Byte} {operands : List Byte} {i : Instr} {s : State}
    (hbytes : BytesAt s s.pc (op :: operands)) (hgives : (opcodeEntry op).Gives operands i) :
    fetch s = (i, s.setPc (s.pc + BitVec.ofNat 16 (op :: operands).length)) := by
  obtain ⟨hop, hrest⟩ := hbytes
  cases h : opcodeEntry op with
  | imp j =>
    obtain ⟨rfl, rfl⟩ := h ▸ hgives
    simp only [fetch, fetchByte_of_peek hop, h]
    rfl
  | byte f =>
    obtain ⟨b, rfl, rfl⟩ := h ▸ hgives
    obtain ⟨hb, -⟩ := hrest
    simp only [fetch, fetchByte_of_peek hop, h, fetchByte_of_peek (s := s.setPc (s.pc + 1)) hb]
    simp [State.setPc, BitVec.add_assoc]
  | word f =>
    obtain ⟨w, rfl, rfl⟩ := h ▸ hgives
    obtain ⟨hlo, hhi, -⟩ := hrest
    simp only [fetch, fetchByte_of_peek hop, h, fetchByte_of_peek (s := s.setPc (s.pc + 1)) hlo,
      fetchByte_of_peek (s := (s.setPc (s.pc + 1)).setPc (s.pc + 1 + 1)) hhi, State.setPc_pc, mkWord_hiByte_loByte]
    simp [State.setPc, BitVec.add_assoc, wordBytes]

theorem fetch_of_bytesAt {i : Instr} {s : State} (hwf : i.wellFormed = true) (hbytes : BytesAt s s.pc (encode i)) :
    fetch s = (i, s.setPc (s.pc + BitVec.ofNat 16 (encode i).length)) := by
  obtain ⟨op, operands, henc, hgives⟩ := wellFormed_inOpcodeMap hwf
  rw [henc] at hbytes ⊢
  exact fetch_of_gives hbytes hgives

/-- Settles O5: the fetch reads the instruction, no rule refuses the step, and a step that ran did what `exec` gives. -/
theorem stepRunsDecodedInstruction : Obligations.StepRunsDecodedInstruction := by
  intro i s t f hwf hrun hbytes hentry hrefusal
  have hfetch : fetch (beginStep params s) = (i, f) := fetch_of_bytesAt hwf hbytes
  have hnone : stepRefusal params s = none := by rw [stepRefusal, hentry, hfetch]; exact hrefusal
  obtain ⟨k, v, hreport⟩ := stepReport_of_no_refusal hrun hnone
  obtain ⟨u, hu, hv, -⟩ := stepReport_ran hreport
  rw [hfetch] at hu hv
  refine ⟨u, hu, ?_⟩
  rw [step, stepWith, hreport, hv]
  rfl

/-! ## Operands (R95 to R108) -/

/-- Settles O28: a form in memory is one bus read; storage at the address answers without a side effect. -/
theorem operandValues : Obligations.OperandValues := by
  intro s b o
  refine ⟨rfl, rfl, fun himm hacc => ?_⟩
  have hread : readOperand o s = busRead (effectiveAddress o s) s := by
    cases o with
    | imm b => exact absurd rfl himm
    | acc => exact absurd rfl hacc
    | zp _ | zpx _ | zpy _ | abs _ | absx _ | absy _ | indx _ | indy _ => rfl
  exact ⟨hread, fun v hv => hread.trans (busRead_of_peek hv)⟩

/-- A form that adds no index to its base stays in the base's page (R108). -/
theorem pageCrossed_of_eq_base {o : Operand} {s : State} (h : effectiveAddress o s = baseAddress o s) :
    pageCrossed o s = false := by
  rw [pageCrossed, h, bne_self_eq_false]

theorem add_zext_toNat (w : Word) (b : Byte) : (w + zext b).toNat = (w.toNat + b.toNat) % 65536 := by
  rw [BitVec.toNat_add, zext_toNat]

theorem pageCrossed_of_effectiveAddress {o : Operand} {s : State} {sum : Nat}
    (h : (effectiveAddress o s).toNat = sum % 65536) :
    pageCrossed o s = decide ((baseAddress o s).toNat / 256 ≠ sum % 65536 / 256) := by
  rw [pageCrossed_eq, differentPage, h, Bool.eq_iff_iff, bne_iff_ne, decide_eq_true_iff]

/-- The word at a zero-page pointer, its second byte wrapped within page zero (R103, R104). -/
theorem pointer_toNat (b : Byte) (s : State) : (pointer b s).toNat =
    (s.ram.get (b.toNat % 256)).toNat + 256 * (s.ram.get ((b.toNat + 1) % 256)).toNat := by
  rw [pointer_eq, mkWord_toNat, BitVec.toNat_add, Nat.mod_eq_of_lt b.isLt]
  exact (Nat.add_comm _ _).trans (congrArg _ (Nat.mul_comm _ _))

/-- Settles O27: the indexed absolute forms and `($nn),Y` add an index to a 16-bit base, the others are their base. -/
theorem effectiveAddresses : Obligations.EffectiveAddresses := by
  intro s b w ea cell x y crosses px indirect
  have hindx : (pointer (b + s.x) s).toNat = cell px + 256 * cell (px + 1) := by
    rw [pointer_toNat, BitVec.toNat_add, Nat.mod_mod, Nat.mod_add_mod]
  have hpointer : (pointer b s).toNat = indirect := pointer_toNat b s
  have hindy : ea (.indy b) = (indirect + y) % 65536 := by rw [← hpointer]; exact add_zext_toNat (pointer b s) s.y
  refine ⟨⟨zext_toNat b, ?_⟩, ⟨?_, ?_⟩, ⟨?_, ?_⟩, ⟨rfl, ?_⟩, ⟨add_zext_toNat w s.x, ?_⟩, ⟨add_zext_toNat w s.y, ?_⟩,
    ⟨hindx, ?_⟩, ⟨hindy, ?_⟩⟩
  · exact pageCrossed_of_eq_base rfl
  · exact (zext_toNat (b + s.x)).trans (BitVec.toNat_add b s.x)
  · exact pageCrossed_of_eq_base rfl
  · exact (zext_toNat (b + s.y)).trans (BitVec.toNat_add b s.y)
  · exact pageCrossed_of_eq_base rfl
  · exact pageCrossed_of_eq_base rfl
  · exact pageCrossed_of_effectiveAddress (add_zext_toNat w s.x)
  · exact pageCrossed_of_effectiveAddress (add_zext_toNat w s.y)
  · exact pageCrossed_of_eq_base rfl
  · exact (pageCrossed_of_effectiveAddress hindy).trans (by rw [baseAddress, hpointer])

/-! ## Jumps (R99, R105) -/

/-- Settles O39: the pointer's second address is the next one in the pointer's own page. -/
theorem jumpTargets : Obligations.JumpTargets := by
  intro s w w'
  refine ⟨rfl, fun hw => ?_⟩
  have hhigh : w' = indirectHigh w := by
    have hsucc : (w + 1).toNat = (w.toNat + 1) % 65536 := BitVec.toNat_add w 1
    apply BitVec.eq_of_toNat_eq
    rw [indirectHigh, inPage_toNat, hw, hsucc]
    omega
  subst hhigh
  intro lo hi
  have hdevices : s.withDevices hi.2 = hi.2 := busRead_busRead_withDevices w (indirectHigh w) s
  have hcycles : hi.2.stepCycles = s.stepCycles := jumpTarget_stepCycles (.ind w) s
  refine ⟨_, rfl, fun b => ?_, ?_⟩
  · exact (busRead_peek (indirectHigh w) b lo.2).trans (busRead_peek w b s)
  · rw [hdevices, ← hcycles]
    rfl

/-! ## The cycles of an instruction against the opcode map (R112 to R114) -/

/-- The base count of a read form (R112). -/
def readBase : Mode → Nat
  | .zp => 3
  | .zpx | .zpy | .abs | .absx | .absy => 4
  | .indx => 6
  | .indy => 5
  | .acc | .imm | .imp | .ind | .rel => 2

/-- The count of a store form (R112). -/
def writeBase : Mode → Nat
  | .zp => 3
  | .zpx | .zpy | .abs => 4
  | .absx | .absy => 5
  | .indx | .indy => 6
  | .acc | .imm | .imp | .ind | .rel => 2

/-- The count of a read-modify-write form (R112). -/
def rmwBase : Mode → Nat
  | .zp => 5
  | .zpx | .zpy | .abs => 6
  | .absx | .absy => 7
  | .indx | .indy => 8
  | .acc | .imm | .imp | .ind | .rel => 2

/-- The modes whose read takes a cycle more when the page is crossed (R113). -/
def penaltyModes : List Mode := [.absx, .absy, .indy]

/-- The tables give the opcode the cycles of a read in its mode: base count, and penalty where the mode has it. -/
def isReadCode (p : Mode × Byte) : Bool :=
  baseCycles p.2 == readBase p.1 && decide (p.2 ∈ penaltyOpcodes) == decide (p.1 ∈ penaltyModes)

/-- The tables give the opcode this count, and no penalty. -/
def isFixedCode (base : Mode → Nat) (p : Mode × Byte) : Bool :=
  baseCycles p.2 == base p.1 && !decide (p.2 ∈ penaltyOpcodes)

theorem readCycles_eq (o : Operand) (s : State) :
    readCycles o s = readBase o.mode + (decide (o.mode ∈ penaltyModes) && pageCrossed o s).toNat := by
  cases o <;> simp [readCycles, readBase, Operand.mode, penaltyModes]

theorem writeCycles_eq (o : Operand) : writeCycles o = writeBase o.mode := by cases o <;> rfl

theorem rmwCycles_eq (o : Operand) : rmwCycles o = rmwBase o.mode := by cases o <;> rfl

/-- A check of each opcode of a mnemonic's list holds of the opcode of its bytes. -/
theorem check_of_withOpcode {check : Mode × Byte → Bool} {codes : List (Mode × Byte)} {o : Operand} {op : Byte}
    {operands : List Byte} (hall : codes.all check = true) (henc : withOpcode codes o = op :: operands) :
    check (o.mode, op) = true := by
  unfold withOpcode at henc
  split at henc
  next c hc => exact (List.cons.inj henc).1 ▸ List.all_eq_true.1 hall _ (mem_of_lookup hc)
  next => cases henc

section
variable {i : Instr} {o : Operand} {op : Byte} {s : State}

theorem extraCycles_of_operand (hdata : dataOperand i = some o) (hbranch : branchOf s.p i = none) :
    extraCycles op i s = (decide (op ∈ penaltyOpcodes) && pageCrossed o s).toNat := by
  rw [extraCycles, hdata, hbranch, pageCrossed_eq]
  rfl

theorem readCycles_of_code (hcode : isReadCode (o.mode, op) = true) (hdata : dataOperand i = some o)
    (hbranch : branchOf s.p i = none) : readCycles o s = baseCycles op + extraCycles op i s := by
  simp only [isReadCode, Bool.and_eq_true, beq_iff_eq] at hcode
  obtain ⟨hbase, hpenalty⟩ := hcode
  rw [readCycles_eq, extraCycles_of_operand hdata hbranch, hbase, hpenalty]

theorem baseCycles_of_fixedCode {base : Mode → Nat} (hcode : isFixedCode base (o.mode, op) = true)
    (hdata : dataOperand i = some o) (hbranch : branchOf s.p i = none) :
    base o.mode = baseCycles op + extraCycles op i s := by
  simp only [isFixedCode, Bool.and_eq_true, beq_iff_eq, Bool.not_eq_true'] at hcode
  obtain ⟨hbase, hpenalty⟩ := hcode
  rw [extraCycles_of_operand hdata hbranch, hbase, hpenalty]
  rfl

theorem writeCycles_of_code (hcode : isFixedCode writeBase (o.mode, op) = true) (hdata : dataOperand i = some o)
    (hbranch : branchOf s.p i = none) : writeCycles o = baseCycles op + extraCycles op i s :=
  (writeCycles_eq o).trans (baseCycles_of_fixedCode hcode hdata hbranch)

theorem rmwCycles_of_code (hcode : isFixedCode rmwBase (o.mode, op) = true) (hdata : dataOperand i = some o)
    (hbranch : branchOf s.p i = none) : rmwCycles o = baseCycles op + extraCycles op i s :=
  (rmwCycles_eq o).trans (baseCycles_of_fixedCode hcode hdata hbranch)

/-- A branch: two cycles, one more when it is taken and another when the target is in another page (R114). -/
theorem branch_stepCycles_eq {c : Bool} {d : Byte} (hbase : baseCycles op = 2) (hdata : dataOperand i = none)
    (hbranch : branchOf s.p i = some (c, d)) :
    (branch c d s).stepCycles = s.stepCycles + (baseCycles op + extraCycles op i s) := by
  rw [hbase, extraCycles, hdata, hbranch]
  cases c with
  | false => rfl
  | true =>
    simp only [branch, if_true, pageOf_eq_iff]
    cases differentPage s.pc (branchTarget d s) <;> rfl

end

theorem isReadCode_nopRead {op : Byte} {o : Operand} (h : op ∈ nopReadOpcodes o) : isReadCode (o.mode, op) = true := by
  revert op
  cases o <;> (simp only [nopReadOpcodes, Operand.mode]; decide)

theorem isReadCode_immediate {op : Byte} (h : op ∈ nopImmOpcodes ++ ancOpcodes) : isReadCode (.imm, op) = true := by
  revert op; decide

theorem baseCycles_implied {op : Byte} (h : op ∈ jamOpcodes ++ nopImpOpcodes) : baseCycles op = 2 := by
  revert op; decide

theorem push_stepCycles (v : Byte) (s : State) : (push v s).stepCycles = s.stepCycles := by rw [push_eq]

theorem pull_stepCycles (s : State) : (pull s).2.stepCycles = s.stepCycles := by rw [pull_eq]; rfl

theorem pushWord_stepCycles (w : Word) (s : State) : (pushWord w s).stepCycles = s.stepCycles := by rw [pushWord_eq]

theorem pullWord_stepCycles (s : State) : (pullWord s).2.stepCycles = s.stepCycles := by rw [pullWord_eq]; rfl

theorem interruptReturn_stepCycles (s : State) : (interruptReturn s).stepCycles = s.stepCycles := by
  rw [interruptReturn_eq]

/-- Every instruction adds the cycles its opcode has in the tables. -/
theorem exec_cycles_next {i : Instr} {op : Byte} {operands : List Byte} (s : State) (hwf : i.wellFormed = true)
    (henc : encode i = op :: operands) :
    ∃ t, exec i s = .next t ∧ t.stepCycles = s.stepCycles + (baseCycles op + extraCycles op i s) := by
  cases i with
  | lda o | ldx o | ldy o | adc o | sbc o | and o | ora o | eor o | bit o | cmp o | cpx o | cpy o | lax o =>
    rw [← readCycles_of_code (check_of_withOpcode (by decide) henc) rfl rfl]
    exact ⟨_, rfl, withRead_stepCycles s fun _ _ => rfl⟩
  | nopRead code o =>
    cases henc
    rw [← readCycles_of_code (isReadCode_nopRead (of_decide_eq_true hwf)) rfl rfl]
    exact ⟨_, rfl, withRead_stepCycles s fun _ _ => rfl⟩
  | las w =>
    cases henc
    rw [← readCycles_of_code (o := .absy w) (show isReadCode (.absy, 0xBB) = true by decide) rfl rfl]
    exact ⟨_, rfl, withRead_stepCycles s fun _ _ => rfl⟩
  | sta o | stx o | sty o | sax o =>
    rw [← writeCycles_of_code (check_of_withOpcode (by decide) henc) rfl rfl]
    exact ⟨_, rfl, store_stepCycles o _ s⟩
  | sha o =>
    rw [← writeCycles_of_code (check_of_withOpcode (by decide) henc) rfl rfl]
    exact ⟨_, rfl, storeHigh_stepCycles o _ s⟩
  | shx w =>
    cases henc
    rw [← writeCycles_of_code (o := .absy w) (show isFixedCode writeBase (.absy, 0x9E) = true by decide) rfl rfl]
    exact ⟨_, rfl, storeHigh_stepCycles _ _ s⟩
  | shy w =>
    cases henc
    rw [← writeCycles_of_code (o := .absx w) (show isFixedCode writeBase (.absx, 0x9C) = true by decide) rfl rfl]
    exact ⟨_, rfl, storeHigh_stepCycles _ _ s⟩
  | tas w =>
    cases henc
    rw [← writeCycles_of_code (o := .absy w) (show isFixedCode writeBase (.absy, 0x9B) = true by decide) rfl rfl]
    exact ⟨_, rfl, storeHigh_stepCycles _ _ (s.setSp (s.a &&& s.x))⟩
  | inc o | dec o | asl o | lsr o | rol o | ror o | slo o | rla o | sre o | rra o | dcp o | isc o =>
    rw [← rmwCycles_of_code (check_of_withOpcode (by decide) henc) rfl rfl]
    exact ⟨_, rfl, readModifyWrite_stepCycles s (fun _ _ => rfl) fun _ _ => rfl⟩
  | bpl d | bmi d | bvc d | bvs d | bcc d | bcs d | bne d | beq d =>
    cases henc
    exact ⟨_, rfl, branch_stepCycles_eq rfl rfl rfl⟩
  | jmp t =>
    cases t with
    | abs w => cases henc; exact ⟨_, rfl, rfl⟩
    | ind w => cases henc; exact ⟨_, rfl, congrArg (· + 5) (jumpTarget_stepCycles (.ind w) s)⟩
  | pha | php => cases henc; exact ⟨_, rfl, congrArg (· + 3) (push_stepCycles _ s)⟩
  | pla | plp => cases henc; exact ⟨_, rfl, congrArg (· + 4) (pull_stepCycles s)⟩
  | jsr w => cases henc; exact ⟨_, rfl, congrArg (· + 6) (pushWord_stepCycles _ s)⟩
  | rts => cases henc; exact ⟨_, rfl, congrArg (· + 6) (pullWord_stepCycles s)⟩
  | rti => cases henc; exact ⟨_, rfl, congrArg (· + 6) (interruptReturn_stepCycles s)⟩
  | brk => cases henc; exact ⟨_, rfl, interruptEntry_stepCycles vecIrq true (s.setPc (s.pc + 1))⟩
  | tax | tay | txa | tya | tsx | txs | inx | iny | dex | dey | clc | sec | cli | sei | cld | sed | clv | nop
  | alr b | arr b | axs b | usbc b | xaa b | lxa b => cases henc; exact ⟨_, rfl, rfl⟩
  | nopImm code b =>
    cases henc
    have hcode := isReadCode_immediate (List.mem_append_left _ (of_decide_eq_true hwf))
    rw [← readCycles_of_code (o := .imm b) hcode rfl rfl]
    exact ⟨_, rfl, rfl⟩
  | anc code b =>
    cases henc
    have hcode := isReadCode_immediate (List.mem_append_right _ (of_decide_eq_true hwf))
    rw [← readCycles_of_code (o := .imm b) hcode rfl rfl]
    exact ⟨_, rfl, rfl⟩
  | jam code =>
    cases henc
    rw [baseCycles_implied (List.mem_append_left _ (of_decide_eq_true hwf))]
    exact ⟨_, rfl, rfl⟩
  | nopImp code =>
    cases henc
    rw [baseCycles_implied (List.mem_append_right _ (of_decide_eq_true hwf))]
    exact ⟨_, rfl, rfl⟩

/-- Settles O20: the instruction's next state has the cycles of its opcode. -/
theorem cyclesFollowOpcodeMap : Obligations.CyclesFollowOpcodeMap := by
  intro i s t op operands hwf henc he
  rw [Nat.add_assoc]
  exact of_exec_next (exec_cycles_next s hwf henc) he

end Sys2Proof.Machine

/-! # The statements of 40_load_store_transfer.md

A load, a transfer and a register increment write one register and then `SetNZ` of it; a store is one bus write. What each
of these leaves is said once, and every instruction of the group is one use of it. -/

namespace Sys2Proof.Machine

/-! ## Loads (R131 to R133, R259) -/

/-- `SetNZ` of the operand read: devices, `Z`, `N` and the cycles of a read form. -/
theorem withRead_setNZ (o : Operand) (s : State) :
    withRead o setNZ s =
      { s.withDevices (readOperand o s).2 with
        p := s.p.withNZ (readOperand o s).1, stepCycles := s.stepCycles + readCycles o s } := by
  simp only [withRead, setNZ_withNZ, State.setP, State.addCycles, readOperand_withDevices, readOperand_p,
    readOperand_stepCycles]

/-- Settles O29: a load is `SetNZ` of the operand read and a write of its register, in either order. -/
theorem loadsWriteRegisterAndZN : Obligations.LoadsWriteRegisterAndZN := by
  intro s o m u
  have loaded {i : Instr} (reg : State → State) (hi : exec i s = .next (reg (withRead o setNZ s))) :
      exec i s = .next (reg u) := by rw [hi, withRead_setNZ]
  exact ⟨State.peek_congr rfl rfl, loaded (State.setA m) rfl, loaded (State.setX m) rfl, loaded (State.setY m) rfl,
    loaded (fun t => (t.setA m).setX m) rfl⟩

/-! ## Stores (R134 to R136, R258) -/

/-- A store to an operand in memory is one bus write at the effective address, and the cycles of a store form. -/
theorem store_memory {o : Operand} (hacc : o.mode ≠ .acc) (himm : o.mode ≠ .imm) (v : Byte) (s : State) :
    store o v s =
      { s.withStore (busWrite (effectiveAddress o s) v s) with stepCycles := s.stepCycles + writeCycles o } := by
  rw [busWrite_withStore, store, writeOperand_memory hacc himm, State.addCycles, busWrite_stepCycles]

/-- Settles O30: each instruction is a store, and none of its forms is the accumulator or an immediate. -/
theorem storesWriteMemoryOnly : Obligations.StoresWriteMemoryOnly := by
  intro s o hs
  have stored {i : Instr} {v : Byte} {ms : List Mode} (hi : exec i s = .next (store o v s))
      (hforms : i.wellFormed = o.is ms) (hacc : .acc ∉ ms) (himm : .imm ∉ ms) (hwf : i.wellFormed = true) :
      ∃ t, exec i s = .next t ∧
        t = { s.withStore (busWrite (effectiveAddress o s) v s) with stepCycles := s.stepCycles + writeCycles o } ∧
        StoresByte (effectiveAddress o s) v s t := by
    have hform : o.is ms = true := hforms.symm.trans hwf
    have hstore := store_memory (Operand.mode_ne hform hacc) (Operand.mode_ne hform himm) v s
    refine ⟨_, hi, hstore, ?_⟩
    rw [hstore]
    exact (busWrite_storesByte hs).congr rfl rfl rfl rfl
  exact ⟨stored rfl rfl (by decide) (by decide), stored rfl rfl (by decide) (by decide),
    stored rfl rfl (by decide) (by decide), stored rfl rfl (by decide) (by decide)⟩

/-! ## Transfers and register increments (R137 to R142, R182 to R185) -/

theorem loadA_withNZ (v : Byte) (s : State) : loadA v s = { s with a := v, p := s.p.withNZ v } :=
  setNZ_withNZ v (s.setA v)

theorem loadX_withNZ (v : Byte) (s : State) : loadX v s = { s with x := v, p := s.p.withNZ v } :=
  setNZ_withNZ v (s.setX v)

theorem loadY_withNZ (v : Byte) (s : State) : loadY v s = { s with y := v, p := s.p.withNZ v } :=
  setNZ_withNZ v (s.setY v)

/-- Settles O31: each instruction but `TXS` loads one register with its result. -/
theorem registerTransfersAndIncrements : Obligations.RegisterTransfersAndIncrements := by
  intro s u
  have toA {i : Instr} {v : Byte} (hi : exec i s = .next ((loadA v s).addCycles 2)) :
      exec i s = .next { u with a := v, p := s.p.withNZ v } := by rw [hi, loadA_withNZ]; rfl
  have toX {i : Instr} {v : Byte} (hi : exec i s = .next ((loadX v s).addCycles 2)) :
      exec i s = .next { u with x := v, p := s.p.withNZ v } := by rw [hi, loadX_withNZ]; rfl
  have toY {i : Instr} {v : Byte} (hi : exec i s = .next ((loadY v s).addCycles 2)) :
      exec i s = .next { u with y := v, p := s.p.withNZ v } := by rw [hi, loadY_withNZ]; rfl
  exact ⟨toX rfl, toY rfl, toA rfl, toA rfl, toX rfl, rfl, toX rfl, toY rfl, toX rfl, toY rfl, State.peek_congr rfl rfl⟩

end Sys2Proof.Machine

/-! # The statements of 41_arith_logic.md

A read form changes devices and then writes at most `A` and `P`; a read-modify-write form that ends with `SetNZ` is one
read and one write of its result, in memory or in `A`, and then its flags. Each of the two shapes is said once, and every
instruction of the group is one use of it. -/

namespace Sys2Proof.Machine

/-! ## Read forms (R173 to R179) -/

/-- A read form whose computation writes at most `A` and `P`: devices, these two and the cycles of a read form. -/
theorem withRead_eq_of_writes {o : Operand} {f : Byte → State → State} {s : State} {r : Byte} {q : Flags}
    (hf : f (readOperand o s).1 (readOperand o s).2 = { (readOperand o s).2 with a := r, p := q }) :
    withRead o f s =
      { s.withDevices (readOperand o s).2 with a := r, p := q, stepCycles := s.stepCycles + readCycles o s } := by
  simp only [withRead, hf, State.addCycles, readOperand_withDevices, readOperand_stepCycles]

/-- The logic operations, `g` of `A` and the operand: the result in `A`, then `SetNZ` of it. -/
theorem withRead_logic (g : Byte → Byte → Byte) (o : Operand) (s : State) :
    withRead o (fun m t => loadA (g t.a m) t) s =
      { s.withDevices (readOperand o s).2 with
        a := g s.a (readOperand o s).1, p := s.p.withNZ (g s.a (readOperand o s).1),
        stepCycles := s.stepCycles + readCycles o s } :=
  withRead_eq_of_writes (by rw [loadA_withNZ, readOperand_a, readOperand_p])

/-- `BIT` writes three flags: `Z` looks at `A`, `N` and `V` at the operand only (R176). -/
theorem withRead_testBits (o : Operand) (s : State) :
    withRead o testBits s =
      { s.withDevices (readOperand o s).2 with
        p := { s.p with
          z := decide (s.a &&& (readOperand o s).1 = 0)
          n := (readOperand o s).1.getLsbD 7
          v := (readOperand o s).1.getLsbD 6 },
        stepCycles := s.stepCycles + readCycles o s } :=
  withRead_eq_of_writes (r := s.a) (by rw [testBits, State.setP, readOperand_a, readOperand_p]; rfl)

/-- The compares, of a register that reading an operand leaves alone. -/
theorem withRead_compareWith {reg : State → Byte} {o : Operand} {s : State} (hreg : reg (readOperand o s).2 = reg s) :
    withRead o (fun m t => compareWith (reg t) m t) s =
      { s.withDevices (readOperand o s).2 with
        p := s.p.afterCompare (reg s) (readOperand o s).1, stepCycles := s.stepCycles + readCycles o s } :=
  withRead_eq_of_writes (r := s.a) (by rw [compareWith_eq, State.setP, hreg, readOperand_p, ← readOperand_a o s])

/-- Settles O35: three logic operations and one bit test, and the read changes devices only. -/
theorem logicAndBitTest : Obligations.LogicAndBitTest := by
  intro s o m u
  exact ⟨State.peek_congr rfl rfl, congrArg _ (withRead_logic (· &&& ·) o s), congrArg _ (withRead_logic (· ||| ·) o s),
    congrArg _ (withRead_logic (· ^^^ ·) o s), congrArg _ (withRead_testBits o s)⟩

/-- Settles O36: one comparison, of `A`, of `X` and of `Y`. -/
theorem compareIsUnsigned : Obligations.CompareIsUnsigned := by
  intro s o m u
  exact ⟨State.peek_congr rfl rfl, congrArg _ (withRead_compareWith (readOperand_a o s)),
    congrArg _ (withRead_compareWith (readOperand_x o s)), congrArg _ (withRead_compareWith (readOperand_y o s))⟩

/-! ## Read-modify-write forms (R180, R181, R186 to R189) -/

theorem Operand.mode_ne_acc {o : Operand} (h : o ≠ .acc) : o.mode ≠ .acc := by
  cases o with
  | acc => exact absurd rfl h
  | imm _ | zp _ | zpx _ | zpy _ | abs _ | absx _ | absy _ | indx _ | indy _ => exact Mode.noConfusion

/-- In memory, for a computation that gives `r` and leaves the flags as `q`: one write of `r` after the read, `SetNZ` of
`r` over `q`, and the byte at the effective address stored. -/
theorem exec_modifies_memory {i : Instr} {o : Operand} {f : Byte → State → Byte × State} {s : State} {r : Byte}
    {q : Flags} (hi : exec i s = .next (readModifyWrite o f setNZ s)) (hs : s.wf = true) (hacc : o.mode ≠ .acc)
    (himm : o.mode ≠ .imm) (hf : f (readOperand o s).1 (readOperand o s).2 = (r, (readOperand o s).2.setP q)) :
    ∃ t, exec i s = .next t ∧
      t = { s.withStore (busWrite (effectiveAddress o s) r (readOperand o s).2) with
            p := q.withNZ r, stepCycles := s.stepCycles + rmwCycles o } ∧
      StoresByte (effectiveAddress o s) r s t := by
  have hrmw := readModifyWrite_memory (after := setNZ) hacc himm hf
  rw [setNZ_withNZ] at hrmw
  refine ⟨_, hi, ?_, ?_⟩
  · simp only [hrmw, busWrite_read_withStore, State.setP, State.addCycles, busWrite_stepCycles, readOperand_stepCycles]
  · rw [hrmw]
    exact (busWrite_read_storesByte hs).congr rfl rfl rfl rfl

/-- On the accumulator, for such a computation: `r` in `A`, and `SetNZ` of `r` over `q`. -/
theorem readModifyWrite_acc {f : Byte → State → Byte × State} {s : State} {r : Byte} {q : Flags}
    (hf : f s.a s = (r, s.setP q)) :
    readModifyWrite .acc f setNZ s = { s with a := r, p := q.withNZ r, stepCycles := s.stepCycles + 2 } := by
  simp only [readModifyWrite, readOperand, hf, setNZ_withNZ]
  rfl

/-- Settles O37: neither computation touches a flag, and none of the forms is the accumulator or an immediate. -/
theorem incrementAndDecrementMemory : Obligations.IncrementAndDecrementMemory := by
  intro s o hs a m modified
  have hflags : (readOperand o s).2.setP s.p = (readOperand o s).2 := by rw [← readOperand_p o s]; rfl
  have modifies {i : Instr} {f : Byte → State → Byte × State} {r : Byte}
      (hi : exec i s = .next (readModifyWrite o f setNZ s)) (hforms : i.wellFormed = o.is memoryModes)
      (hf : f m (readOperand o s).2 = (r, (readOperand o s).2)) : modified i r := fun hwf =>
    have hform : o.is memoryModes = true := hforms.symm.trans hwf
    exec_modifies_memory hi hs (Operand.mode_ne hform (by decide)) (Operand.mode_ne hform (by decide))
      (hf.trans (by rw [hflags]))
  exact ⟨modifies rfl rfl rfl, modifies rfl rfl rfl⟩

/-- Settles O38: each of the four is a shift by one with its carry in, which leaves the shifted-out bit in `C`; a form
that is not the accumulator is in memory. -/
theorem shiftsAndRotates : Obligations.ShiftsAndRotates := by
  intro s o hs left right a m flags inMemory inA high low
  have memory {i : Instr} {f : Byte → State → Byte × State} {r : Byte} {carry : Bool}
      (hi : exec i s = .next (readModifyWrite o f setNZ s)) (hforms : i.wellFormed = o.is shiftModes)
      (hf : f m (readOperand o s).2 = (r, setC carry (readOperand o s).2)) : inMemory i r carry := fun hwf hacc =>
    exec_modifies_memory hi hs (Operand.mode_ne_acc hacc) (Operand.mode_ne (hforms.symm.trans hwf) (by decide))
      (hf.trans (by rw [setC_eq, readOperand_p]))
  have accumulator {i : Instr} {f : Byte → State → Byte × State} {r : Byte} {carry : Bool}
      (hi : exec i s = .next (readModifyWrite .acc f setNZ s)) (hf : f s.a s = (r, setC carry s)) : inA i r carry :=
    hi.trans (congrArg _ (readModifyWrite_acc hf))
  refine ⟨⟨memory rfl rfl (shiftLeft_eq ..), memory rfl rfl (shiftRight_eq ..), memory rfl rfl ?_, memory rfl rfl ?_⟩,
    accumulator rfl (shiftLeft_eq ..), accumulator rfl (shiftRight_eq ..), accumulator rfl (shiftLeft_eq ..),
    accumulator rfl (shiftRight_eq ..)⟩
  · rw [rotateLeft, shiftLeft_eq, readOperand_p]
  · rw [rotateRight, shiftRight_eq, readOperand_p]

end Sys2Proof.Machine

/-! # The statements of 42_control_flag.md

A push stores one byte of the stack page and leaves the others, and the returns are what the pulled bytes say. A return
after a call or an entry then pulls the bytes that were pushed. -/

namespace Sys2Proof.Machine

/-! ## What pushes leave on the stack (10_state.md R24; 20_memory.md R51) -/

/-- Two cells of the stack page are one byte of storage only when they are one cell. -/
theorem sameStorage_stackAddr (a b : Byte) : sameStorage (stackAddr a) (stackAddr b) = decide (a = b) := by
  have ha := a.isLt
  have hb := b.isLt
  rw [Bool.eq_iff_iff, decide_eq_true_iff, ← BitVec.toNat_inj]
  simp only [sameStorage, stackAddr_toNat, Bool.or_eq_true, Bool.and_eq_true, decide_eq_true_eq, beq_iff_eq]
  omega

section
variable {s : State} (h : s.wf = true)
include h

theorem push_peek_frame {b : Word} (v : Byte) (hb : sameStorage (stackAddr s.sp) b = false) :
    (push v s).peek b = s.peek b := by
  obtain ⟨-, hframe, -⟩ := push_storesByte (v := v) h
  have hsp := s.sp.isLt
  exact hframe b hb (.inl (by rw [stackAddr_toNat]; omega))

/-- A cell of the stack page after a push: the byte pushed where `SP` was, the old byte at every other. -/
theorem push_peek_stack (v sp : Byte) :
    (push v s).peek (stackAddr sp) = if sp = s.sp then some v else s.peek (stackAddr sp) := by
  by_cases hsp : sp = s.sp
  · obtain ⟨htop, -, -⟩ := push_storesByte (v := v) h
    rw [if_pos hsp, hsp, htop _ (by simp [sameStorage_stackAddr])]
  · rw [if_neg hsp, push_peek_frame h v (by simp [sameStorage_stackAddr, Ne.symm hsp])]

end

@[simp] theorem push_sp (v : Byte) (s : State) : (push v s).sp = s.sp - 1 := rfl

theorem sub_one_sub_one (sp : Byte) : sp - 1 - 1 = sp - 2 := by bv_omega

theorem pushWord_sp (w : Word) (s : State) : (pushWord w s).sp = s.sp - 2 := sub_one_sub_one s.sp

section
variable {s : State} (h : s.wf = true)
include h

theorem pushWord_peek_frame {b : Word} (w : Word) (hhi : sameStorage (stackAddr s.sp) b = false)
    (hlo : sameStorage (stackAddr (s.sp - 1)) b = false) : (pushWord w s).peek b = s.peek b := by
  rw [pushWord, push_peek_frame (push_wf h) _ hlo, push_peek_frame h _ hhi]

theorem pushWord_peek_high (w : Word) : (pushWord w s).peek (stackAddr s.sp) = some (hiByte w) := by
  have hne : s.sp ≠ s.sp - 1 := by bv_omega
  rw [pushWord, push_peek_stack (push_wf h), push_sp, if_neg hne, push_peek_stack h, if_pos rfl]

theorem pushWord_peek_low (w : Word) : (pushWord w s).peek (stackAddr (s.sp - 1)) = some (loByte w) := by
  rw [pushWord, push_peek_stack (push_wf h), push_sp, if_pos rfl]

end

/-! ## Returns (R213, R214) -/

theorem pull_of_peek {s : State} {v : Byte} (hv : s.peek (stackAddr (s.sp + 1)) = some v) :
    pull s = (v, s.setSp (s.sp + 1)) := busRead_of_peek hv

theorem add_one_add_one (sp : Byte) : sp + 1 + 1 = sp + 2 := by bv_omega

theorem pullWord_of_peek {s : State} {lo hi : Byte} (hlo : s.peek (stackAddr (s.sp + 1)) = some lo)
    (hhi : s.peek (stackAddr (s.sp + 2)) = some hi) : pullWord s = (mkWord hi lo, s.setSp (s.sp + 2)) := by
  rw [← add_one_add_one] at hhi ⊢
  simp only [pullWord, pull_of_peek hlo, pull_of_peek (s := s.setSp (s.sp + 1)) hhi]
  rfl

theorem exec_rts_of_peek {s : State} {lo hi : Byte} (hlo : s.peek (stackAddr (s.sp + 1)) = some lo)
    (hhi : s.peek (stackAddr (s.sp + 2)) = some hi) :
    exec .rts s =
      .next { s with sp := s.sp + 2, pc := mkWord hi lo + 1, stepCycles := s.stepCycles + 6 } := by
  simp only [exec, execRts, pullWord_of_peek hlo hhi]
  rfl

theorem exec_rti_of_peek {s : State} {st lo hi : Byte} (hst : s.peek (stackAddr (s.sp + 1)) = some st)
    (hlo : s.peek (stackAddr (s.sp + 2)) = some lo) (hhi : s.peek (stackAddr (s.sp + 3)) = some hi) :
    exec .rti s =
      .next { s with
        p := Flags.ofByte st, sp := s.sp + 3, pc := mkWord hi lo, stepCycles := s.stepCycles + 6 } := by
  have hsp : s.sp + 1 + 2 = s.sp + 3 := by bv_omega
  rw [← add_one_add_one] at hlo
  rw [← hsp] at hhi ⊢
  have hword := pullWord_of_peek (s := loadP st (s.setSp (s.sp + 1))) hlo hhi
  simp only [exec, execRti, interruptReturn, pull_of_peek hst, hword]
  rfl

/-! ## A return after a call or an entry (R210; 60_exceptions.md R309, R314) -/

/-- A return right after a call pulls the address the call pushed, that of its last byte. -/
theorem exec_rts_jsr (w : Word) {s : State} (h : s.wf = true) :
    ∃ t, exec .rts (((pushWord (s.pc - 1) s).setPc w).addCycles 6) = .next t ∧ t.pc = s.pc ∧ t.sp = s.sp := by
  have hsp := pushWord_sp (s.pc - 1) s
  have hlowSp : s.sp - 2 + 1 = s.sp - 1 := by bv_omega
  have hhighSp : s.sp - 2 + 2 = s.sp := BitVec.sub_add_cancel s.sp 2
  refine ⟨_, exec_rts_of_peek (lo := loByte (s.pc - 1)) (hi := hiByte (s.pc - 1)) ?_ ?_, ?_, ?_⟩ <;>
    simp only [State.addCycles_sp, State.setPc_sp, State.addCycles_peek, State.setPc_peek, hsp, hlowSp, hhighSp]
  · exact pushWord_peek_low h _
  · exact pushWord_peek_high h _
  · rw [mkWord_hiByte_loByte, BitVec.sub_add_cancel]

/-- Settles O40: `JSR` is one 16-bit push, `RTS` one 16-bit pull, of cells of the stack page. -/
theorem subroutineCallAndReturn : Obligations.SubroutineCallAndReturn := by
  intro s w h
  have hcall : pushWord (s.pc - 1) s = { s with ram := (pushWord (s.pc - 1) s).ram, sp := s.sp - 2 } := by
    rw [pushWord_eq, sub_one_sub_one]
  exact ⟨⟨_, rfl, congrArg (fun t => (t.setPc w).addCycles 6) hcall, pushWord_peek_high h _, pushWord_peek_low h _,
    fun _ => pushWord_peek_frame h _, exec_rts_jsr w h⟩,
    _, _, s.peek_stack _, s.peek_stack _, _, exec_rts_of_peek (s.peek_stack _) (s.peek_stack _),
    State.peek_congr rfl rfl, rfl⟩

/-- What an entry leaves on the stack and in `SP` is what its three pushes leave. -/
theorem interruptEntry_pushes (vec : Word) (b : Bool) (s : State) :
    (interruptEntry vec b s).sp = s.sp - 3 ∧
      ∀ a, (interruptEntry vec b s).peek a = (push (s.p.image b) (pushWord s.pc s)).peek a := by
  have hsp : s.sp - 2 - 1 = s.sp - 3 := by bv_omega
  refine ⟨?_, fun a => ?_⟩
  · simp only [interruptEntry, read16, State.addCycles_sp, State.setPc_sp, busRead_sp, State.setP_sp,
      push_sp, pushWord_sp, hsp]
  · simp [interruptEntry, read16]

/-- A return right after an entry pulls what the entry pushed; the break value in the status image does not matter. -/
theorem exec_rti_interruptEntry (vec : Word) (b : Bool) {s : State} (h : s.wf = true) :
    ∃ t, exec .rti (interruptEntry vec b s) = .next t ∧ t.pc = s.pc ∧ t.p = s.p ∧ t.sp = s.sp := by
  obtain ⟨hsp, hpeek⟩ := interruptEntry_pushes vec b s
  have hstatusSp : s.sp - 3 + 1 = s.sp - 2 := by bv_omega
  have hlowSp : s.sp - 3 + 2 = s.sp - 1 := by bv_omega
  have hhighSp : s.sp - 3 + 3 = s.sp := BitVec.sub_add_cancel s.sp 3
  have hlowNe : s.sp - 1 ≠ s.sp - 2 := by bv_omega
  have hhighNe : s.sp ≠ s.sp - 2 := by bv_omega
  have hpush := push_peek_stack (pushWord_wf (w := s.pc) h) (s.p.image b)
  rw [pushWord_sp] at hpush
  refine ⟨_, exec_rti_of_peek (st := s.p.image b) (lo := loByte s.pc) (hi := hiByte s.pc) ?_ ?_ ?_,
    mkWord_hiByte_loByte s.pc, s.p.ofByte_image b, ?_⟩
  · rw [hpeek, hsp, hstatusSp, hpush, if_pos rfl]
  · rw [hpeek, hsp, hlowSp, hpush, if_neg hlowNe, pushWord_peek_low h]
  · rw [hpeek, hsp, hhighSp, hpush, if_neg hhighNe, pushWord_peek_high h]
  · simp only [hsp, hhighSp]

/-- Settles O41: a return pulls three bytes of the stack page; both entries are the shared one. -/
theorem returnFromInterrupt : Obligations.ReturnFromInterrupt := by
  intro s h
  refine ⟨⟨_, _, _, s.peek_stack _, s.peek_stack _, s.peek_stack _, _,
    exec_rti_of_peek (s.peek_stack _) (s.peek_stack _) (s.peek_stack _), State.peek_congr rfl rfl, rfl⟩, ?_⟩
  exact List.forall_mem_cons.2 ⟨exec_rti_interruptEntry vecIrq false h,
    List.forall_mem_singleton.2 (exec_rti_interruptEntry vecNmi false (s := { s with nmiPending := false }) h)⟩

/-! ## Branches (R106, R114, R216 to R224) -/

/-- The target is the signed sum modulo `$10000`. -/
theorem branchTarget_toNat (d : Byte) (s : State) :
    ((branchTarget d s).toNat : Int) = (s.pc.toNat + d.toInt) % 0x10000 := by
  have hsext : (sext d).toInt = d.toInt := BitVec.toInt_signExtend_of_le (by decide)
  rw [BitVec.toInt_eq_toNat_cond (sext d)] at hsext
  rw [branchTarget, BitVec.toNat_add]
  omega

/-- A branch by the condition, with its target and cycles as numbers. -/
theorem branch_of_target {d : Byte} {s : State} {target : Word}
    (h : (target.toNat : Int) = (s.pc.toNat + d.toInt) % 0x10000) (c : Bool) :
    branch c d s = if c then
      { s with pc := target
               stepCycles := s.stepCycles + (if s.pc.toNat / 256 = target.toNat / 256 then 3 else 4) }
      else { s with stepCycles := s.stepCycles + 2 } := by
  have htarget : branchTarget d s = target :=
    BitVec.eq_of_toNat_eq (Int.ofNat_inj.1 ((branchTarget_toNat d s).trans h.symm))
  simp only [branch, htarget, pageOf_eq_iff, differentPage, bne_eq_false_iff_eq]
  rfl

/-- Settles O43: the eight instructions are one branch, each with its own condition. -/
theorem conditionalBranches : Obligations.ConditionalBranches := by
  intro s d target htarget branches
  have branched {i : Instr} {c : Bool} (hi : exec i s = .next (branch c d s)) : branches i c :=
    hi.trans (congrArg _ (branch_of_target htarget c))
  exact ⟨branched rfl, branched rfl, branched rfl, branched rfl, branched rfl, branched rfl, branched rfl,
    branched rfl⟩

/-! ## Flag operations, no-operations and the jam (R225 to R232; 43_undocumented.md R250 to R253) -/

/-- Settles O44: each instruction is one of the flag setters and two cycles. -/
theorem flagOperations : Obligations.FlagOperations := by
  intro s u
  have flagged {i : Instr} {p : Flags} (hi : exec i s = .next ((s.setP p).addCycles 2)) :
      exec i s = .next { u with p := p } := hi
  exact ⟨flagged rfl, flagged rfl, flagged rfl, flagged rfl, flagged rfl, flagged rfl, flagged rfl,
    State.peek_congr rfl rfl⟩

/-- A read form that discards its operand: devices and the cycles of a read form (R253). -/
theorem withRead_discard (o : Operand) (s : State) :
    withRead o (fun _ t => t) s =
      { s.withDevices (readOperand o s).2 with stepCycles := s.stepCycles + readCycles o s } := by
  rw [withRead, State.addCycles, readOperand_withDevices, readOperand_stepCycles]

/-- Settles O45: the short forms count two cycles, a jam halts too, and a memory form is a discarded read. -/
theorem noOperationsAndJam : Obligations.NoOperationsAndJam := by
  intro s op b o u
  have hread := withRead_discard o s
  refine ⟨rfl, rfl, rfl, rfl, State.peek_congr rfl rfl, _, rfl, ?_, hread⟩
  rw [hread]
  exact State.peek_congr rfl rfl

end Sys2Proof.Machine

/-! # The statements of 43_undocumented.md

A combined read-modify-write operation is one read and one write of its result, and then an operation on `A` and the
flags; an immediate one is a result in a register and its flags; the `SH` family is one store. Each shape is said once,
and every instruction of the group is one use of it. -/

namespace Sys2Proof.Machine

/-! ## Combined read-modify-write operations (R254 to R257, R260, R261) -/

/-- In memory, for a computation that gives `r` and leaves the flags as `q`, and an operation after it that writes at
most `A` and `P`: one write of `r` after the read, these two, and the byte at the effective address stored. -/
theorem exec_modifies_memory_then {i : Instr} {o : Operand} {f : Byte → State → Byte × State}
    {after : Byte → State → State} {s : State} {r a : Byte} {q p : Flags}
    (hi : exec i s = .next (readModifyWrite o f after s)) (hs : s.wf = true) (hform : o.is rmwModes = true)
    (hf : f (readOperand o s).1 (readOperand o s).2 = (r, (readOperand o s).2.setP q))
    (hafter : ∀ t : State, t.a = s.a → t.p = q → after r t = { t with a := a, p := p }) :
    ∃ t, exec i s = .next t ∧
      t = { s.withStore (busWrite (effectiveAddress o s) r (readOperand o s).2) with
            a := a, p := p, stepCycles := s.stepCycles + rmwCycles o } ∧
      StoresByte (effectiveAddress o s) r s t := by
  have hrmw := readModifyWrite_memory (after := after) (Operand.mode_ne hform (by decide))
    (Operand.mode_ne hform (by decide)) hf
  rw [hafter _ (by rw [State.setP, busWrite_a, readOperand_a]) rfl] at hrmw
  refine ⟨_, hi, ?_, ?_⟩
  · simp only [hrmw, busWrite_read_withStore, State.setP, State.addCycles, busWrite_stepCycles, readOperand_stepCycles]
  · rw [hrmw]
    exact (busWrite_read_storesByte hs).congr rfl rfl rfl rfl

/-- Settles O46: the shifts leave the shifted-out bit in `C`, the increment and the decrement no flag; what follows is a
logic operation, an addition, a comparison or a subtraction of the byte written. -/
theorem undocumentedReadModifyWrite : Obligations.UndocumentedReadModifyWrite := by
  intro s o hs left right ea m high low combined slo rla sre rra
  have hp : (readOperand o s).2.p = s.p := readOperand_p o s
  have shifted {r : Byte} {carry : Bool} :
      (r, setC carry (readOperand o s).2) = (r, (readOperand o s).2.setP { s.p with c := carry }) := by
    rw [setC_eq, hp]
  have unflagged {r : Byte} : (r, (readOperand o s).2) = (r, (readOperand o s).2.setP s.p) := by rw [← hp]; rfl
  have rotatedLeft : rotateLeft m (readOperand o s).2 = (rla, setC high (readOperand o s).2) := by
    rw [rotateLeft, shiftLeft_eq, hp]
  have rotatedRight : rotateRight m (readOperand o s).2 = (rra, setC low (readOperand o s).2) := by
    rw [rotateRight, shiftRight_eq, hp]
  have logic (g : Byte → Byte → Byte) {r : Byte} {q : Flags} (t : State) (ha : t.a = s.a) (hq : t.p = q) :
      loadA (g t.a r) t = { t with a := g s.a r, p := q.withNZ (g s.a r) } := by rw [loadA_withNZ, ha, hq]
  have combines {i : Instr} {f : Byte → State → Byte × State} {after : Byte → State → State} {r a : Byte} {q p : Flags}
      (hi : exec i s = .next (readModifyWrite o f after s)) (hforms : i.wellFormed = o.is rmwModes)
      (hf : f m (readOperand o s).2 = (r, (readOperand o s).2.setP q))
      (hafter : ∀ t : State, t.a = s.a → t.p = q → after r t = { t with a := a, p := p }) :
      combined i r a p := fun hwf =>
    exec_modifies_memory_then hi hs (hforms.symm.trans hwf) hf hafter
  refine ⟨?slo, ?rla, ?sre, ?rra, ?dcp, ?isc⟩
  case slo => exact combines rfl rfl ((shiftLeft_eq ..).trans shifted) (logic (· ||| ·))
  case rla => exact combines rfl rfl (rotatedLeft.trans shifted) (logic (· &&& ·))
  case sre => exact combines rfl rfl ((shiftRight_eq ..).trans shifted) (logic (· ^^^ ·))
  case rra => exact combines rfl rfl (rotatedRight.trans shifted) fun t ha hq => by rw [addWithCarry_eq, ha, hq]
  case dcp => exact combines rfl rfl unflagged fun t ha hq => by rw [compareWith_eq, ha, hq, ← ha]; rfl
  case isc => exact combines rfl rfl unflagged fun t ha hq => by rw [subtractWithCarry_eq, ha, hq]

/-! ## Immediate combined operations (R262 to R265) -/

/-- Settles O47: an AND or a subtraction, one register loaded, and `C` (for `ARR` also `V`) by its own rule; the shifts
are `ShiftRight` as numbers. -/
theorem undocumentedImmediate : Obligations.UndocumentedImmediate := by
  intro s op m t r rotated ax u
  have hsign : t.msb = decide (128 ≤ t.toNat) := BitVec.msb_eq_decide t
  have hrotated : (t >>> 1) ||| ((BitVec.ofBool s.p.c).setWidth 8 <<< 7) = rotated :=
    congrArg Prod.fst (shiftRight_eq t s.p.c s)
  refine ⟨State.peek_congr rfl rfl, ?_, ?_, ?_, ?_⟩
  · simp only [exec, execAnc, loadA_withNZ]
    rw [hsign]; rfl
  · simp only [exec, execAlr, shiftRight_eq, loadA_withNZ]
    rfl
  · simp only [exec, execArr, loadA_withNZ]
    rw [hrotated]; rfl
  · simp only [exec, execAxs, loadX_withNZ]
    rfl

/-! ## Loads of several registers (R267 to R269) -/

/-- The operand ANDed with `SP`, in `A`, `X` and `SP`, then `SetNZ` of it (R267). -/
theorem exec_las (w : Word) (s : State) :
    exec (.las w) s = .next { s.withDevices (readOperand (.absy w) s).2 with
      a := (readOperand (.absy w) s).1 &&& s.sp
      x := (readOperand (.absy w) s).1 &&& s.sp
      sp := (readOperand (.absy w) s).1 &&& s.sp
      p := s.p.withNZ ((readOperand (.absy w) s).1 &&& s.sp)
      stepCycles := s.stepCycles + readCycles (.absy w) s } := by
  simp only [exec, execLas, withRead, setNZ_withNZ, State.setA, State.setX, State.setSp, State.setP, State.addCycles,
    readOperand_withDevices, readOperand_sp, readOperand_p, readOperand_stepCycles]

/-- Settles O48: each is `SetNZ` of one AND and the registers it loads; an AND with 0 is 0 whatever the constants are. -/
theorem undocumentedLoadCombinations : Obligations.UndocumentedLoadCombinations := by
  intro s w b
  refine ⟨⟨_, exec_las w s, State.peek_congr rfl rfl, rfl⟩, ?_⟩
  intro u v v'
  refine ⟨State.peek_congr rfl rfl, ?_, ?_, ?_, ?_⟩
  · simp only [exec, execXaa, loadA_withNZ]
    rfl
  · simp only [exec, execLxa, setNZ_withNZ]
    rfl
  · rintro (hb | hx)
    · simp [v, hb]
    · simp [v, hx]
  · intro hb
    simp [v', hb]

/-! ## The `SH` family (R270 to R274) -/

/-- One bus write at the address and of the value of the formula, and the cycles of a store form. -/
theorem storeHigh_withStore (o : Operand) (src : Byte) (s : State) :
    storeHigh o src s =
      { s.withStore (busWrite (shAddr o src s) (shValue o src s) s) with
        stepCycles := s.stepCycles + writeCycles o } := by
  rw [busWrite_withStore, storeHigh, State.addCycles, busWrite_stepCycles]

/-- An absolute indexed form does not look at `SP`. -/
theorem storeHigh_absy_setSp (w : Word) (src sp : Byte) (s : State) :
    storeHigh (.absy w) src (s.setSp sp) = (storeHigh (.absy w) src s).setSp sp :=
  congrArg (State.addCycles 5) (busWrite_setSp (shAddr (.absy w) src s) (shValue (.absy w) src s) s sp)

/-- Settles O49: each instruction is a store of the formula's value at the formula's address; `TAS` writes `SP` too. -/
theorem storesOfHighByteFamily : Obligations.StoresOfHighByteFamily := by
  intro s w o hs stored
  have stores {i : Instr} {o : Operand} {src sp : Byte}
      (hi : exec i s = .next ((storeHigh o src s).setSp sp)) : stored i o src sp := by
    intro _ base ea0 v ea
    have hea : shAddr o src s = ea := by rw [shAddr, pageCrossed_eq]; rfl
    have hstore : (storeHigh o src s).setSp sp =
        { s.withStore (busWrite ea v s) with sp := sp, stepCycles := s.stepCycles + writeCycles o } := by
      rw [storeHigh_withStore, hea]; rfl
    refine ⟨_, hi, hstore, ?_⟩
    rw [hstore]
    exact (busWrite_storesByte hs).congr rfl rfl rfl rfl
  have keepsSp {o : Operand} {src : Byte} : storeHigh o src s = (storeHigh o src s).setSp s.sp := by
    rw [storeHigh_withStore]; rfl
  exact ⟨stores (congrArg _ keepsSp), stores (congrArg _ keepsSp), stores (congrArg _ keepsSp),
    stores (congrArg _ (storeHigh_absy_setSp w _ _ s))⟩

end Sys2Proof.Machine

/-! # The statements of 60_exceptions.md

The interrupt poll and the entry it shares with `BRK`; what the end of a step does to the sampled lines, the delayed `I`
and the devices; then each device: the picture unit's frame, sprite DMA, the mapper, the controller, the audio unit with
its sample channel, and the cartridge image. -/

namespace Sys2Proof.Machine

/-! ## Taking an interrupt (60_exceptions.md R306 to R312) -/

/-- An interrupt entry: what it changes, the three bytes it pushes, and every other byte of storage. -/
theorem interruptEntry_spec {vec : Word} (b : Bool) {s : State} (h : s.wf = true) (hlow : 0x8000 ≤ vec.toNat)
    (hhigh : 0x8000 ≤ (vec + 1).toNat) :
    let t := interruptEntry vec b s
    (∃ lo hi, s.peek vec = some lo ∧ s.peek (vec + 1) = some hi ∧
      t = { s with
            ram := t.ram, sp := s.sp - 3, p := { s.p with i := true }, pc := mkWord hi lo
            stepCycles := s.stepCycles + 7 }) ∧
    t.peek (stackAddr s.sp) = some (hiByte s.pc) ∧
    t.peek (stackAddr (s.sp - 1)) = some (loByte s.pc) ∧
    t.peek (stackAddr (s.sp - 2)) = some (s.p.image b) ∧
    ∀ a, sameStorage (stackAddr s.sp) a = false → sameStorage (stackAddr (s.sp - 1)) a = false →
      sameStorage (stackAddr (s.sp - 2)) a = false → t.peek a = s.peek a := by
  obtain ⟨hsp, hpeek⟩ := interruptEntry_pushes vec b s
  have hstack := push_peek_stack (pushWord_wf (w := s.pc) h) (s.p.image b)
  have hframe {a : Word} := push_peek_frame (b := a) (pushWord_wf (w := s.pc) h) (s.p.image b)
  rw [pushWord_sp] at hstack hframe
  have hhighNe : s.sp ≠ s.sp - 2 := by bv_omega
  have hlowNe : s.sp - 1 ≠ s.sp - 2 := by bv_omega
  refine ⟨⟨_, _, s.peek_rom hlow, s.peek_rom hhigh, ?_⟩, ?_, ?_, ?_, fun a htop hmid hbottom => ?_⟩
  · rw [← hsp, interruptEntry_eq hlow hhigh]
    rfl
  · rw [hpeek, hstack, if_neg hhighNe, pushWord_peek_high h]
  · rw [hpeek, hstack, if_neg hlowNe, pushWord_peek_low h]
  · rw [hpeek, hstack, if_pos rfl]
  · rw [hpeek, hframe hbottom, pushWord_peek_frame h _ htop hmid]

theorem beginStep_nmi (p : Params) {s : State} (h : s.nmiPending = true) :
    beginStep p s = interruptEntry vecNmi false { s.stepStart with nmiPending := false } := by
  rw [beginStep, pollInterrupt, if_pos h]
  rfl

theorem beginStep_irq {p : Params} {s : State} (hnmi : s.nmiPending = false) (hline : s.irqLine = true)
    (hmask : ipoll p s = false) :
    beginStep p s = interruptEntry vecIrq false { s.stepStart with nmiPending := false } := by
  have hpoll : pollInterrupt p s = some .irq := by simp [pollInterrupt, hnmi, hline, hmask]
  have hstart : { s.stepStart with nmiPending := false } = s.stepStart := by rw [← hnmi]; rfl
  rw [beginStep, hpoll, hstart]
  rfl

theorem beginStep_none {p : Params} {s : State} (hnmi : s.nmiPending = false)
    (hmasked : s.irqLine = false ∨ ipoll p s = true) : beginStep p s = s.stepStart := by
  have hpoll : pollInterrupt p s = none := by rcases hmasked with h | h <;> simp [pollInterrupt, hnmi, h]
  rw [beginStep, hpoll]
  rfl

/-- Settles O6: the poll decides which entry is made, and both are the shared one from the step's start. -/
theorem interruptPollAndEntry : Obligations.InterruptPollAndEntry := by
  intro p s h
  have entered {vec : Word} := interruptEntry_spec (vec := vec) (s := { s.stepStart with nmiPending := false }) false h
  refine ⟨fun hnmi => ?_, fun hnmi hline hmask => ?_, fun hnmi hmasked => beginStep_none hnmi hmasked⟩
  · rw [beginStep_nmi p hnmi]
    exact entered (by decide) (by decide)
  · rw [beginStep_irq hnmi hline hmask]
    exact entered (by decide) (by decide)

/-- Settles O42: `BRK` is the shared entry from the address past its signature byte. -/
theorem softwareBreak : Obligations.SoftwareBreak := by
  intro s h
  obtain ⟨⟨lo, hi, hlo, hhi, ht⟩, hpushed⟩ :=
    interruptEntry_spec (vec := vecIrq) (s := s.setPc (s.pc + 1)) true h (by decide) (by decide)
  exact ⟨_, lo, hi, rfl, hlo, hhi, ht, hpushed⟩

/-! ## The halt (60_exceptions.md R317, R321) -/

@[simp] theorem resetWith_halted (p : Params) (s : State) : (resetWith p s).halted = false := by
  unfold resetWith
  cases p.entryPc with
  | some entry => rfl
  | none => simp [read16, resetRegisters]

/-- Settles O7: a halted step answers before the poll; the registers' reset clears the halt. -/
theorem haltedStepChangesNothing : Obligations.HaltedStepChangesNothing := by
  intro p s hhalted hrefused
  have hreport : stepReport p s = (.halted, s) := by simp [stepReport, hhalted, hrefused]
  exact ⟨hreport, by simp only [stepWith, hreport], resetWith_halted p s⟩

/-! ## No instruction halts but a jam (60_exceptions.md R300; 10_state.md R38, R40) -/

@[simp] theorem readOperand_halted (o : Operand) (s : State) : (readOperand o s).2.halted = s.halted := by
  obtain ⟨_, _, _, _, e⟩ := readOperand_frame o s
  rw [e]

@[simp] theorem writeOperand_halted (o : Operand) (a : Word) (v : Byte) (s : State) :
    (writeOperand o a v s).halted = s.halted := by
  obtain ⟨_, _, _, _, _, _, _, _, e⟩ := writeOperand_frame o a v s
  rw [e]

theorem withRead_halted {o : Operand} {f : Byte → State → State} (s : State)
    (hf : ∀ m t, (f m t).halted = t.halted) : (withRead o f s).halted = s.halted :=
  (hf _ _).trans (readOperand_halted o s)

theorem readModifyWrite_halted {o : Operand} {f : Byte → State → Byte × State} {after : Byte → State → State}
    (s : State) (hf : ∀ m t, (f m t).2.halted = t.halted) (ha : ∀ r t, (after r t).halted = t.halted) :
    (readModifyWrite o f after s).halted = s.halted :=
  ((ha _ _).trans (writeOperand_halted o _ _ _)).trans ((hf _ _).trans (readOperand_halted o s))

theorem branch_halted (c : Bool) (d : Byte) (s : State) : (branch c d s).halted = s.halted := by
  cases c <;> rfl

theorem jumpTarget_halted (t : JumpTarget) (s : State) : (jumpTarget t s).2.halted = s.halted := by
  cases t <;> simp [jumpTarget]

/-- Every instruction, by its shape: it leaves the halt alone unless it is a jam. -/
theorem exec_halted_next (i : Instr) (s : State) :
    ∃ t, exec i s = .next t ∧ (t.halted = s.halted ∨ ∃ op, i = .jam op) := by
  cases i with
  | jam op => exact ⟨_, rfl, .inr ⟨op, rfl⟩⟩
  | lda _ | ldx _ | ldy _ | adc _ | sbc _ | and _ | ora _ | eor _ | bit _ | cmp _ | cpx _ | cpy _ | nopRead _ _ | lax _
  | las _ => exact ⟨_, rfl, .inl (withRead_halted s fun _ _ => rfl)⟩
  | sta _ | stx _ | sty _ | sax _ => exact ⟨_, rfl, .inl (writeOperand_halted _ _ _ s)⟩
  | sha _ | shx _ | shy _ => exact ⟨_, rfl, .inl (busWrite_halted _ _ s)⟩
  | tas _ => exact ⟨_, rfl, .inl (busWrite_halted _ _ (s.setSp (s.a &&& s.x)))⟩
  | inc _ | dec _ | asl _ | lsr _ | rol _ | ror _ | slo _ | rla _ | sre _ | rra _ | dcp _ | isc _ =>
    exact ⟨_, rfl, .inl (readModifyWrite_halted s (fun _ _ => rfl) fun _ _ => rfl)⟩
  | bpl _ | bmi _ | bvc _ | bvs _ | bcc _ | bcs _ | bne _ | beq _ => exact ⟨_, rfl, .inl (branch_halted _ _ s)⟩
  | jmp t => exact ⟨_, rfl, .inl (jumpTarget_halted t s)⟩
  | pha | php | pla | plp | jsr _ | rts | rti =>
    exact ⟨_, rfl, .inl (by simp only [push_eq, pull_eq, pushWord_eq, pullWord_eq, interruptReturn_eq]; rfl)⟩
  | brk => exact ⟨_, rfl, .inl (by rw [interruptEntry_eq (by decide) (by decide)]; rfl)⟩
  | tax | tay | txa | tya | tsx | txs | inx | iny | dex | dey | clc | sec | cli | sei | cld | sed | clv | nop
  | nopImp _ | nopImm _ _ | anc _ _ | alr _ | arr _ | axs _ | usbc _ | xaa _ | lxa _ => exact ⟨_, rfl, .inl rfl⟩

/-- Settles O15: the next state by the shape of the instruction, its hidden state by `exec_hidden`. -/
theorem everyInstructionAnswersNext : Obligations.EveryInstructionAnswersNext := by
  intro i s
  obtain ⟨t, ht, hhalted⟩ := exec_halted_next i s
  exact ⟨t, ht, exec_hidden ht, hhalted⟩

/-! ## The sampled lines (60_exceptions.md R302 to R304; 70_reset_and_hazards.md R384) -/

/-- The CPU's samples of the two lines are the devices' outputs. -/
def State.LinesSampled (s : State) : Prop := s.irqLine = s.apu.irqOut ∧ s.nmiPrev = s.ppu.nmiOut

theorem sampleLines_linesSampled (s : State) : (sampleLines s).LinesSampled := ⟨rfl, rfl⟩

theorem plainCycles_linesSampled (n : Nat) {s : State} (h : s.LinesSampled) : (plainCycles n s).LinesSampled := by
  induction n generalizing s with
  | zero => exact h
  | succ n ih => exact ih (sampleLines_linesSampled _)

theorem clock_linesSampled (p : Params) {k : Nat} {s : State} (h : 0 < k ∨ s.LinesSampled) :
    (clock p k s).LinesSampled := by
  induction k generalizing s with
  | zero => exact h.resolve_left (Nat.lt_irrefl 0)
  | succ k ih =>
    unfold clock
    simp only
    split
    · exact ih (.inr (plainCycles_linesSampled _ (sampleLines_linesSampled _)))
    · exact ih (.inr (sampleLines_linesSampled _))

theorem updateIPoll_linesSampled (p : Params) (i : Instr) (b : Bool) {s : State} (h : s.LinesSampled) :
    (updateIPoll p i b s).LinesSampled := by
  unfold updateIPoll
  split <;> exact h

/-- Settles O11: the clock of a step that ran has a cycle, and every cycle ends by sampling. -/
theorem linesSampledAfterStep : Obligations.LinesSampledAfterStep := by
  intro p s t k h
  obtain ⟨u, hu, rfl, -⟩ := stepReport_ran h
  have htwo := exec_two_le hu
  obtain ⟨-, hcycles⟩ := spriteDma_count u
  exact updateIPoll_linesSampled p _ _ (clock_linesSampled p (.inl (by omega)))

/-! ## The `I` of a delayed poll (60_exceptions.md R307) -/

/-- Everything `n` plain cycles can do to the state. -/
theorem plainCycles_frame (n : Nat) (s : State) :
    ∃ cyc ppu apu pending prev line, plainCycles n s =
      { s with cyc := cyc, ppu := ppu, apu := apu, nmiPending := pending, nmiPrev := prev, irqLine := line } := by
  induction n generalizing s with
  | zero => exact ⟨_, _, _, _, _, _, rfl⟩
  | succ n ih =>
    obtain ⟨_, _, _, _, _, _, e⟩ := ih (plainCycle s)
    exact ⟨_, _, _, _, _, _, e⟩

@[simp] theorem plainCycles_iPoll (n : Nat) (s : State) : (plainCycles n s).iPoll = s.iPoll := by
  obtain ⟨_, _, _, _, _, _, e⟩ := plainCycles_frame n s
  rw [e]

@[simp] theorem drawRequest_iPoll (s : State) : (drawRequest s).iPoll = s.iPoll := by
  unfold drawRequest
  split <;> rfl

@[simp] theorem sampleFetch_iPoll (p : Params) (s : State) : (sampleFetch p s).iPoll = s.iPoll :=
  busRead_iPoll s.apu.dmcAddr s

@[simp] theorem clock_iPoll (p : Params) (k : Nat) (s : State) : (clock p k s).iPoll = s.iPoll := by
  induction k generalizing s with
  | zero => rfl
  | succ k ih =>
    have hadvance : (advanceDevices s).iPoll = s.iPoll := rfl
    have hsample (t : State) : (sampleLines t).iPoll = t.iPoll := rfl
    unfold clock
    simp only
    split <;> simp [ih, hsample, hadvance]

theorem spriteDma_iPoll (s : State) : (spriteDma s).iPoll = s.iPoll := by
  unfold spriteDma
  split
  · rfl
  · exact congrArg Hidden.iPoll (dmaCopy_hidden _ _ s)

theorem delaysPoll_iff (i : Instr) : delaysPoll i = true ↔ i = .cli ∨ i = .sei ∨ i = .plp := by
  simp [delaysPoll, or_assoc]

/-- Settles O13: only the end of the step writes the bit, and only under `delayed`. -/
theorem delayedInterruptMask : Obligations.DelayedInterruptMask := by
  intro p s t k h
  obtain ⟨u, hu, rfl, -⟩ := stepReport_ran h
  refine ⟨fun hdelayed => ?_, fun hcurrent => ?_⟩
  · simp only [endStep, updateIPoll, hdelayed, delaysPoll_iff]
  · have hinstr : u.iPoll = s.iPoll :=
      (congrArg Hidden.iPoll ((exec_hidden hu).trans (fetch_hidden _))).trans
        (congrArg Hidden.iPoll (beginStep_hidden p s))
    simp only [endStep, updateIPoll, hcurrent, clock_iPoll, spriteDma_iPoll, hinstr]

/-! ## The clock (60_exceptions.md R330, R331; 70_reset_and_hazards.md R384) -/

theorem Ppu.ticks_add (m n : Nat) (u : Ppu) : Ppu.ticks (m + n) u = Ppu.ticks m (Ppu.ticks n u) := by
  induction m with
  | zero => rw [Nat.zero_add]; rfl
  | succ m ih => rw [Nat.succ_add, Ppu.ticks, ih, Ppu.ticks]

theorem Apu.ticks_add (m n : Nat) (u : Apu) : Apu.ticks (m + n) u = Apu.ticks m (Apu.ticks n u) := by
  induction m with
  | zero => rw [Nat.zero_add]; rfl
  | succ m ih => rw [Nat.succ_add, Apu.ticks, ih, Apu.ticks]

/-- The audio tick of a cycle that ends at an even count, as a number of ticks. -/
theorem advanceDevices_apu (s : State) :
    (advanceDevices s).apu = Apu.ticks ((s.cyc + 1) / 2 - s.cyc / 2) s.apu := by
  unfold advanceDevices
  by_cases h : (s.cyc + 1) % 2 = 0
  · have hone : (s.cyc + 1) / 2 - s.cyc / 2 = 1 := by omega
    simp only [h, if_true, hone]
    rfl
  · have hzero : (s.cyc + 1) / 2 - s.cyc / 2 = 0 := by omega
    simp only [h, if_false, hzero]
    rfl

/-- Plain cycles: three dots each, and an audio tick for each that ends at an even count. -/
theorem plainCycles_devices (n : Nat) (s : State) :
    (plainCycles n s).ppu = Ppu.ticks (3 * n) s.ppu ∧
      (plainCycles n s).apu = Apu.ticks ((s.cyc + n) / 2 - s.cyc / 2) s.apu := by
  induction n generalizing s with
  | zero => simp [plainCycles, Ppu.ticks, Apu.ticks]
  | succ n ih =>
    obtain ⟨hppu, hapu⟩ := ih (plainCycle s)
    refine ⟨?_, ?_⟩
    · rw [plainCycles, hppu, Nat.mul_succ, Ppu.ticks_add]
      rfl
    · have hcyc : (plainCycle s).cyc = s.cyc + 1 := rfl
      have hfirst : (plainCycle s).apu = Apu.ticks ((s.cyc + 1) / 2 - s.cyc / 2) s.apu := advanceDevices_apu s
      rw [plainCycles, hapu, hcyc, hfirst, ← Apu.ticks_add]
      congr 1
      omega

/-- Everything a tick of the audio unit can do to it. -/
theorem Apu.tick_frame (u : Apu) :
    ∃ ticks count irq, u.tick = { u with frameTicks := ticks, frameCount := count, frameIrq := irq } := by
  unfold Apu.tick
  split
  · exact ⟨_, _, _, rfl⟩
  · split
    · exact ⟨_, _, _, rfl⟩
    · split <;> exact ⟨_, _, _, rfl⟩

theorem Apu.ticks_frame (n : Nat) (u : Apu) :
    ∃ ticks count irq, Apu.ticks n u = { u with frameTicks := ticks, frameCount := count, frameIrq := irq } := by
  induction n with
  | zero => exact ⟨_, _, _, rfl⟩
  | succ n ih =>
    obtain ⟨_, _, _, e⟩ := ih
    obtain ⟨_, _, _, e'⟩ := (Apu.ticks n u).tick_frame
    exact ⟨_, _, _, by rw [Apu.ticks, e', e]⟩

@[simp] theorem Apu.ticks_dmcRemaining (n : Nat) (u : Apu) : (Apu.ticks n u).dmcRemaining = u.dmcRemaining := by
  obtain ⟨_, _, _, e⟩ := Apu.ticks_frame n u
  rw [e]

/-- While the sample channel is inactive every cycle is a plain one. -/
theorem clock_eq_plainCycles (p : Params) (k : Nat) {s : State} (h : s.apu.dmcRemaining = 0) :
    clock p k s = plainCycles k s := by
  induction k generalizing s with
  | zero => rfl
  | succ k ih =>
    have hidle : (advanceDevices s).apu.dmcRemaining = 0 := by rw [advanceDevices_apu, Apu.ticks_dmcRemaining, h]
    have hnext : (plainCycle s).apu.dmcRemaining = 0 := hidle
    simp only [clock, requestsSample, drawRequest, hidle]
    exact ih hnext

/-- Settles O14: while the sample channel is inactive the clock runs plain cycles. -/
theorem clockAdvancesDevices : Obligations.ClockAdvancesDevices := by
  intro p k s h
  obtain ⟨hcyc, -, -⟩ := plainCycles_count k s
  obtain ⟨hppu, hapu⟩ := plainCycles_devices k s
  obtain ⟨_, _, _, _, _, _, e⟩ := plainCycles_frame k s
  rw [clock_eq_plainCycles p k h]
  exact ⟨hcyc, hppu, hapu, by rw [e]⟩

/-! ## A frame of the picture unit (60_exceptions.md R333 to R335) -/

/-- The dots of a frame: an odd one is a dot shorter (R335). -/
def frameDots (frame : Nat) : Nat := if frame % 2 = 1 then 341 * 262 - 1 else 341 * 262

theorem Ppu.advance_blank (u : Ppu) : u.advance.blank = u.blank := by
  unfold Ppu.advance
  simp only
  split_ifs <;> rfl

section
variable {u : Ppu} {k : Nat} (hline : u.scanline = k / 341) (hdot : u.dot = k % 341)
include hline hdot

/-- Dot `k` of a frame is followed by dot `k + 1`. -/
theorem Ppu.advance_within_frame (hk : k + 1 < frameDots u.frame) :
    u.advance.frame = u.frame ∧ u.advance.scanline = (k + 1) / 341 ∧ u.advance.dot = (k + 1) % 341 := by
  unfold frameDots at hk
  unfold Ppu.advance
  simp only
  split_ifs at hk ⊢ <;> simp only [true_and] <;> omega

/-- The last dot of a frame is followed by dot 0 of the next one. -/
theorem Ppu.advance_frame_end (hk : k + 1 = frameDots u.frame) :
    u.advance = { u with scanline := 0, dot := 0, frame := u.frame + 1 } := by
  unfold frameDots at hk
  have hlastLine : ¬ u.scanline < 261 := by split at hk <;> omega
  have hlastDot : ¬ u.dot < if u.scanline = 261 ∧ u.frame % 2 = 1 then 339 else 340 := by
    split_ifs at hk ⊢ <;> omega
  rw [Ppu.advance, if_neg hlastDot, if_neg hlastLine]

/-- The work of dot `k`: the blank flag is set at dot 1 of scanline 241 and cleared at dot 1 of scanline 261. -/
theorem Ppu.work_blank :
    u.work.blank = if k = 341 * 241 + 1 then true else if k = 341 * 261 + 1 then false else u.blank := by
  have hset : (u.scanline = 241 ∧ u.dot = 1) ↔ k = 341 * 241 + 1 := by omega
  have hclear : (u.scanline = 261 ∧ u.dot = 1) ↔ k = 341 * 261 + 1 := by omega
  simp only [Ppu.work, hset, hclear]

end

section
variable {u : Ppu} (hline : u.scanline = 0) (hdot : u.dot = 0)
include hline hdot

/-- The counter and the blank flag after the first `k` dots of a frame. -/
theorem Ppu.ticks_within_frame {k : Nat} (hk : k < frameDots u.frame) :
    (Ppu.ticks k u).frame = u.frame ∧ (Ppu.ticks k u).scanline = k / 341 ∧ (Ppu.ticks k u).dot = k % 341 ∧
      (Ppu.ticks k u).blank = if k ≤ 341 * 241 + 1 then u.blank else decide (k ≤ 341 * 261 + 1) := by
  induction k with
  | zero => exact ⟨rfl, hline, hdot, rfl⟩
  | succ k ih =>
    obtain ⟨hframe, hline', hdot', hblank⟩ := ih (by omega)
    obtain ⟨hframe'', hline'', hdot''⟩ :=
      Ppu.advance_within_frame (u := (Ppu.ticks k u).work) hline' hdot' (hframe.symm ▸ hk)
    refine ⟨hframe''.trans hframe, hline'', hdot'', ?_⟩
    have hcleared (h : k ≠ 341 * 261 + 1) : decide (k ≤ 341 * 261 + 1) = decide (k + 1 ≤ 341 * 261 + 1) :=
      decide_eq_decide.2 (by omega)
    rw [Ppu.ticks, Ppu.tick, Ppu.advance_blank, Ppu.work_blank hline' hdot', hblank]
    grind

/-- A whole frame leads to the first dot of the next one, with the blank flag clear. -/
theorem Ppu.ticks_frame_end :
    (Ppu.ticks (frameDots u.frame) u).frame = u.frame + 1 ∧ (Ppu.ticks (frameDots u.frame) u).scanline = 0 ∧
      (Ppu.ticks (frameDots u.frame) u).dot = 0 ∧ (Ppu.ticks (frameDots u.frame) u).blank = false := by
  obtain ⟨k, hk, hlong⟩ : ∃ k, frameDots u.frame = k + 1 ∧ 341 * 261 + 1 < k := by
    refine ⟨frameDots u.frame - 1, ?_⟩
    unfold frameDots
    split <;> omega
  obtain ⟨hframe, hline', hdot', hblank⟩ := Ppu.ticks_within_frame hline hdot (k := k) (by omega)
  have hend := Ppu.advance_frame_end (u := (Ppu.ticks k u).work) hline' hdot' (hframe.symm ▸ hk.symm)
  have htick : Ppu.ticks (k + 1) u = (Ppu.ticks k u).work.advance := rfl
  rw [hk, htick, hend]
  refine ⟨congrArg (· + 1) hframe, rfl, rfl, ?_⟩
  simp only [Ppu.work_blank hline' hdot', hblank]
  rw [if_neg (by omega), if_neg (by omega), if_neg (by omega), decide_eq_false (by omega)]

end

@[simp] theorem Ppu.ticks_ctrl (k : Nat) (u : Ppu) : (Ppu.ticks k u).ctrl = u.ctrl := by
  induction k with
  | zero => rfl
  | succ k ih => rw [Ppu.ticks, Ppu.tick_ctrl, ih]

/-- Settles O52: dot by dot through the frame, then the dot that begins the next one. -/
theorem frameTiming : Obligations.FrameTiming := by
  refine ⟨fun u => ⟨rfl, rfl, rfl⟩, fun u k hline hdot => ⟨?_, fun hk => Ppu.ticks_within_frame hline hdot hk, ?_⟩⟩
  · rw [Ppu.nmiOut, Ppu.ticks_ctrl]
  · rintro rfl
    exact Ppu.ticks_frame_end hline hdot

/-! ## Sprite DMA (60_exceptions.md R340 to R342) -/

theorem readDevice_oamAddr (a : Word) (s : State) : (readDevice a s).2.ppu.oamAddr = s.ppu.oamAddr := by
  unfold readDevice
  split
  · unfold readPpu
    split <;> rfl
  · split <;> [rfl; split <;> [rfl; split <;> rfl]]

@[simp] theorem busRead_oamAddr (a : Word) (s : State) : (busRead a s).2.ppu.oamAddr = s.ppu.oamAddr := by
  unfold busRead
  split
  · rfl
  · exact readDevice_oamAddr a s

/-- The `n`-th step of the copy: one bus read, and its byte in OAM; the cell number wraps in the page of OAM. -/
theorem dmaCopy_succ (page : Byte) (n : Nat) (s : State) :
    let r := busRead (mkWord page (BitVec.ofNat 8 n)) (dmaCopy page n s)
    dmaCopy page (n + 1) s =
      { r.2 with ppu := { r.2.ppu with oam := r.2.ppu.oam.set ((r.2.ppu.oamAddr.toNat + n) % 256) r.1 } } := by
  have hcell (b : Byte) : (b + BitVec.ofNat 8 n).toNat = (b.toNat + n) % 256 := by
    rw [BitVec.toNat_add, BitVec.toNat_ofNat, Nat.add_mod_mod]
  simp only [dmaCopy, hcell]

/-- The copy leaves work RAM, the cartridge and the OAM address alone. -/
theorem dmaCopy_keeps (page : Byte) (n : Nat) (s : State) :
    (dmaCopy page n s).ram = s.ram ∧ (dmaCopy page n s).cart = s.cart ∧
      (dmaCopy page n s).ppu.oamAddr = s.ppu.oamAddr := by
  induction n with
  | zero => exact ⟨rfl, rfl, rfl⟩
  | succ n ih => simpa [dmaCopy] using ih

/-- The copy of the bytes of a page of storage changes OAM only: the first `n` cells from the OAM address on hold the
page's first bytes. -/
theorem dmaCopy_storage {page : Byte} {byte : Byte → Byte} {s : State} (hwf : s.wf = true)
    (hpage : ∀ i, s.peek (mkWord page i) = some (byte i)) (n : Nat) (hn : n ≤ 256) :
    dmaCopy page n s = { s with ppu := { s.ppu with oam := (dmaCopy page n s).ppu.oam } } ∧
      ∀ i : Byte, i.toNat < n → (dmaCopy page n s).ppu.oam.get (s.ppu.oamAddr + i).toNat = byte i := by
  induction n with
  | zero => exact ⟨rfl, fun i hi => absurd hi (Nat.not_lt_zero _)⟩
  | succ n ih =>
    obtain ⟨hstate, hcopied⟩ := ih (by omega)
    obtain ⟨hram, hcart, haddr⟩ := dmaCopy_keeps page n s
    have hread : busRead (mkWord page (BitVec.ofNat 8 n)) (dmaCopy page n s) =
        (byte (BitVec.ofNat 8 n), dmaCopy page n s) :=
      busRead_of_peek ((State.peek_congr hram hcart _).trans (hpage _))
    obtain ⟨⟨-, -, -, -, hoam, -⟩, -⟩ := (wf_iff _).1 (dmaCopy_wf (page := page) (n := n) hwf)
    simp only [dmaCopy, hread, haddr]
    refine ⟨by rw [hstate], fun i hi => ?_⟩
    rw [Memory.get_set hoam]
    by_cases hlast : i = BitVec.ofNat 8 n
    · rw [if_pos (by rw [hlast]), hlast]
    · have hbefore : i.toNat ≠ n := fun h => hlast (by rw [← h, BitVec.ofNat_toNat, BitVec.setWidth_eq])
      have hcell : (s.ppu.oamAddr + i).toNat ≠ (s.ppu.oamAddr + BitVec.ofNat 8 n).toNat := fun h =>
        hlast (add_left_cancel (BitVec.eq_of_toNat_eq h))
      rw [if_neg hcell, hcopied i (by omega)]

theorem spriteDma_of_write {page : Byte} {s : State} (h : s.oamDma = some page) :
    spriteDma s = { dmaCopy page 256 s with
      oamDma := none, stall := s.stall + (if (s.cyc + s.stepCycles) % 2 = 1 then 514 else 513) } := by
  have hhidden := dmaCopy_hidden page 256 s
  have hcyc : (dmaCopy page 256 s).cyc = s.cyc := congrArg Hidden.cyc hhidden
  have hstall : (dmaCopy page 256 s).stall = s.stall := congrArg Hidden.stall hhidden
  simp only [spriteDma, h, dmaStall, hcyc, hstall, dmaCopy_stepCycles]

/-- Settles O53: the states between the reads are those of the copy so far. -/
theorem spriteDmaCopiesPage : Obligations.SpriteDmaCopiesPage := by
  intro s page byte hwf hdma
  obtain ⟨hram, hcart, haddr⟩ := dmaCopy_keeps page 256 s
  have hcyc : (dmaCopy page 256 s).cyc = s.cyc := congrArg Hidden.cyc (dmaCopy_hidden page 256 s)
  rw [spriteDma_of_write hdma]
  refine ⟨⟨rfl, rfl, hcyc, dmaCopy_stepCycles page 256 s, haddr, State.peek_congr hram hcart⟩,
    ⟨fun n => dmaCopy page n s, rfl, rfl, fun i _ => ?_⟩, fun hpage => ?_, ?_⟩
  · obtain ⟨-, -, haddr'⟩ := dmaCopy_keeps page i s
    simpa only [busRead_oamAddr, haddr'] using dmaCopy_succ page i s
  · obtain ⟨hstate, hcopied⟩ := dmaCopy_storage hwf hpage 256 (Nat.le_refl _)
    exact ⟨fun i => hcopied i i.isLt, by rw [hstate]⟩
  · rw [busWrite_device _ _ (by decide) (by decide)]
    simp [writeDevice, ← hdma]

/-! ## The shift-register mapper (60_exceptions.md R346) -/

section
variable {c : Cart} {v : Byte} (a : Word) (hmapper : c.mapper = .shiftRegister)
include hmapper

theorem Cart.mapperWrite_reset (hv : v.getLsbD 7 = true) :
    c.mapperWrite a v = { c with shift := 0, count := 0, control := c.control ||| 0x0C } := by
  simp only [Cart.mapperWrite, hmapper, hv, if_true]

theorem Cart.mapperWrite_serial (hv : v.getLsbD 7 = false) :
    c.mapperWrite a v =
      let shift := c.shift ||| ((BitVec.ofBool (v.getLsbD 0)).setWidth 5 <<< c.count)
      if c.count + 1 = 5 then c.commit a shift else { c with shift := shift, count := c.count + 1 } := by
  have hbit : v.extractLsb' 0 1 = BitVec.ofBool (v.getLsbD 0) := by
    apply BitVec.eq_of_getLsbD_eq
    intro i hi
    simp [Nat.lt_one_iff.1 hi]
  simp only [Cart.mapperWrite, hmapper, hv, hbit]
  rfl

/-- With fewer than four bits in the accumulator, bit 0 of the byte goes in above them. -/
theorem Cart.mapperWrite_accumulate (hv : v.getLsbD 7 = false) {n : Nat} (hn : n < 4) (shift : BitVec 5) :
    { c with shift := shift, count := n }.mapperWrite a v =
      { c with shift := shift ||| ((BitVec.ofBool (v.getLsbD 0)).setWidth 5 <<< n), count := n + 1 } := by
  rw [Cart.mapperWrite_serial (c := { c with shift := shift, count := n }) a hmapper hv]
  exact if_neg (by simp only; omega)

/-- With four bits in the accumulator, the fifth commits. -/
theorem Cart.mapperWrite_commit (hv : v.getLsbD 7 = false) (shift : BitVec 5) :
    { c with shift := shift, count := 4 }.mapperWrite a v =
      c.commit a (shift ||| ((BitVec.ofBool (v.getLsbD 0)).setWidth 5 <<< 4)) := by
  rw [Cart.mapperWrite_serial (c := { c with shift := shift, count := 4 }) a hmapper hv]
  rfl

end

/-- The accumulator after five bits, the first one lowest. -/
theorem serial_value (b1 b2 b3 b4 b5 : Bool) :
    (((((0 : BitVec 5) ||| ((BitVec.ofBool b1).setWidth 5 <<< 0)) ||| ((BitVec.ofBool b2).setWidth 5 <<< 1)) |||
      ((BitVec.ofBool b3).setWidth 5 <<< 2)) ||| ((BitVec.ofBool b4).setWidth 5 <<< 3)) |||
      ((BitVec.ofBool b5).setWidth 5 <<< 4) =
    BitVec.ofBool b5 ++ BitVec.ofBool b4 ++ BitVec.ofBool b3 ++ BitVec.ofBool b2 ++ BitVec.ofBool b1 := by
  revert b1 b2 b3 b4 b5
  decide

/-- Address bits 14 and 13 select the register by quarters of program space. -/
theorem Cart.commit_eq {a : Word} (c : Cart) (v : BitVec 5) (h : 0x8000 ≤ a.toNat) :
    c.commit a v =
      if a.toNat < 0xA000 then { c with shift := 0, count := 0, control := v, controlCommitted := true }
      else if a.toNat < 0xC000 then { c with shift := 0, count := 0, chr0 := v }
      else if a.toNat < 0xE000 then { c with shift := 0, count := 0, chr1 := v }
      else { c with shift := 0, count := 0, prg := v } := by
  have hlt := a.isLt
  have h14 : a.getLsbD 14 = decide (0xC000 ≤ a.toNat) := by
    rw [BitVec.getLsbD, Nat.testBit_eq_decide_div_mod_eq, decide_eq_decide]
    omega
  have h13 : a.getLsbD 13 = decide (0xA000 ≤ a.toNat ∧ a.toNat < 0xC000 ∨ 0xE000 ≤ a.toNat) := by
    rw [BitVec.getLsbD, Nat.testBit_eq_decide_div_mod_eq, decide_eq_decide]
    omega
  unfold Cart.commit
  rw [h14, h13]
  split_ifs with hcontrol hchr0 hchr1
  · rw [decide_eq_false (by omega), decide_eq_false (by omega)]
  · rw [decide_eq_false (by omega), decide_eq_true (by omega)]
  · rw [decide_eq_true (by omega), decide_eq_false (by omega)]
  · rw [decide_eq_true (by omega), decide_eq_true (by omega)]

/-- Settles O54: four serial writes fill the accumulator from empty, the fifth commits it and leaves it empty. -/
theorem mapperSerialWrites : Obligations.MapperSerialWrites := by
  intro c a1 a2 a3 a4 a5 v1 v2 v3 v4 v5 hmapper hshift hcount
  refine ⟨fun ⟨h1, h2, h3, h4, h5⟩ ha => ?_, fun d a v hd hv => Cart.mapperWrite_reset a hd hv⟩
  have hempty : { c with shift := 0, count := 0 } = c := by rw [← hshift, ← hcount]
  have hfirst := Cart.mapperWrite_accumulate a1 hmapper h1 (n := 0) (by decide) 0
  rw [hempty] at hfirst
  simp only [hfirst, Cart.mapperWrite_accumulate a2 hmapper h2 (n := 1) (by decide),
    Cart.mapperWrite_accumulate a3 hmapper h3 (n := 2) (by decide),
    Cart.mapperWrite_accumulate a4 hmapper h4 (n := 3) (by decide),
    Cart.mapperWrite_commit a5 hmapper h5, serial_value, Cart.commit_eq _ _ ha, hshift, hcount, Nat.reduceAdd]

/-! ## The controller (60_exceptions.md R350) -/

theorem busWrite_pad (v : Byte) (s : State) : busWrite 0x4016 v s = { s with pad := s.pad.write v } := by
  rw [busWrite_device v s (by decide) (by decide)]
  simp [writeDevice]

theorem busRead_pad (s : State) : busRead 0x4016 s = readPad s := by
  rw [busRead_device s (by decide) (by decide)]
  simp [readDevice]

/-- A read gives the pad's bit in bit 0 and leaves what `Pad.afterRead` says. -/
theorem busRead_pad_bit (s : State) :
    (busRead 0x4016 s).1.getLsbD 0 = s.pad.bit ∧ (busRead 0x4016 s).2.pad = s.pad.afterRead := by
  rw [busRead_pad]
  refine ⟨?_, rfl⟩
  simp only [readPad, BitVec.getLsbD_append, BitVec.getLsbD_ofBool]
  simp

theorem Pad.write_one {v : Byte} (d : Pad) (hv : v.getLsbD 0 = true) : d.write v = { d with strobe := true } := by
  simp only [Pad.write, hv, Bool.not_true, Bool.and_false, Bool.false_eq_true, if_false]

/-- From 1 to 0 the buttons are latched. -/
theorem Pad.write_zero {v : Byte} {d : Pad} (hv : v.getLsbD 0 = false) (h : d.strobe = true) :
    d.write v = { d with strobe := false, shift := d.buttons } := by
  simp only [Pad.write, hv, h, Bool.not_false, Bool.and_true, if_true]

/-- While the strobe is 1 a read leaves the pad alone. -/
theorem padReads_strobe {s : State} (h : s.pad.strobe = true) (n : Nat) : (padReads n s).pad = s.pad := by
  induction n with
  | zero => rfl
  | succ n ih => rw [padReads, (busRead_pad_bit _).2, ih, Pad.afterRead, if_pos h]

/-- With the strobe 0 each read shifts the register right by one, a 1 coming in. -/
theorem padReads_shift {s : State} (h : s.pad.strobe = false) (n : Nat) :
    (padReads n s).pad.strobe = false ∧
      ∀ i, i < 8 → (padReads n s).pad.shift.getLsbD i = if i + n < 8 then s.pad.shift.getLsbD (i + n) else true := by
  induction n with
  | zero => exact ⟨h, fun i hi => by rw [if_pos (by omega)]; rfl⟩
  | succ n ih =>
    obtain ⟨hstrobe, hshift⟩ := ih
    have hafter : (padReads (n + 1) s).pad =
        { (padReads n s).pad with shift := ((padReads n s).pad.shift >>> 1) ||| 0x80 } := by
      rw [padReads, (busRead_pad_bit _).2, Pad.afterRead, if_neg (by simp [hstrobe])]
    rw [hafter]
    refine ⟨hstrobe, fun i hi => ?_⟩
    simp only [BitVec.getLsbD_or, BitVec.getLsbD_ushiftRight]
    by_cases htop : i = 7
    · subst htop
      rw [if_neg (by omega)]
      simp
    · have hlow : ∀ j, j < 7 → (0x80 : Byte).getLsbD j = false := by decide
      rw [hlow i (by omega), Bool.or_false, Nat.add_comm 1 i, hshift (i + 1) (by omega), Nat.add_assoc,
        Nat.add_comm 1 n]

/-- Settles O56: the write of 1 and then 0 latches the buttons, and each read shifts them by one. -/
theorem controllerReads : Obligations.ControllerReads := by
  intro s v1 v0 n h1 h0
  have hstrobe : (busWrite 0x4016 v1 s).pad = { s.pad with strobe := true } := by
    rw [busWrite_pad, Pad.write_one s.pad h1]
  have hlatched : (busWrite 0x4016 v0 (busWrite 0x4016 v1 s)).pad =
      { s.pad with strobe := false, shift := s.pad.buttons } := by
    rw [busWrite_pad, hstrobe, Pad.write_zero h0 rfl]
  refine ⟨?_, ?_⟩
  · obtain ⟨hstrobe', hshift⟩ := padReads_shift (s := busWrite 0x4016 v0 (busWrite 0x4016 v1 s)) (by rw [hlatched]) n
    rw [(busRead_pad_bit _).1, Pad.bit, hstrobe', if_neg (by decide), hshift 0 (by omega), hlatched, Nat.zero_add]
  · rw [(busRead_pad_bit _).1, padReads_strobe (by rw [hstrobe]), hstrobe, Pad.bit, if_pos rfl]

/-! ## The audio unit's registers and its frame interrupt (60_exceptions.md R336, R337) -/

theorem busWrite_audioRegister {a : Word} (v : Byte) (s : State) (h : 0x4000 ≤ a.toNat) (h' : a.toNat < 0x4014) :
    busWrite a v s = { s with apu := { s.apu with regs := s.apu.regs.set (a.toNat - 0x4000) v } } := by
  have hcell : a.toNat % 0x20 = a.toNat - 0x4000 := by omega
  rw [busWrite_device v s (by omega) (by omega), writeDevice, if_neg (by omega), if_pos h', Apu.writeReg, hcell]

theorem busWrite_audioEnable (v : Byte) (s : State) :
    busWrite 0x4015 v s = { s with apu := s.apu.writeEnable v } := by
  rw [busWrite_device v s (by decide) (by decide)]
  simp [writeDevice]

theorem busWrite_frameControl (v : Byte) (s : State) : busWrite 0x4017 v s = writeFrameControl v s := by
  rw [busWrite_device v s (by decide) (by decide)]
  simp [writeDevice]

theorem busRead_audioStatus (s : State) : busRead 0x4015 s = readApuStatus s := by
  rw [busRead_device s (by decide) (by decide)]
  simp [readDevice]

/-- The interrupt flags are bits 7 and 6 of the status byte. -/
theorem readApuStatus_flags (s : State) :
    (readApuStatus s).1.getLsbD 7 = s.apu.dmcIrq ∧ (readApuStatus s).1.getLsbD 6 = s.apu.frameIrq := by
  simp only [readApuStatus, BitVec.getLsbD_append, BitVec.getLsbD_ofBool]
  simp

/-- A write of `$4017` sets mode and inhibit, and the frame interrupt flag stays unless the inhibit is set. -/
theorem writeFrameControl_flags (v : Byte) (s : State) :
    let u := (writeFrameControl v s).apu
    u.fiveStep = v.getLsbD 7 ∧ u.inhibit = v.getLsbD 6 ∧ u.frameIrq = (s.apu.frameIrq && !v.getLsbD 6) ∧
      u.dmcIrq = s.apu.dmcIrq := by
  unfold writeFrameControl
  cases h7 : v.getLsbD 7 <;> cases h6 : v.getLsbD 6 <;> simp

/-- A write of `$4015`: the sample channel stops, starts or plays on by bit 4; the enables are bits 4:0. -/
theorem Apu.writeEnable_eq (u : Apu) (v : Byte) :
    u.writeEnable v =
      { (if v.getLsbD 4 = false then { u with dmcRemaining := 0 }
         else if u.dmcRemaining = 0 then u.startSample else u) with
        enable := BitVec.ofNat 5 v.toNat, dmcIrq := false } := by
  have henable : v.extractLsb' 0 5 = BitVec.ofNat 5 v.toNat := by
    rw [BitVec.extractLsb', Nat.shiftRight_zero]
  unfold Apu.writeEnable
  simp only [henable]
  cases v.getLsbD 4 with
  | false => rfl
  | true =>
    simp only [if_true, Bool.true_eq_false, if_false]
    split <;> rfl

/-- In the 5-step mode or while inhibited the frame sequencer raises nothing. -/
theorem Apu.tick_disabled {u : Apu} (h : u.fiveStep = true ∨ u.inhibit = true) : u.tick = u := by
  rw [Apu.tick, if_pos (by rcases h with h | h <;> simp [h])]

/-- The tick after which the current 4-step sequence ends. -/
def Apu.sequenceEnd (u : Apu) : Nat := frameEarliest + Config.frameJitter u.frameCount % frameSlack

theorem Apu.sequenceEnd_bounds (u : Apu) : 14500 ≤ u.sequenceEnd ∧ u.sequenceEnd ≤ 15330 := by
  have hjitter := Nat.mod_lt (Config.frameJitter u.frameCount) (show 0 < frameSlack by decide)
  unfold Apu.sequenceEnd
  simp only [frameEarliest, frameSlack] at hjitter ⊢
  omega

section
variable {u : Apu} (hmode : u.fiveStep = false) (hinhibit : u.inhibit = false)
include hmode hinhibit

/-- A tick before the end of the sequence only counts. -/
theorem Apu.tick_within (h : u.frameTicks + 1 < u.sequenceEnd) :
    u.tick = { u with frameTicks := u.frameTicks + 1 } := by
  unfold Apu.sequenceEnd at h
  rw [Apu.tick, if_neg (by simp [hmode, hinhibit])]
  split
  · rfl
  · rw [if_neg (by omega)]

/-- The tick that ends the sequence raises the frame interrupt. -/
theorem Apu.tick_raises (h : u.frameTicks + 1 = u.sequenceEnd) : u.tick.frameIrq = true := by
  unfold Apu.sequenceEnd at h
  rw [Apu.tick, if_neg (by simp [hmode, hinhibit]), if_neg (by omega), if_pos (by omega)]

theorem Apu.ticks_within (hstart : u.frameTicks = 0) {n : Nat} (h : n < u.sequenceEnd) :
    Apu.ticks n u = { u with frameTicks := n } := by
  induction n with
  | zero => simp only [Apu.ticks, ← hstart]
  | succ n ih =>
    rw [Apu.ticks, ih (by omega)]
    exact Apu.tick_within (u := { u with frameTicks := n }) hmode hinhibit h

theorem Apu.ticks_raises (hstart : u.frameTicks = 0) : (Apu.ticks u.sequenceEnd u).frameIrq = true := by
  obtain ⟨hlow, -⟩ := u.sequenceEnd_bounds
  obtain ⟨n, hn⟩ : ∃ n, u.sequenceEnd = n + 1 := ⟨u.sequenceEnd - 1, by omega⟩
  rw [hn, Apu.ticks, Apu.ticks_within hmode hinhibit hstart (by omega)]
  exact Apu.tick_raises (u := { u with frameTicks := n }) hmode hinhibit hn.symm

end

/-- Settles O57: each register's access, and the end of a 4-step sequence within its window. -/
theorem audioStatusAndFrameInterrupt : Obligations.AudioStatusAndFrameInterrupt := by
  intro s v
  refine ⟨fun a h h' => ?_, ?_, ?_, ?_, fun h => by rw [Apu.tick_disabled h], fun hmode hinhibit hstart => ⟨?_, ?_⟩⟩
  · rw [busWrite_audioRegister v s h h']
    refine ⟨rfl, fun hwf n => ?_⟩
    obtain ⟨⟨-, -, -, -, -, -, -, hregs⟩, -⟩ := (wf_iff s).1 hwf
    exact Memory.get_set hregs
  · rw [busRead_audioStatus]
    obtain ⟨h7, h6⟩ := readApuStatus_flags s
    exact ⟨h7, h6, rfl⟩
  · rw [busWrite_frameControl]
    exact writeFrameControl_flags v s
  · rw [busWrite_audioEnable, Apu.writeEnable_eq]
  · intro n hn
    obtain ⟨hlow, -⟩ := s.apu.sequenceEnd_bounds
    rw [Apu.ticks_within hmode hinhibit hstart (by omega)]
  · obtain ⟨hlow, hhigh⟩ := s.apu.sequenceEnd_bounds
    exact ⟨_, hlow, hhigh, Apu.ticks_raises hmode hinhibit hstart⟩

/-! ## The sample channel (60_exceptions.md R337, R343; 70_reset_and_hazards.md R384) -/

/-- The sample's first address as a number. -/
def Apu.sampleBase (u : Apu) : Nat := 0xC000 + 64 * (Memory.get u.regs 0x12).toNat

/-- The address of the sample's byte `n`: from `$FFFF` on to `$8000`. -/
def Apu.sampleAddr (u : Apu) (n : Nat) : Nat :=
  if u.sampleBase + n < 0x10000 then u.sampleBase + n else u.sampleBase + n - 0x8000

theorem Apu.sampleStart_eq (u : Apu) : u.sampleStart = BitVec.ofNat 16 u.sampleBase :=
  (BitVec.ofNat_add 0xC000 _).symm

theorem Apu.sampleStart_toNat (u : Apu) : u.sampleStart.toNat = u.sampleBase := by
  have := (Memory.get u.regs 0x12).isLt
  rw [Apu.sampleStart_eq, BitVec.toNat_ofNat]
  unfold Apu.sampleBase
  omega

/-- A sample is short enough to wrap once at most. -/
theorem Apu.sampleBase_bounds (u : Apu) : u.sampleBase + u.sampleLength < 0x18000 := by
  have hstart := (Memory.get u.regs 0x12).isLt
  have hlength := (Memory.get u.regs 0x13).isLt
  unfold Apu.sampleBase Apu.sampleLength
  omega

/-- The address after the one of byte `n` is the one of byte `n + 1`. -/
theorem Apu.sampleAddr_succ (u : Apu) {n : Nat} {a : Word} (hn : n < u.sampleLength) (ha : a.toNat = u.sampleAddr n) :
    (if a = 0xFFFF then 0x8000 else a + 1 : Word).toNat = u.sampleAddr (n + 1) := by
  have hbound := u.sampleBase_bounds
  have hbase : 0xC000 ≤ u.sampleBase := Nat.le_add_right _ _
  have hmax : a = 0xFFFF ↔ a.toNat = 0xFFFF := (BitVec.toNat_inj (y := (0xFFFF : Word))).symm
  have hnext : (if a = 0xFFFF then 0x8000 else a + 1 : Word).toNat =
      if a.toNat = 0xFFFF then 0x8000 else a.toNat + 1 := by
    simp only [hmax]
    split
    · rfl
    · bv_omega
  rw [hnext, ha]
  unfold Apu.sampleAddr
  split_ifs <;> omega

/-- A byte that is not the last: the channel moves on. -/
theorem Apu.takeSample_more (u : Apu) (v : Byte) (h : 1 < u.dmcRemaining) :
    u.takeSample v = { u with
      dmcBuffer := v
      dmcAddr := if u.dmcAddr = 0xFFFF then 0x8000 else u.dmcAddr + 1
      dmcRemaining := u.dmcRemaining - 1 } := by
  unfold Apu.takeSample
  exact if_pos (by simp only; omega)

/-- The last byte: the sample loops, or the interrupt is raised if it is enabled. -/
theorem Apu.takeSample_last (u : Apu) (v : Byte) (h : u.dmcRemaining = 1) :
    u.takeSample v =
      if Config.dmcLoops (Memory.get u.regs 0x10) then { u.startSample with dmcBuffer := v }
      else { u with
        dmcBuffer := v
        dmcAddr := if u.dmcAddr = 0xFFFF then 0x8000 else u.dmcAddr + 1
        dmcRemaining := 0
        dmcIrq := u.dmcIrq || (Memory.get u.regs 0x10).getLsbD 7 } := by
  unfold Apu.takeSample
  simp only [h]
  rfl

theorem Apu.startSample_eq (u : Apu) :
    u.startSample = { u with dmcAddr := BitVec.ofNat 16 u.sampleBase, dmcRemaining := u.sampleLength } := by
  rw [Apu.startSample, Apu.sampleStart_eq]

section
variable (u : Apu) (bytes : Nat → Byte)

/-- Before its last byte the channel counts down and moves on, and nothing else. -/
theorem Apu.samples_within {n : Nat} (hn : n < u.sampleLength) :
    ∃ buffer addr, Apu.samples bytes n u.startSample =
      { u with dmcBuffer := buffer, dmcAddr := addr, dmcRemaining := u.sampleLength - n } ∧
      addr.toNat = u.sampleAddr n := by
  induction n with
  | zero =>
    refine ⟨u.dmcBuffer, u.sampleStart, rfl, ?_⟩
    have hlt := u.sampleStart.isLt
    rw [u.sampleStart_toNat] at hlt
    exact u.sampleStart_toNat.trans (if_pos hlt).symm
  | succ n ih =>
    obtain ⟨buffer, addr, hstate, haddr⟩ := ih (by omega)
    rw [Apu.samples, hstate, Apu.takeSample_more _ _ (by simp only; omega)]
    exact ⟨_, _, rfl, u.sampleAddr_succ (by omega) haddr⟩

/-- After its last byte the channel is at the start again if it loops, else it is inactive. -/
theorem Apu.samples_end :
    let v := Apu.samples bytes u.sampleLength u.startSample
    let loops := Config.dmcLoops (Memory.get u.regs 0x10)
    v.dmcRemaining = (if loops then u.sampleLength else 0) ∧
      v.dmcAddr.toNat = (if loops then u.sampleBase else u.sampleAddr u.sampleLength) ∧
      v.dmcIrq = (u.dmcIrq || (!loops && (Memory.get u.regs 0x10).getLsbD 7)) := by
  obtain ⟨n, hn⟩ : ∃ n, u.sampleLength = n + 1 := ⟨_, rfl⟩
  obtain ⟨buffer, addr, hstate, haddr⟩ := u.samples_within bytes (n := n) (by omega)
  have hnext := u.sampleAddr_succ (by omega) haddr
  have hlast := Apu.takeSample_last (Apu.samples bytes n u.startSample) (bytes n) (by rw [hstate]; simp only; omega)
  rw [hn, Apu.samples, hlast, hstate]
  cases Config.dmcLoops (Memory.get u.regs 0x10) with
  | false => simpa using hnext
  | true => exact ⟨hn, u.sampleStart_toNat, (Bool.or_false _).symm⟩

end

/-- The fields of the audio unit that the sample channel reads and writes. -/
structure SampleChannel where
  regs : Memory
  dmcIrq : Bool
  dmcAddr : Word
  dmcRemaining : Nat
  dmcBuffer : Byte

def Apu.sampleChannel (u : Apu) : SampleChannel := ⟨u.regs, u.dmcIrq, u.dmcAddr, u.dmcRemaining, u.dmcBuffer⟩

/-- The frame sequencer does not touch the sample channel. -/
theorem Apu.ticks_sampleChannel (n : Nat) (u : Apu) : (Apu.ticks n u).sampleChannel = u.sampleChannel := by
  obtain ⟨_, _, _, e⟩ := Apu.ticks_frame n u
  rw [e]
  rfl

theorem Apu.takeSample_sampleChannel {u w : Apu} (v : Byte) (h : u.sampleChannel = w.sampleChannel) :
    (u.takeSample v).sampleChannel = (w.takeSample v).sampleChannel := by
  simp only [Apu.sampleChannel, SampleChannel.mk.injEq] at h
  obtain ⟨hregs, hirq, haddr, hremaining, -⟩ := h
  simp only [Apu.takeSample, hregs, hirq, haddr, hremaining]
  split
  · rfl
  · split <;> rfl

theorem Apu.takeSample_dmcBuffer (u : Apu) (v : Byte) : (u.takeSample v).dmcBuffer = v := by
  simp only [Apu.takeSample]
  split
  · rfl
  · split <;> rfl

theorem sampleFetch_of_peek (p : Params) {s : State} {byte : Byte} (h : s.peek s.apu.dmcAddr = some byte) :
    sampleFetch p s = { s with apu := s.apu.takeSample byte, stall := s.stall + p.dmcStallCycles } := by
  simp only [sampleFetch, busRead_of_peek h]

theorem advanceDevices_sampleChannel (s : State) : (advanceDevices s).apu.sampleChannel = s.apu.sampleChannel := by
  rw [advanceDevices_apu, Apu.ticks_sampleChannel]

/-- One cycle of the clock while the sample channel is active: it may fetch, and then stalls. -/
theorem clock_one (p : Params) {s : State} (h : s.apu.dmcRemaining ≠ 0) :
    clock p 1 s =
      let t := { advanceDevices s with draws := s.draws + 1 }
      if Config.dmcRequest s.draws then plainCycles p.dmcStallCycles (sampleLines (sampleFetch p t))
      else sampleLines t := by
  have hactive : (advanceDevices s).apu.dmcRemaining ≠ 0 := by rwa [advanceDevices_apu, Apu.ticks_dmcRemaining]
  have hdraws : (advanceDevices s).draws = s.draws := rfl
  simp [clock, requestsSample, drawRequest, hactive, hdraws]

section
variable (p : Params) {s : State} (hactive : s.apu.dmcRemaining ≠ 0)
include hactive

/-- A cycle without a fetch: a plain one, whatever the free value drawn. -/
theorem clock_one_plain (hrequest : Config.dmcRequest s.draws = false) :
    let v := clock p 1 s
    v.cyc = s.cyc + 1 ∧ v.stall = s.stall ∧ v.ppu = Ppu.ticks 3 s.ppu ∧
      v.apu.sampleChannel = s.apu.sampleChannel := by
  rw [clock_one p hactive, hrequest]
  exact ⟨rfl, rfl, rfl, advanceDevices_sampleChannel s⟩

/-- A cycle with a fetch: the byte is taken, and the stall cycles are plain ones. -/
theorem clock_one_fetch {byte : Byte} (hbyte : s.peek s.apu.dmcAddr = some byte)
    (hrequest : Config.dmcRequest s.draws = true) :
    let v := clock p 1 s
    v.cyc = s.cyc + (1 + p.dmcStallCycles) ∧ v.stall = s.stall + p.dmcStallCycles ∧
      v.ppu = Ppu.ticks (3 * (1 + p.dmcStallCycles)) s.ppu ∧
      v.apu.sampleChannel = (s.apu.takeSample byte).sampleChannel := by
  have hchannel := advanceDevices_sampleChannel s
  have haddr : (advanceDevices s).apu.dmcAddr = s.apu.dmcAddr := congrArg SampleChannel.dmcAddr hchannel
  rw [clock_one p hactive, hrequest]
  simp only [if_true]
  rw [sampleFetch_of_peek (byte := byte) p (haddr ▸ hbyte)]
  generalize hfetched : sampleLines _ = t
  obtain ⟨hcyc, hstall, -⟩ := plainCycles_count p.dmcStallCycles t
  obtain ⟨hppu, hapu⟩ := plainCycles_devices p.dmcStallCycles t
  rw [hcyc, hstall, hppu, hapu, Apu.ticks_sampleChannel, Nat.mul_add, Nat.add_comm (3 * 1), Ppu.ticks_add, ← hfetched]
  exact ⟨Nat.add_assoc _ _ _, rfl, rfl, Apu.takeSample_sampleChannel byte hchannel⟩

end

/-- Settles O58: the channel's range byte by byte, then one cycle with its fetch and the stall that follows. -/
theorem sampleChannelFetches : Obligations.SampleChannelFetches := by
  refine ⟨fun u bytes n => ⟨u.startSample_eq, fun hn => ?_, ?_⟩, fun p s byte hactive hbyte => ?_⟩
  · obtain ⟨buffer, addr, hstate, haddr⟩ := u.samples_within bytes hn
    rw [hstate]
    exact ⟨rfl, rfl, haddr⟩
  · rintro rfl
    exact u.samples_end bytes
  · cases hrequest : Config.dmcRequest s.draws with
    | false =>
      obtain ⟨hcyc, hstall, hppu, hchannel⟩ := clock_one_plain p hactive hrequest
      simp only [Apu.sampleChannel, SampleChannel.mk.injEq] at hchannel
      obtain ⟨-, hirq, haddr, hremaining, hbuffer⟩ := hchannel
      exact ⟨hcyc, by rw [hstall]; rfl, hppu, hbuffer, haddr, hremaining, hirq⟩
    | true =>
      obtain ⟨hcyc, hstall, hppu, hchannel⟩ := clock_one_fetch p hactive hbyte hrequest
      simp only [Apu.sampleChannel, SampleChannel.mk.injEq, Apu.takeSample_dmcBuffer] at hchannel
      obtain ⟨-, hirq, haddr, hremaining, hbuffer⟩ := hchannel
      exact ⟨hcyc, by rw [hstall, if_pos rfl]; omega, hppu, hbuffer, haddr, hremaining, hirq⟩

/-! ## The cartridge image (60_exceptions.md R348, R349) -/

/-- A header of 16 bytes: the magic is looked at first. -/
theorem Cart.load_eq (m0 m1 m2 m3 prg chr f6 f7 : Byte) {rest : List Byte} (body : List Byte) (h : rest.length = 8) :
    Cart.load ([m0, m1, m2, m3, prg, chr, f6, f7] ++ rest ++ body) =
      if m0 = 0x4E && m1 = 0x45 && m2 = 0x53 && m3 = 0x1A then Cart.ofParts prg chr f6 f7 body
      else .error .badMagic := by
  match rest, h with
  | [_, _, _, _, _, _, _, _], _ => rfl

/-- The mapper's id: its high digit from header byte 7, its low digit from header byte 6. -/
def mapperId (f6 f7 : Byte) : Nat := f7.toNat / 16 * 16 + f6.toNat / 16

theorem mapperId_eq (f6 f7 : Byte) : ((f7 &&& (0xF0 : Byte)) ||| (f6 >>> 4)).toNat = mapperId f6 f7 := by
  have hhigh : ∀ b : Byte, (b &&& (0xF0 : Byte)).toNat = 2 ^ 4 * (b.toNat / 16) := by decide
  have := f6.isLt
  have hlow : (f6 >>> 4).toNat = f6.toNat / 16 := by rw [BitVec.toNat_ushiftRight, Nat.shiftRight_eq_div_pow]
  rw [BitVec.toNat_or, hhigh, hlow, ← Nat.two_pow_add_eq_or_of_lt (by omega), mapperId, Nat.mul_comm]

theorem mapperOfId_eq (f6 f7 : Byte) :
    mapperOfId ((f7 &&& 0xF0) ||| (f6 >>> 4)) =
      if 1 < mapperId f6 f7 then none else some (if mapperId f6 f7 = 0 then .fixed else .shiftRegister) := by
  rw [← mapperId_eq]
  generalize (f7 &&& 0xF0) ||| (f6 >>> 4) = id
  have hzero : id = 0 ↔ id.toNat = 0 := (BitVec.toNat_inj (y := (0 : Byte))).symm
  have hone : id = 1 ↔ id.toNat = 1 := (BitVec.toNat_inj (y := (1 : Byte))).symm
  simp only [mapperOfId, hzero, hone]
  by_cases h0 : id.toNat = 0
  · simp [h0]
  · by_cases h1 : id.toNat = 1
    · simp [h1]
    · rw [if_neg h0, if_neg h1, if_pos (by omega)]

/-- Bytes of the trainer before the banks. -/
def trainerSize (f6 : Byte) : Nat := if f6.getLsbD 2 then 512 else 0

/-- The cartridge that a header and a body with its banks give. -/
def loadedCart (prg chr f6 f7 : Byte) (body : List Byte) : Cart :=
  let banks := body.drop (trainerSize f6)
  { Cart.blank with
    mapper := if mapperId f6 f7 = 0 then .fixed else .shiftRegister
    prgBanks := prg.toNat
    chrBanks := chr.toNat
    battery := f6.getLsbD 1
    mirroring := headerMirroring f6
    prgRom := Memory.ofBytesFrom 0 (banks.take (0x4000 * prg.toNat))
    chr := Memory.ofBytesFrom 0 ((banks.drop (0x4000 * prg.toNat)).take (0x2000 * chr.toNat)) }

/-- The faults of a header and a body in their order, then the cartridge. -/
theorem Cart.ofParts_eq (prg chr f6 f7 : Byte) (body : List Byte) :
    Cart.ofParts prg chr f6 f7 body =
      if 1 < mapperId f6 f7 then .error .unsupportedMapper
      else if prg = 0 then .error .noProgramBanks
      else if body.length < trainerSize f6 + (0x4000 * prg.toNat + 0x2000 * chr.toNat) then .error .truncatedBody
      else .ok (loadedCart prg chr f6 f7 body) := by
  have hbanks : (if f6.getLsbD 2 then body.drop 512 else body) = body.drop (trainerSize f6) := by
    unfold trainerSize
    split <;> rfl
  simp only [Cart.ofParts, hbanks, mapperOfId_eq, List.length_drop]
  by_cases hid : 1 < mapperId f6 f7
  · simp only [hid, if_true]
  · by_cases hprg : prg = 0
    · simp only [hid, hprg, if_true, if_false]
    · have hpos : 0 < prg.toNat := Nat.pos_of_ne_zero fun h => hprg (BitVec.eq_of_toNat_eq h)
      have hshort : body.length - trainerSize f6 < 0x4000 * prg.toNat + 0x2000 * chr.toNat ↔
          body.length < trainerSize f6 + (0x4000 * prg.toNat + 0x2000 * chr.toNat) := by omega
      simp only [hid, hprg, if_false, hshort]
      rfl

/-- Until `control` is committed the mirroring is the header's. -/
theorem Cart.mirroringMode_header {c : Cart} (h : c.controlCommitted = false) : c.mirroringMode = c.mirroring := by
  unfold Cart.mirroringMode
  rw [h]
  cases c.mapper <;> rfl

/-- A cell of the memory of the first `size` bytes after `skip`. -/
theorem get_ofBytesFrom_window (body : List Byte) {skip size n : Nat} (h : n < size) :
    Memory.get (Memory.ofBytesFrom 0 ((body.drop skip).take size)) n = body.getD (skip + n) 0 := by
  have hget := Memory.get_ofBytesFrom 0 ((body.drop skip).take size) n
  rw [Nat.zero_add] at hget
  rw [hget]
  simp [List.getD_eq_getElem?_getD, List.getElem?_take_of_lt h, Memory.unlisted]

/-- Settles O59: the magic, then the faults of the header and the body in their order, then the cartridge. -/
theorem cartridgeLoad : Obligations.CartridgeLoad := by
  intro prg chr f6 f7 rest body hrest
  have hload : Cart.load ([0x4E, 0x45, 0x53, 0x1A, prg, chr, f6, f7] ++ rest ++ body) = _ :=
    (Cart.load_eq 0x4E 0x45 0x53 0x1A prg chr f6 f7 body hrest).trans (Cart.ofParts_eq prg chr f6 f7 body)
  refine ⟨fun hid hprg hbody => ?_, fun hfault => ?_, fun m0 m1 m2 m3 hmagic => ?_⟩
  · have hid' : ¬ 1 < mapperId f6 f7 := Nat.not_lt.2 hid
    have hbody' : ¬ body.length < trainerSize f6 + (0x4000 * prg.toNat + 0x2000 * chr.toNat) := Nat.not_lt.2 hbody
    rw [if_neg hid', if_neg hprg, if_neg hbody'] at hload
    refine ⟨_, hload, rfl, rfl, rfl, rfl, Cart.mirroringMode_header rfl, fun n hn => ?_, fun n hn => ?_⟩
    · exact get_ofBytesFrom_window body hn
    · simp only [loadedCart, List.drop_drop]
      exact get_ofBytesFrom_window body hn
  · simp only [hload]
    split_ifs with hid hprg hbody
    · exact ⟨_, rfl⟩
    · exact ⟨_, rfl⟩
    · exact ⟨_, rfl⟩
    · exact absurd hfault (by simp only [not_or]; exact ⟨hid, hprg, hbody⟩)
  · rw [Cart.load_eq _ _ _ _ _ _ _ _ body hrest, if_neg]
    simpa [and_assoc] using hmagic

end Sys2Proof.Machine

/-! # The statements of 70_reset_and_hazards.md

What a refused step leaves, and what reset writes. -/

namespace Sys2Proof.Machine

/-! ## Reset (70_reset_and_hazards.md R371, R373, R376) -/

/-- Where a reset starts: `ENTRY_PC` when it is set (R376), else the word at `$FFFC`, read through the reset mapper
(R371). -/
def resetTarget (p : Params) (s : State) : Word :=
  p.entryPc.getD ((resetRegisters s).vectorWord vecReset)

/-- Reset is the registers' reset and the load of `PC`: the vector is in program ROM, so reading it changes nothing. -/
theorem resetWith_eq (p : Params) (s : State) : resetWith p s = (resetRegisters s).setPc (resetTarget p s) := by
  have hvector : read16 vecReset (resetRegisters s) = ((resetRegisters s).vectorWord vecReset, resetRegisters s) :=
    read16_vector (by decide) (by decide)
  unfold resetWith resetTarget
  cases p.entryPc with
  | some entry => rfl
  | none => simp only [hvector, Option.getD_none]

@[simp] theorem resetWith_refused (p : Params) (s : State) : (resetWith p s).refused = false := by
  rw [resetWith_eq]; rfl

/-- The audio unit's reset clears the sample channel's interrupt enable, bit 7 of `$4010`. -/
theorem Apu.resetUnit_dmcIrqEnable {u : Apu} (h : Memory.wf 0x20 u.regs = true) :
    (u.resetUnit.regs.get 0x10).getLsbD 7 = false := by
  have hmode : u.resetUnit.regs.get 0x10 = u.regs.get 0x10 &&& 0x7F := by
    rw [Apu.resetUnit, Memory.get_set h, if_pos rfl]
  rw [hmode, BitVec.getLsbD_and]
  exact Bool.and_false _

/-- Settles O60: every register and device is written before `PC` is loaded, so the values are those of the registers'
reset; only the cleared bit of `$4010` needs a read after write. -/
theorem resetWrites : Obligations.ResetWrites := by
  intro p s
  have hpc : (resetWith p s).pc = resetTarget p s := by rw [resetWith_eq]; rfl
  have hentry (entry : Word) (h : p.entryPc = some entry) : resetTarget p s = entry := by
    rw [resetTarget, h, Option.getD_some]
  have hvector (h : p.entryPc = none) : resetTarget p s = (resetRegisters s).vectorWord vecReset := by
    rw [resetTarget, h, Option.getD_none]
  have henable (h : s.wf = true) : (s.apu.resetUnit.regs.get 0x10).getLsbD 7 = false := by
    obtain ⟨⟨-, -, -, -, -, -, -, hregs⟩, -⟩ := (wf_iff s).1 h
    exact Apu.resetUnit_dmcIrqEnable hregs
  refine ⟨?registers, ?hidden, ?delayedMask, fun entry h => hpc.trans (hentry entry h),
    fun h => hpc.trans (hvector h), ?memory, ?picture, ?audio, ?pad⟩
  all_goals rw [resetWith_eq]
  case registers => exact ⟨rfl, rfl, rfl, rfl, rfl⟩
  case hidden => exact ⟨rfl, rfl, rfl, rfl, rfl, rfl, rfl⟩
  case delayedMask => exact fun _ => rfl
  case memory => exact ⟨rfl, rfl, rfl, rfl, rfl, rfl, rfl⟩
  case picture => exact ⟨rfl, rfl, rfl, rfl, rfl, rfl, rfl, rfl, rfl⟩
  case audio => exact ⟨rfl, rfl, rfl, rfl, rfl, rfl, henable⟩
  case pad => exact ⟨rfl, rfl⟩

/-! ## The refused step (70_reset_and_hazards.md R381) -/

theorem stepReport_of_refused (p : Params) {s : State} (h : s.refused = true) :
    stepReport p s = (.refused .sticky, s) := by
  rw [stepReport, if_pos h]

theorem stepReport_of_halted (p : Params) {s : State} (hrefused : s.refused = false) (hhalted : s.halted = true) :
    stepReport p s = (.halted, s) := by
  simp [stepReport, hrefused, hhalted]

/-- A refused step, whatever its reason, leaves its start with the mark: a marked machine has it already, a halted one
is not refused, and a running one is refused by a rule or runs. -/
theorem stepReport_refused_state {p : Params} {s t : State} {r : Refusal} (h : stepReport p s = (.refused r, t)) :
    t = { s with refused := true } := by
  by_cases hrefused : s.refused = true
  · rw [stepReport_of_refused p hrefused, Prod.mk.injEq] at h
    rw [← h.2, ← hrefused]
  have hunmarked : s.refused = false := Bool.eq_false_iff.2 hrefused
  by_cases hhalted : s.halted = true
  · simp [stepReport_of_halted p hunmarked hhalted] at h
  have hrun : s.running = true := running_iff.2 ⟨Bool.eq_false_iff.2 hhalted, hunmarked⟩
  cases hrule : stepRefusal p s with
  | some rule =>
    rw [stepReport_of_refusal hrun hrule, Prod.mk.injEq] at h
    exact h.2.symm
  | none =>
    obtain ⟨k, u, hran⟩ := stepReport_of_no_refusal hrun hrule
    simp [hran] at h

/-- Settles O8: the state a refused step leaves is marked, so the next step is refused before its poll, until reset. -/
theorem refusedStepRestores : Obligations.RefusedStepRestores := by
  intro p s t r h
  have ht := stepReport_refused_state h
  have hmark : t.refused = true := by rw [ht]
  exact ⟨ht, by simp only [stepWith, h], stepReport_of_refused p hmark, resetWith_refused p t⟩

end Sys2Proof.Machine
